-- ==== Sys2Proof/Word.lean ====
section
/-! DEFINITION. The word types of the block (spec 00_scope.md R8, R9): bytes on the wire, 16-bit colours and window
operands, 32-bit counts and source indexes, and the 160-bit descriptor. -/

namespace Sys2Proof

/-- One 8-bit word of the wire, a command or parameter byte (R6, R53). -/
abbrev Byte := BitVec 8

/-- A 16-bit field: a window operand, a scroll row, or the bits of a signed coordinate or extent (R8, R91). -/
abbrev Half := BitVec 16

/-- A 16-bit 5-6-5 colour (R83). -/
abbrev Colour := BitVec 16

/-- An unsigned 32-bit repeat count or source buffer index (R8). -/
abbrev Word32 := BitVec 32

/-- The 160 bits of an operation descriptor, bit 159 first on the port (R90). -/
abbrev DescBits := BitVec 160

end Sys2Proof
end

