-- ==== Sys2Proof/Syntax.lean ====
section
/-! DEFINITION. The operations of the block as syntax: one constructor of `Instr` for each row of the opcode table
(spec 30_encoding.md R92), with the operands of R91. -/

namespace Sys2Proof

/-- Where a descriptor arrives: the block's outer interface, or the interface between the sequencer and the serial
transport inside it (R92). -/
inductive Port where
  | host
  | transport
deriving DecidableEq, Repr

/-- The operation codes of the opcode map (R92). -/
inductive Opcode where
  | beginOp | endOp
  | startWrite | endWrite
  | wrCmd | setWin | wrPix | wrPixs | wrColor
  | wPixel | wFillRect | wHLine | wVLine | wBitmap
  | drawPixel | fillRect | drawHLine | drawVLine | drawBitmap
  | setRot | invert | scrollTo | readReg | color565
  | tOpen | tXfer | tBlock | tClose
deriving DecidableEq, Repr

/-- An operation with its operands. A coordinate or extent of a drawing operation is the 16 bits of a two's complement
number (R8, R91: `sext_16`); a window operand and a scroll row are unsigned (`zext_16`). -/
inductive Instr where
  /-- BEGIN -/
  | beginOp
  /-- END -/
  | endOp
  /-- STARTWRITE -/
  | startWrite
  /-- ENDWRITE -/
  | endWrite
  /-- WRCMD cmd -/
  | wrCmd (cmd : Byte)
  /-- SETWIN x, y, w, h (unsigned) -/
  | setWin (x y w h : Half)
  /-- WRPIX color -/
  | wrPix (color : Colour)
  /-- WRPIXS p, n -/
  | wrPixs (p n : Word32)
  /-- WRCOLOR color, n -/
  | wrColor (color : Colour) (n : Word32)
  /-- WPIXEL x, y, color (signed x, y) -/
  | wPixel (x y : Half) (color : Colour)
  /-- WFILLRECT x, y, w, h, color (signed) -/
  | wFillRect (x y w h : Half) (color : Colour)
  /-- WHLINE x, y, len, color (signed) -/
  | wHLine (x y len : Half) (color : Colour)
  /-- WVLINE x, y, len, color (signed) -/
  | wVLine (x y len : Half) (color : Colour)
  /-- WBITMAP x, y, p, w, h (signed x, y, w, h) -/
  | wBitmap (x y : Half) (p : Word32) (w h : Half)
  /-- DRAWPIXEL x, y, color (signed x, y) -/
  | drawPixel (x y : Half) (color : Colour)
  /-- FILLRECT x, y, w, h, color (signed) -/
  | fillRect (x y w h : Half) (color : Colour)
  /-- DRAWHLINE x, y, len, color (signed) -/
  | drawHLine (x y len : Half) (color : Colour)
  /-- DRAWVLINE x, y, len, color (signed) -/
  | drawVLine (x y len : Half) (color : Colour)
  /-- DRAWBITMAP x, y, p, w, h (signed x, y, w, h) -/
  | drawBitmap (x y : Half) (p : Word32) (w h : Half)
  /-- SETROT r -/
  | setRot (r : Byte)
  /-- INVERT b -/
  | invert (b : Bool)
  /-- SCROLLTO y (unsigned) -/
  | scrollTo (y : Half)
  /-- READREG cmd, index -/
  | readReg (cmd index : Byte)
  /-- COLOR565 r, g, b -/
  | color565 (r g b : Byte)
  /-- T_OPEN -/
  | tOpen
  /-- T_XFER out -/
  | tXfer (out : Byte)
  /-- T_BLOCK: N is the number of bytes, and the bytes follow the descriptor -/
  | tBlock (out : List Byte)
  /-- T_CLOSE -/
  | tClose
deriving DecidableEq, Repr

/-- The row of the opcode map an operation belongs to (R92). -/
def Instr.opcode : Instr → Opcode
  | .beginOp => .beginOp
  | .endOp => .endOp
  | .startWrite => .startWrite
  | .endWrite => .endWrite
  | .wrCmd _ => .wrCmd
  | .setWin _ _ _ _ => .setWin
  | .wrPix _ => .wrPix
  | .wrPixs _ _ => .wrPixs
  | .wrColor _ _ => .wrColor
  | .wPixel _ _ _ => .wPixel
  | .wFillRect _ _ _ _ _ => .wFillRect
  | .wHLine _ _ _ _ => .wHLine
  | .wVLine _ _ _ _ => .wVLine
  | .wBitmap _ _ _ _ _ => .wBitmap
  | .drawPixel _ _ _ => .drawPixel
  | .fillRect _ _ _ _ _ => .fillRect
  | .drawHLine _ _ _ _ => .drawHLine
  | .drawVLine _ _ _ _ => .drawVLine
  | .drawBitmap _ _ _ _ _ => .drawBitmap
  | .setRot _ => .setRot
  | .invert _ => .invert
  | .scrollTo _ => .scrollTo
  | .readReg _ _ => .readReg
  | .color565 _ _ _ => .color565
  | .tOpen => .tOpen
  | .tXfer _ => .tXfer
  | .tBlock _ => .tBlock
  | .tClose => .tClose

/-- The port a descriptor with this opcode is accepted on (R92). -/
def Opcode.port : Opcode → Port
  | .tOpen => .transport
  | .tXfer => .transport
  | .tBlock => .transport
  | .tClose => .transport
  | .beginOp => .host
  | .endOp => .host
  | .startWrite => .host
  | .endWrite => .host
  | .wrCmd => .host
  | .setWin => .host
  | .wrPix => .host
  | .wrPixs => .host
  | .wrColor => .host
  | .wPixel => .host
  | .wFillRect => .host
  | .wHLine => .host
  | .wVLine => .host
  | .wBitmap => .host
  | .drawPixel => .host
  | .fillRect => .host
  | .drawHLine => .host
  | .drawVLine => .host
  | .drawBitmap => .host
  | .setRot => .host
  | .invert => .host
  | .scrollTo => .host
  | .readReg => .host
  | .color565 => .host

end Sys2Proof
end

