-- ==== Sys2Proof/WellFormed.lean ====
section
/-! DEFINITION. Which operations can be written as a descriptor. Every operand type but one holds exactly the values of
its field (spec 30_encoding.md R90, R91); the exception is the byte sequence of `T_BLOCK`, whose length is the 32-bit
field `N` (40_transport.md R114). -/

namespace Sys2Proof

/-- The operation has a descriptor (R90): the length of a block fits the field `N`. -/
def Instr.wf : Instr → Bool
  | .tBlock out => decide (out.length < 2 ^ 32)
  | .beginOp => true
  | .endOp => true
  | .startWrite => true
  | .endWrite => true
  | .wrCmd _ => true
  | .setWin _ _ _ _ => true
  | .wrPix _ => true
  | .wrPixs _ _ => true
  | .wrColor _ _ => true
  | .wPixel _ _ _ => true
  | .wFillRect _ _ _ _ _ => true
  | .wHLine _ _ _ _ => true
  | .wVLine _ _ _ _ => true
  | .wBitmap _ _ _ _ _ => true
  | .drawPixel _ _ _ => true
  | .fillRect _ _ _ _ _ => true
  | .drawHLine _ _ _ _ => true
  | .drawVLine _ _ _ _ => true
  | .drawBitmap _ _ _ _ _ => true
  | .setRot _ => true
  | .invert _ => true
  | .scrollTo _ => true
  | .readReg _ _ => true
  | .color565 _ _ _ => true
  | .tOpen => true
  | .tXfer _ => true
  | .tClose => true

end Sys2Proof
end

