-- ==== Sys2Proof/Decode.lean ====
section
/-! DEFINITION. The host encoding (spec 30_encoding.md R90 to R94): a descriptor of 20 bytes, read and written, total on
any bytes; what does not decode is rejected under a name of its own. The encoder stands after the decoder and is written
from the same tables. -/

namespace Sys2Proof

/-- `hi8(v)`, bits 15 to 8 (00_scope.md R9). -/
def hi8 (v : Half) : Byte := v.extractLsb' 8 8

/-- `lo8(v)`, bits 7 to 0 (00_scope.md R9). -/
def lo8 (v : Half) : Byte := v.extractLsb' 0 8

/-- The 32 bits of four bytes, the first in the high bits (R90: big-endian within the descriptor). -/
def word32 (b3 b2 b1 b0 : Byte) : Word32 := (b3 ++ b2) ++ (b1 ++ b0)

/-- The high half of a 32-bit value. -/
def hi16 (v : Word32) : Half := v.extractLsb' 16 16

/-- The low half of a 32-bit value. -/
def lo16 (v : Word32) : Half := v.extractLsb' 0 16

/-- The fields of a descriptor (R90). -/
structure Descriptor where
  op : Byte
  a : Half
  b : Half
  c : Half
  d : Half
  e : Half
  n : Word32
  p : Word32
  z : Byte
deriving DecidableEq, Repr

/-- The fields of the 160 bits of a descriptor, at the bit positions of R90. -/
def Descriptor.ofBits (v : DescBits) : Descriptor :=
  { op := v.extractLsb' 152 8
    a := v.extractLsb' 136 16
    b := v.extractLsb' 120 16
    c := v.extractLsb' 104 16
    d := v.extractLsb' 88 16
    e := v.extractLsb' 72 16
    n := v.extractLsb' 40 32
    p := v.extractLsb' 8 32
    z := v.extractLsb' 0 8 }

/-- The 160 bits of a descriptor, `OP` in the high bits (R90). -/
def Descriptor.toBits (f : Descriptor) : DescBits :=
  f.op ++ f.a ++ f.b ++ f.c ++ f.d ++ f.e ++ f.n ++ f.p ++ f.z

/-- The 20 bytes of a descriptor, byte 0 first (R90). -/
def Descriptor.toBytes (f : Descriptor) : List Byte :=
  [ f.op, hi8 f.a, lo8 f.a, hi8 f.b, lo8 f.b, hi8 f.c, lo8 f.c, hi8 f.d, lo8 f.d, hi8 f.e, lo8 f.e,
    hi8 (hi16 f.n), lo8 (hi16 f.n), hi8 (lo16 f.n), lo8 (lo16 f.n),
    hi8 (hi16 f.p), lo8 (hi16 f.p), hi8 (lo16 f.p), lo8 (lo16 f.p), f.z ]

/-- The fields of the first 20 bytes and the bytes after them; none where there are fewer (R90). -/
def Descriptor.ofBytes? : List Byte → Option (Descriptor × List Byte)
  | op :: a1 :: a0 :: b1 :: b0 :: c1 :: c0 :: d1 :: d0 :: e1 :: e0 ::
      n3 :: n2 :: n1 :: n0 :: p3 :: p2 :: p1 :: p0 :: z :: rest =>
    some ({ op := op, a := a1 ++ a0, b := b1 ++ b0, c := c1 ++ c0, d := d1 ++ d0, e := e1 ++ e0,
            n := word32 n3 n2 n1 n0, p := word32 p3 p2 p1 p0, z := z }, rest)
  | _ => none

/-- Why a descriptor is illegal (R94). All of them end the operation with `IllegalOp`; the names only say which test
failed. -/
inductive DecodeError where
  /-- Not 20 bytes, or not as many bytes after them as `T_BLOCK` announces (log 7). -/
  | badLength
  /-- `OP` is in no row of the opcode map. -/
  | unassigned
  /-- `OP` is not in the opcode map for the port the descriptor arrived on. -/
  | wrongPort
  /-- `Z` is not zero. -/
  | reservedNonzero
  /-- A field that is not an operand of the opcode is not zero. -/
  | unusedNonzero
  /-- The upper bits of a byte or Boolean operand are not zero. -/
  | operandHighBits
deriving DecidableEq, Repr

/-- `OP` of each opcode (R92). -/
def Opcode.code : Opcode → Byte
  | .beginOp => 0x01
  | .endOp => 0x02
  | .startWrite => 0x10
  | .endWrite => 0x11
  | .wrCmd => 0x20
  | .setWin => 0x21
  | .wrPix => 0x22
  | .wrPixs => 0x23
  | .wrColor => 0x24
  | .wPixel => 0x30
  | .wFillRect => 0x31
  | .wHLine => 0x32
  | .wVLine => 0x33
  | .wBitmap => 0x34
  | .drawPixel => 0x40
  | .fillRect => 0x41
  | .drawHLine => 0x42
  | .drawVLine => 0x43
  | .drawBitmap => 0x44
  | .setRot => 0x50
  | .invert => 0x51
  | .scrollTo => 0x52
  | .readReg => 0x53
  | .color565 => 0x54
  | .tOpen => 0x60
  | .tXfer => 0x61
  | .tBlock => 0x62
  | .tClose => 0x63

/-- The opcode a value of `OP` is assigned to, on either port; every other value is unassigned (R92). -/
def Opcode.ofByte? (b : Byte) : Option Opcode :=
  match b.toNat with
  | 0x01 => some .beginOp
  | 0x02 => some .endOp
  | 0x10 => some .startWrite
  | 0x11 => some .endWrite
  | 0x20 => some .wrCmd
  | 0x21 => some .setWin
  | 0x22 => some .wrPix
  | 0x23 => some .wrPixs
  | 0x24 => some .wrColor
  | 0x30 => some .wPixel
  | 0x31 => some .wFillRect
  | 0x32 => some .wHLine
  | 0x33 => some .wVLine
  | 0x34 => some .wBitmap
  | 0x40 => some .drawPixel
  | 0x41 => some .fillRect
  | 0x42 => some .drawHLine
  | 0x43 => some .drawVLine
  | 0x44 => some .drawBitmap
  | 0x50 => some .setRot
  | 0x51 => some .invert
  | 0x52 => some .scrollTo
  | 0x53 => some .readReg
  | 0x54 => some .color565
  | 0x60 => some .tOpen
  | 0x61 => some .tXfer
  | 0x62 => some .tBlock
  | 0x63 => some .tClose
  | _ => none

/-- How a 16-bit field of the descriptor is read (R91): not at all, as a byte, as a Boolean, or whole. -/
inductive Slot where
  | unused
  | byte
  | flag
  | half
deriving DecidableEq, Repr

/-- Which fields are operands of an opcode (R92, column "operand fields"). -/
structure Layout where
  a : Slot := .unused
  b : Slot := .unused
  c : Slot := .unused
  d : Slot := .unused
  e : Slot := .unused
  n : Bool := false
  p : Bool := false
deriving DecidableEq, Repr

/-- The operand fields of each opcode (R92). -/
def Opcode.layout : Opcode → Layout
  | .beginOp => {}
  | .endOp => {}
  | .startWrite => {}
  | .endWrite => {}
  | .wrCmd => { a := .byte }
  | .setWin => { a := .half, b := .half, c := .half, d := .half }
  | .wrPix => { e := .half }
  | .wrPixs => { n := true, p := true }
  | .wrColor => { e := .half, n := true }
  | .wPixel => { a := .half, b := .half, e := .half }
  | .wFillRect => { a := .half, b := .half, c := .half, d := .half, e := .half }
  | .wHLine => { a := .half, b := .half, c := .half, e := .half }
  | .wVLine => { a := .half, b := .half, c := .half, e := .half }
  | .wBitmap => { a := .half, b := .half, c := .half, d := .half, p := true }
  | .drawPixel => { a := .half, b := .half, e := .half }
  | .fillRect => { a := .half, b := .half, c := .half, d := .half, e := .half }
  | .drawHLine => { a := .half, b := .half, c := .half, e := .half }
  | .drawVLine => { a := .half, b := .half, c := .half, e := .half }
  | .drawBitmap => { a := .half, b := .half, c := .half, d := .half, p := true }
  | .setRot => { a := .byte }
  | .invert => { a := .flag }
  | .scrollTo => { a := .half }
  | .readReg => { a := .byte, b := .byte }
  | .color565 => { a := .byte, b := .byte, c := .byte }
  | .tOpen => {}
  | .tXfer => { a := .byte }
  | .tBlock => { n := true }
  | .tClose => {}

/-- A field that is no operand is zero (R90, R94). -/
def Slot.unusedZero (k : Slot) (v : Half) : Bool := decide (k = .unused → v = 0)

/-- The upper bits of a byte or Boolean operand are zero (R91, R94). -/
def Slot.highZero (k : Slot) (v : Half) : Bool :=
  match k with
  | .unused => true
  | .byte => decide (hi8 v = 0)
  | .flag => decide (v.extractLsb' 1 15 = 0)
  | .half => true

/-- What is illegal in the fields of a descriptor whose opcode has this layout; none where nothing is (R94). -/
def Layout.check (l : Layout) (f : Descriptor) : Option DecodeError :=
  if f.z ≠ 0 then some .reservedNonzero
  else if !(l.a.unusedZero f.a && l.b.unusedZero f.b && l.c.unusedZero f.c && l.d.unusedZero f.d && l.e.unusedZero f.e &&
      (l.n || decide (f.n = 0)) && (l.p || decide (f.p = 0))) then some .unusedNonzero
  else if !(l.a.highZero f.a && l.b.highZero f.b && l.c.highZero f.c && l.d.highZero f.d && l.e.highZero f.e) then
    some .operandHighBits
  else none

/-- How many bytes follow the descriptor: `N` for `T_BLOCK`, none for every other operation (R90, R92). -/
def Opcode.payloadLength (o : Opcode) (f : Descriptor) : Nat := if o = .tBlock then f.n.toNat else 0

/-- The operation with its operands read from the fields (R91, R92), and the bytes after the descriptor. -/
def Opcode.build (o : Opcode) (f : Descriptor) (payload : List Byte) : Instr :=
  match o with
  | .beginOp => .beginOp
  | .endOp => .endOp
  | .startWrite => .startWrite
  | .endWrite => .endWrite
  | .wrCmd => .wrCmd (lo8 f.a)
  | .setWin => .setWin f.a f.b f.c f.d
  | .wrPix => .wrPix f.e
  | .wrPixs => .wrPixs f.p f.n
  | .wrColor => .wrColor f.e f.n
  | .wPixel => .wPixel f.a f.b f.e
  | .wFillRect => .wFillRect f.a f.b f.c f.d f.e
  | .wHLine => .wHLine f.a f.b f.c f.e
  | .wVLine => .wVLine f.a f.b f.c f.e
  | .wBitmap => .wBitmap f.a f.b f.p f.c f.d
  | .drawPixel => .drawPixel f.a f.b f.e
  | .fillRect => .fillRect f.a f.b f.c f.d f.e
  | .drawHLine => .drawHLine f.a f.b f.c f.e
  | .drawVLine => .drawVLine f.a f.b f.c f.e
  | .drawBitmap => .drawBitmap f.a f.b f.p f.c f.d
  | .setRot => .setRot (lo8 f.a)
  | .invert => .invert (f.a.getLsbD 0)
  | .scrollTo => .scrollTo f.a
  | .readReg => .readReg (lo8 f.a) (lo8 f.b)
  | .color565 => .color565 (lo8 f.a) (lo8 f.b) (lo8 f.c)
  | .tOpen => .tOpen
  | .tXfer => .tXfer (lo8 f.a)
  | .tBlock => .tBlock payload
  | .tClose => .tClose

/-- The operation of a descriptor's fields and the bytes after it, on a port (R94). -/
def decodeFields (port : Port) (f : Descriptor) (payload : List Byte) : Except DecodeError Instr :=
  match Opcode.ofByte? f.op with
  | none => .error .unassigned
  | some o =>
    if o.port ≠ port then .error .wrongPort
    else
      match o.layout.check f with
      | some err => .error err
      | none => if payload.length = o.payloadLength f then .ok (o.build f payload) else .error .badLength

/-- The operation a sequence of bytes stands for on a port; total on any bytes (R94). -/
def decode (port : Port) (bytes : List Byte) : Except DecodeError Instr :=
  match Descriptor.ofBytes? bytes with
  | none => .error .badLength
  | some (f, payload) => decodeFields port f payload

/-- A byte operand in a 16-bit field (R91). -/
def ofByte (b : Byte) : Half := b.setWidth 16

/-- A Boolean operand in a 16-bit field (R91). -/
def ofFlag (b : Bool) : Half := if b then 1 else 0

/-- A descriptor with this opcode and every other field zero (R90). -/
def Descriptor.blank (o : Opcode) : Descriptor := { op := o.code, a := 0, b := 0, c := 0, d := 0, e := 0, n := 0, p := 0, z := 0 }

/-- The fields of an operation's descriptor (R91, R92). -/
def Instr.fields : Instr → Descriptor
  | .beginOp => .blank .beginOp
  | .endOp => .blank .endOp
  | .startWrite => .blank .startWrite
  | .endWrite => .blank .endWrite
  | .wrCmd cmd => { Descriptor.blank .wrCmd with a := ofByte cmd }
  | .setWin x y w h => { Descriptor.blank .setWin with a := x, b := y, c := w, d := h }
  | .wrPix color => { Descriptor.blank .wrPix with e := color }
  | .wrPixs p n => { Descriptor.blank .wrPixs with p := p, n := n }
  | .wrColor color n => { Descriptor.blank .wrColor with e := color, n := n }
  | .wPixel x y color => { Descriptor.blank .wPixel with a := x, b := y, e := color }
  | .wFillRect x y w h color => { Descriptor.blank .wFillRect with a := x, b := y, c := w, d := h, e := color }
  | .wHLine x y len color => { Descriptor.blank .wHLine with a := x, b := y, c := len, e := color }
  | .wVLine x y len color => { Descriptor.blank .wVLine with a := x, b := y, c := len, e := color }
  | .wBitmap x y p w h => { Descriptor.blank .wBitmap with a := x, b := y, c := w, d := h, p := p }
  | .drawPixel x y color => { Descriptor.blank .drawPixel with a := x, b := y, e := color }
  | .fillRect x y w h color => { Descriptor.blank .fillRect with a := x, b := y, c := w, d := h, e := color }
  | .drawHLine x y len color => { Descriptor.blank .drawHLine with a := x, b := y, c := len, e := color }
  | .drawVLine x y len color => { Descriptor.blank .drawVLine with a := x, b := y, c := len, e := color }
  | .drawBitmap x y p w h => { Descriptor.blank .drawBitmap with a := x, b := y, c := w, d := h, p := p }
  | .setRot r => { Descriptor.blank .setRot with a := ofByte r }
  | .invert b => { Descriptor.blank .invert with a := ofFlag b }
  | .scrollTo y => { Descriptor.blank .scrollTo with a := y }
  | .readReg cmd index => { Descriptor.blank .readReg with a := ofByte cmd, b := ofByte index }
  | .color565 r g b => { Descriptor.blank .color565 with a := ofByte r, b := ofByte g, c := ofByte b }
  | .tOpen => .blank .tOpen
  | .tXfer out => { Descriptor.blank .tXfer with a := ofByte out }
  | .tBlock out => { Descriptor.blank .tBlock with n := BitVec.ofNat 32 out.length }
  | .tClose => .blank .tClose

/-- The bytes that follow the descriptor (R92: `T_BLOCK` only). -/
def Instr.payload : Instr → List Byte
  | .tBlock out => out
  | .beginOp => []
  | .endOp => []
  | .startWrite => []
  | .endWrite => []
  | .wrCmd _ => []
  | .setWin _ _ _ _ => []
  | .wrPix _ => []
  | .wrPixs _ _ => []
  | .wrColor _ _ => []
  | .wPixel _ _ _ => []
  | .wFillRect _ _ _ _ _ => []
  | .wHLine _ _ _ _ => []
  | .wVLine _ _ _ _ => []
  | .wBitmap _ _ _ _ _ => []
  | .drawPixel _ _ _ => []
  | .fillRect _ _ _ _ _ => []
  | .drawHLine _ _ _ _ => []
  | .drawVLine _ _ _ _ => []
  | .drawBitmap _ _ _ _ _ => []
  | .setRot _ => []
  | .invert _ => []
  | .scrollTo _ => []
  | .readReg _ _ => []
  | .color565 _ _ _ => []
  | .tOpen => []
  | .tXfer _ => []
  | .tClose => []

/-- The bytes of an operation as the host hands them over, byte 0 first (R90). -/
def encode (i : Instr) : List Byte := i.fields.toBytes ++ i.payload

/-- A row of the opcode table: the bits a descriptor must have, and which bits they are (R94: `match` and `mask`). -/
structure Row where
  opcode : Opcode
  pattern : DescBits
  mask : DescBits
deriving DecidableEq, Repr

/-- A descriptor decodes to a row exactly when the row covers it (R94). -/
def Row.covers (r : Row) (v : DescBits) : Bool := decide (v &&& r.mask = r.pattern)

/-- Rows of the opcode table, as opcode_table.json prints them. -/
def lifecycleRows : List Row :=
  [ ⟨.beginOp, 0x0100000000000000000000000000000000000000#160, 0xFFFFFFFFFFFFFFFFFFFFFFFFFFFFFFFFFFFFFFFF#160⟩
  , ⟨.endOp, 0x0200000000000000000000000000000000000000#160, 0xFFFFFFFFFFFFFFFFFFFFFFFFFFFFFFFFFFFFFFFF#160⟩
  , ⟨.startWrite, 0x1000000000000000000000000000000000000000#160, 0xFFFFFFFFFFFFFFFFFFFFFFFFFFFFFFFFFFFFFFFF#160⟩
  , ⟨.endWrite, 0x1100000000000000000000000000000000000000#160, 0xFFFFFFFFFFFFFFFFFFFFFFFFFFFFFFFFFFFFFFFF#160⟩ ]

/-- Rows of the opcode table, as opcode_table.json prints them. -/
def protocolRows : List Row :=
  [ ⟨.wrCmd, 0x2000000000000000000000000000000000000000#160, 0xFFFF00FFFFFFFFFFFFFFFFFFFFFFFFFFFFFFFFFF#160⟩
  , ⟨.setWin, 0x2100000000000000000000000000000000000000#160, 0xFF0000000000000000FFFFFFFFFFFFFFFFFFFFFF#160⟩
  , ⟨.wrPix, 0x2200000000000000000000000000000000000000#160, 0xFFFFFFFFFFFFFFFFFF0000FFFFFFFFFFFFFFFFFF#160⟩
  , ⟨.wrPixs, 0x2300000000000000000000000000000000000000#160, 0xFFFFFFFFFFFFFFFFFFFFFF0000000000000000FF#160⟩
  , ⟨.wrColor, 0x2400000000000000000000000000000000000000#160, 0xFFFFFFFFFFFFFFFFFF000000000000FFFFFFFFFF#160⟩ ]

/-- Rows of the opcode table, as opcode_table.json prints them. -/
def unbracketedRows : List Row :=
  [ ⟨.wPixel, 0x3000000000000000000000000000000000000000#160, 0xFF00000000FFFFFFFF0000FFFFFFFFFFFFFFFFFF#160⟩
  , ⟨.wFillRect, 0x3100000000000000000000000000000000000000#160, 0xFF00000000000000000000FFFFFFFFFFFFFFFFFF#160⟩
  , ⟨.wHLine, 0x3200000000000000000000000000000000000000#160, 0xFF000000000000FFFF0000FFFFFFFFFFFFFFFFFF#160⟩
  , ⟨.wVLine, 0x3300000000000000000000000000000000000000#160, 0xFF000000000000FFFF0000FFFFFFFFFFFFFFFFFF#160⟩
  , ⟨.wBitmap, 0x3400000000000000000000000000000000000000#160, 0xFF0000000000000000FFFFFFFFFFFF00000000FF#160⟩ ]

/-- Rows of the opcode table, as opcode_table.json prints them. -/
def bracketedRows : List Row :=
  [ ⟨.drawPixel, 0x4000000000000000000000000000000000000000#160, 0xFF00000000FFFFFFFF0000FFFFFFFFFFFFFFFFFF#160⟩
  , ⟨.fillRect, 0x4100000000000000000000000000000000000000#160, 0xFF00000000000000000000FFFFFFFFFFFFFFFFFF#160⟩
  , ⟨.drawHLine, 0x4200000000000000000000000000000000000000#160, 0xFF000000000000FFFF0000FFFFFFFFFFFFFFFFFF#160⟩
  , ⟨.drawVLine, 0x4300000000000000000000000000000000000000#160, 0xFF000000000000FFFF0000FFFFFFFFFFFFFFFFFF#160⟩
  , ⟨.drawBitmap, 0x4400000000000000000000000000000000000000#160, 0xFF0000000000000000FFFFFFFFFFFF00000000FF#160⟩ ]

/-- Rows of the opcode table, as opcode_table.json prints them. -/
def ancillaryRows : List Row :=
  [ ⟨.setRot, 0x5000000000000000000000000000000000000000#160, 0xFFFF00FFFFFFFFFFFFFFFFFFFFFFFFFFFFFFFFFF#160⟩
  , ⟨.invert, 0x5100000000000000000000000000000000000000#160, 0xFFFFFEFFFFFFFFFFFFFFFFFFFFFFFFFFFFFFFFFF#160⟩
  , ⟨.scrollTo, 0x5200000000000000000000000000000000000000#160, 0xFF0000FFFFFFFFFFFFFFFFFFFFFFFFFFFFFFFFFF#160⟩
  , ⟨.readReg, 0x5300000000000000000000000000000000000000#160, 0xFFFF00FF00FFFFFFFFFFFFFFFFFFFFFFFFFFFFFF#160⟩
  , ⟨.color565, 0x5400000000000000000000000000000000000000#160, 0xFFFF00FF00FF00FFFFFFFFFFFFFFFFFFFFFFFFFF#160⟩ ]

/-- Rows of the opcode table, as opcode_table.json prints them. -/
def transportRows : List Row :=
  [ ⟨.tOpen, 0x6000000000000000000000000000000000000000#160, 0xFFFFFFFFFFFFFFFFFFFFFFFFFFFFFFFFFFFFFFFF#160⟩
  , ⟨.tXfer, 0x6100000000000000000000000000000000000000#160, 0xFFFF00FFFFFFFFFFFFFFFFFFFFFFFFFFFFFFFFFF#160⟩
  , ⟨.tBlock, 0x6200000000000000000000000000000000000000#160, 0xFFFFFFFFFFFFFFFFFFFFFF00000000FFFFFFFFFF#160⟩
  , ⟨.tClose, 0x6300000000000000000000000000000000000000#160, 0xFFFFFFFFFFFFFFFFFFFFFFFFFFFFFFFFFFFFFFFF#160⟩ ]

/-- The opcode table, 28 rows (R92, R94). -/
def opcodeTable : List Row :=
  lifecycleRows ++ protocolRows ++ unbracketedRows ++ bracketedRows ++ ancillaryRows ++ transportRows

/-- The descriptor bits of a table word (log 10: the table numbers the 160 bits of a descriptor 159 to 0). -/
def tableBits (nbits w : Nat) : DescBits := BitVec.ofNat 160 (w % 2 ^ nbits)

/-- The port the descriptor of a table word belongs to (R92); the host port where no row has its opcode. -/
def tablePort (nbits w : Nat) : Port :=
  match Opcode.ofByte? (Descriptor.ofBits (tableBits nbits w)).op with
  | some o => o.port
  | none => .host

/-- The bytes of a table word, byte 0 first, with as many zero bytes after them as a `T_BLOCK` announces. -/
def tableBytes (nbits w : Nat) : List Byte :=
  let f := Descriptor.ofBits (tableBits nbits w)
  f.toBytes ++
    match Opcode.ofByte? f.op with
    | some o => List.replicate (o.payloadLength f) 0
    | none => []

/-- The operation the decoder reads from a table word. -/
def decodeTableWord (nbits w : Nat) : Option Instr :=
  match decode (tablePort nbits w) (tableBytes nbits w) with
  | .ok i => some i
  | .error _ => none

end Sys2Proof
end

