-- ==== Sys2Proof/Config.lean ====
section
/-! DEFINITION. The configuration record `cfg` (spec 00_scope.md R6, R7), its fixed fields as constants and its OPEN
fields as plain data, and the free values: opaque constants with no body, of which nothing can be proved. -/

namespace Sys2Proof

/-- An addressing window as the panel holds it: first and last column, first and last row (20_memory.md R62). -/
structure Window where
  xs : Half
  xe : Half
  ys : Half
  ye : Half
deriving DecidableEq, Repr, Inhabited

/-- The panel's write cursor, column and row (20_memory.md R62). -/
structure Cursor where
  cx : Half
  cy : Half
deriving DecidableEq, Repr, Inhabited

/-- The order of the bits of one exchange (R6: most significant first is the only one). -/
inductive BitOrder where
  | msbFirst
deriving DecidableEq, Repr, Inhabited

/-- What `T_OPEN` fixes for the whole session and reports in the event `Open` (10_state.md R30, 40_transport.md R111). -/
structure SessionConf where
  clockRate : Nat
  bitOrder : BitOrder
  cpol : Nat
  cpha : Nat
  wordBits : Nat
deriving DecidableEq, Repr, Inhabited

/-- The OPEN fields of `cfg` (R7): the source names them and gives no value, so a claim quantifies over them.
`device` is the path or handle `T_OPEN` acquires; no other rule reads it. -/
structure Cfg where
  w0 : Half
  h0 : Half
  clockRate : Nat
  device : String
  cmdCaset : Byte
  cmdPaset : Byte
  cmdRamwr : Byte
  cmdMadctl : Byte
  cmdInvon : Byte
  cmdInvoff : Byte
  cmdVscrsadd : Byte
  cmdSlpout : Byte
  cmdDispon : Byte
  initSeq : List (Byte × List Byte)
  madctl0 : Byte
  madctl1 : Byte
  madctl2 : Byte
  madctl3 : Byte
  fbPreserving : List Byte
deriving DecidableEq, Repr, Inhabited

/-- The constraints the spec puts on `cfg` (R7): native extents at least 1, a positive clock rate, and the three window
commands pairwise different. -/
def Cfg.wf (c : Cfg) : Bool :=
  decide (1 ≤ c.w0.toNat) && decide (1 ≤ c.h0.toNat) && decide (1 ≤ c.clockRate) &&
  decide (c.cmdCaset ≠ c.cmdPaset) && decide (c.cmdCaset ≠ c.cmdRamwr) && decide (c.cmdPaset ≠ c.cmdRamwr)

namespace Config

/-- `cfg.WORD_BITS` (R6). -/
def wordBits : Nat := 8
/-- `cfg.CPOL` (R6). -/
def cpol : Nat := 0
/-- `cfg.CPHA` (R6). -/
def cpha : Nat := 0
/-- `cfg.CMD_REGREAD_ENABLE` (R6). -/
def cmdRegreadEnable : Byte := 0xD9
/-- `cfg.REGREAD_BASE` (R6). -/
def regreadBase : Byte := 0x10
/-- `cfg.T_SETTLE_MS` (R6). -/
def tSettleMs : Nat := 100
/-- `cfg.T_RESET_MS` (R6). -/
def tResetMs : Nat := 100
/-- `cfg.T_BOOT_MS` (R6). -/
def tBootMs : Nat := 200
/-- `cfg.T_SLPOUT_MS` (R6). -/
def tSlpoutMs : Nat := 120
/-- `cfg.T_DISPON_MS` (R6). -/
def tDisponMs : Nat := 120

/-- The configuration of the chip at hand, before R7's constraints are read into it: unconstrained (log 3). -/
opaque chipRaw : Cfg

/-- A configuration that meets R7's constraints, taken only where `chipRaw` does not (log 3). -/
def legalStandIn : Cfg :=
  { (default : Cfg) with w0 := 1, h0 := 1, clockRate := 1, cmdCaset := 0, cmdPaset := 1, cmdRamwr := 2, fbPreserving := [] }

/-- The configuration a fresh instance is given: any one that meets R7's constraints, with `cfg.FB_PRESERVING` at its
default, the empty set (R7). Nothing else is known of it (log 3). -/
def chip : Cfg := if chipRaw.wf then { chipRaw with fbPreserving := [] } else legalStandIn

/-- The answer of the environment to the draw numbered `k` of a `T_OPEN`, where no script gives it (R247; log 5). -/
opaque freeOpen : Nat → Bool

/-- The answer of the environment to the draw numbered `k` of an exchange, where no script gives it: failure, or the
byte clocked in (R247, 40_transport.md R112; log 5). -/
opaque freeXfer : Nat → Option Byte

/-- An unspecified addressing window of the panel (20_memory.md R63, R67; log 4). -/
opaque freeWindow : Nat → Window

/-- An unspecified write cursor of the panel (20_memory.md R62, R67; log 4). -/
opaque freeCursor : Nat → Cursor

/-- `WIDTH` of a fresh instance, which the spec leaves unspecified (10_state.md R36; log 1). -/
opaque resetWidth : Half

/-- `HEIGHT` of a fresh instance, which the spec leaves unspecified (10_state.md R36; log 1). -/
opaque resetHeight : Half

/-- `ROTATION` of a fresh instance, which the spec leaves unspecified (10_state.md R36; log 1). -/
opaque resetRotation : Byte

end Config

/-- The session configuration `T_OPEN` establishes (10_state.md R30). -/
def Cfg.sessionConf (c : Cfg) : SessionConf :=
  { clockRate := c.clockRate, bitOrder := .msbFirst, cpol := Config.cpol, cpha := Config.cpha, wordBits := Config.wordBits }

/-- The memory-access-control byte of rotation `m` (44_ancillary.md R225). -/
def Cfg.madctlByte (c : Cfg) (m : Byte) : Byte :=
  match m.toNat with
  | 0 => c.madctl0
  | 1 => c.madctl1
  | 2 => c.madctl2
  | _ => c.madctl3

end Sys2Proof
end

