-- ==== Sys2Proof/Machine/State.lean ====
section
/-! DEFINITION. The state of the machine: the block's registers (spec 10_state.md R20), its outputs, the panel at the
far end of the wire (20_memory.md R62), and what R21 calls parameters of the step, held as plain data. -/

namespace Sys2Proof.Machine

/-- `LIFECYCLE` (R27). -/
inductive Lifecycle where
  | uninitialized
  | ready
  | closed
deriving DecidableEq, Repr

/-- `SESSION`: never opened, open, opened once and closed since (R30). -/
inductive Session where
  | none
  | opened
  | released
deriving DecidableEq, Repr

/-- The level a control line is driven to (R28). -/
inductive Level where
  | high
  | low
deriving DecidableEq, Repr

/-- What a control line latch holds: nothing before the first `BEGIN` that gets past the open, then a level (R28). -/
inductive Latch where
  | undriven
  | driven (v : Level)
deriving DecidableEq, Repr

/-- The three control lines (R28). -/
inductive Line where
  | reset
  | dc
  | cs
deriving DecidableEq, Repr

/-- The events of the wire trace (20_memory.md R50). -/
inductive Event where
  /-- `Open(conf)` -/
  | sessionOpen (conf : SessionConf)
  /-- `Close` -/
  | sessionClose
  /-- `Line(l, v)` -/
  | line (l : Line) (v : Level)
  /-- `Delay(ms)` -/
  | delay (ms : Nat)
  /-- `Xfer(out, in)` -/
  | xfer (out inp : Byte)
  /-- `XferFail(out)` -/
  | xferFail (out : Byte)
deriving DecidableEq, Repr

/-- The status an operation ends with (30_encoding.md R93). -/
inductive Status where
  | ok
  | deviceUnavailable
  | transferFailure
  | notReady
  | noBracket
  | bracketOpen
  | badOperand
  | illegalOp
deriving DecidableEq, Repr

/-- The result handed back when an operation ends (30_encoding.md R93). -/
structure Result where
  status : Status
  value : Half
deriving DecidableEq, Repr

/-- A sparse memory of 16-bit colours, indexes strictly rising; an unlisted index has no value. It holds `SRC`
(20_memory.md R57) and the panel's frame memory (R62). -/
abbrev Memory := List (Nat × Colour)

/-- `P.MODE`; `col k` and `row k` have received `k` parameter bytes (20_memory.md R62). -/
inductive PanelMode where
  | idle
  | col (k : Fin 4)
  | row (k : Fin 4)
  | write
  | other
  | unknown
deriving DecidableEq, Repr

/-- The panel (20_memory.md R62): window, cursor, mode, parameter bytes so far, half a pixel, frame memory. -/
structure Panel where
  win : Window
  cur : Cursor
  mode : PanelMode
  acc : List Byte
  half : Option Byte
  fb : Memory
deriving DecidableEq, Repr

/-- What the host hands over for one operation: the port and the bytes, byte 0 first (30_encoding.md R90, R92). -/
structure Request where
  port : Port
  bytes : List Byte
deriving DecidableEq, Repr

/-- The state of the machine. The first group is the block's tuple of R20. -/
structure State where
  /-- `LIFECYCLE` (R27) -/
  lifecycle : Lifecycle
  /-- `WIDTH` (R22) -/
  width : Half
  /-- `HEIGHT` (R22) -/
  height : Half
  /-- `ROTATION` (R22) -/
  rotation : Byte
  /-- `DEPTH` (R29) -/
  depth : Nat
  /-- the `RESET` latch (R28) -/
  resetLine : Latch
  /-- the `DC` latch (R28) -/
  dcLine : Latch
  /-- the `CS` latch (R28) -/
  csLine : Latch
  /-- `SESSION` (R30) -/
  session : Session
  /-- `WMODE` (R31) -/
  wmode : Bool
  /-- the wire trace, oldest event first (20_memory.md R50) -/
  trace : List Event
  /-- the result of the last operation that ended (30_encoding.md R93; log 8) -/
  result : Option Result
  /-- the panel (20_memory.md R62) -/
  panel : Panel
  /-- the configuration (00_scope.md R7; log 2) -/
  cfg : Cfg
  /-- the host's source colour buffer (20_memory.md R57; log 2) -/
  src : Memory
  /-- the environment's answers to the next opens; after them the answers are free (60_exceptions.md R247; log 5) -/
  opens : List Bool
  /-- the environment's answers to the next exchanges, a failure or the byte clocked in; after them the answers are
  free (60_exceptions.md R247; log 5) -/
  xfers : List (Option Byte)
  /-- the counter the free values are applied to (log 5) -/
  draws : Nat
  /-- the operations issued next, oldest first (10_state.md R25; log 7) -/
  requests : List Request
  /-- the model's sticky mark of a precondition violation (60_exceptions.md R250; log 9) -/
  faultMark : Bool
deriving DecidableEq, Repr

/-- Why the machine stops with a fault: never. Every error of the spec ends its operation with a status and leaves the
block accepting the next one (60_exceptions.md R254), so no operation raises a fault and the type has no constructor.
Safe: nothing is claimed of a state that does not exist. -/
inductive Fault where
deriving DecidableEq, Repr

/-- Why the machine has no next state. -/
inductive Refusal where
  /-- Raised by `exec` alone, for an instruction that has no meaning yet; safe, since nothing can be proved of what it
  does. No arm of `exec` raises it. -/
  | notModelled (mnemonic : String)
deriving DecidableEq, Repr

/-- A fresh instance (10_state.md R36, 70_reset_and_hazards.md R270). `WIDTH`, `HEIGHT` and `ROTATION` hold free values
(log 1), the configuration is the one the instance is given (log 3), the panel is unspecified (log 4), and neither the
host nor the environment has said anything yet (log 2, log 5, log 7). -/
def State.reset : State :=
  { lifecycle := .uninitialized
    width := Config.resetWidth
    height := Config.resetHeight
    rotation := Config.resetRotation
    depth := 0
    resetLine := .undriven
    dcLine := .undriven
    csLine := .undriven
    session := .none
    wmode := false
    trace := []
    result := none
    panel := { win := Config.freeWindow 0, cur := Config.freeCursor 0, mode := .unknown, acc := [], half := none, fb := [] }
    cfg := Config.chip
    src := []
    opens := []
    xfers := []
    draws := 1
    requests := []
    faultMark := false }

end Sys2Proof.Machine
end

