-- ==== Sys2Proof/Machine/Flags.lean ====
section
/-! DEFINITION. The block has no flags and no condition codes (spec 10_state.md R26). What an operation reports instead is
its result (30_encoding.md R93, 60_exceptions.md R240); the one bookkeeping bit the rules compute is `WMODE` (R31). -/

namespace Sys2Proof.Machine

/-- The number of a status (30_encoding.md R93). -/
def Status.code : Status → Byte
  | .ok => 0x00
  | .deviceUnavailable => 0x01
  | .transferFailure => 0x02
  | .notReady => 0x03
  | .noBracket => 0x04
  | .bracketOpen => 0x05
  | .badOperand => 0x06
  | .illegalOp => 0x07

/-- The 24 bits of a result, `STATUS` in bits 23:16 (30_encoding.md R93). -/
def Result.bits (r : Result) : BitVec 24 := r.status.code ++ r.value

/-- The statuses that stand for behaviour the source calls undefined or never describes (60_exceptions.md R250). -/
def Status.isMisuse : Status → Bool
  | .ok => false
  | .deviceUnavailable => false
  | .transferFailure => false
  | .notReady => true
  | .noBracket => true
  | .bracketOpen => true
  | .badOperand => true
  | .illegalOp => true

/-- An operation ends: its result is handed back (R93), and a precondition violation leaves its mark (R250; log 9). -/
def State.complete (s : State) (st : Status) (v : Half) : State :=
  { s with result := some ⟨st, v⟩, faultMark := s.faultMark || st.isMisuse }

/-- `WMODE` after the command byte `c` was sent (10_state.md R31, 42_protocol.md R152). -/
def wmodeAfter (cfg : Cfg) (c : Byte) : Bool := decide (c = cfg.cmdRamwr)

end Sys2Proof.Machine
end

