-- ==== Sys2Proof/Machine/Memory.lean ====
section
/-! DEFINITION. The sparse memories: the host's source buffer `SRC` (spec 20_memory.md R57) and the panel's frame memory
`P.FB` (R62), both partial functions to 16-bit colours, in one canonical form. -/

namespace Sys2Proof.Machine

/-- The canonical form: indexes strictly rising. An unlisted index has no value (R57, R62), so no entry can equal what an
unlisted index reads as. -/
def Memory.wf : Memory → Bool
  | [] => true
  | [_] => true
  | (a, _) :: (b, v) :: m => decide (a < b) && Memory.wf ((b, v) :: m)

/-- The colour at an index, where there is one. -/
def Memory.read : Memory → Nat → Option Colour
  | [], _ => none
  | (b, v) :: m, a => if a = b then some v else Memory.read m a

/-- The memory with a colour at an index. -/
def Memory.write : Memory → Nat → Colour → Memory
  | [], a, c => [(a, c)]
  | (b, v) :: m, a, c =>
    if a < b then (a, c) :: (b, v) :: m
    else if a = b then (a, c) :: m
    else (b, v) :: Memory.write m a c

/-- The index of a cell of the frame memory: column and row are unsigned 16-bit (10_state.md R34), so distinct cells have
distinct indexes. -/
def fbIndex (col row : Half) : Nat := row.toNat * 65536 + col.toNat

/-- `Src[i]`, where `i` is a 32-bit index at which the host has supplied a colour (R57). -/
def Memory.srcAt (m : Memory) (i : Nat) : Option Colour := if i < 2 ^ 32 then m.read i else none

/-- The colours at a list of indexes, in its order; none where one of them is out of range or undefined (R57). -/
def Memory.gather (m : Memory) : List Nat → Option (List Colour)
  | [] => some []
  | i :: is =>
    match m.srcAt i with
    | none => none
    | some c =>
      match Memory.gather m is with
      | none => none
      | some cs => some (c :: cs)

end Sys2Proof.Machine
end

