-- ==== Sys2Proof/Machine/Panel.lean ====
section
/-! DEFINITION. The companion panel model (spec 20_memory.md R62 to R67): how the panel takes each event of the wire. `fr`
is the draw number its unspecified values are taken at. -/

namespace Sys2Proof.Machine

/-- `P.MODE <- Unknown`: the whole panel state is unspecified (R62), so the frame memory has no value anywhere and
window and cursor are free values (log 4). -/
def Panel.lost (fr : Nat) : Panel :=
  { win := Config.freeWindow fr, cur := Config.freeCursor fr, mode := .unknown, acc := [], half := none, fb := [] }

/-- What holds after the initialisation of a `BEGIN`: idle, frame memory nowhere defined, window unspecified (R67). -/
def Panel.initialised (fr : Nat) : Panel :=
  { win := Config.freeWindow fr, cur := Config.freeCursor fr, mode := .idle, acc := [], half := none, fb := [] }

/-- Half a pixel is held, or a parameter is cut short (R63, R67). -/
def Panel.cutShort (p : Panel) : Bool :=
  p.half.isSome ||
    match p.mode with
    | .col k => decide (k ≠ 0)
    | .row k => decide (k ≠ 0)
    | .idle => false
    | .write => false
    | .other => false
    | .unknown => false

/-- The window lies inside the surface and is not reversed: the test of a memory-write command (R63). -/
def windowInside (w : Window) (width height : Half) : Bool :=
  decide (w.xs.toNat ≤ w.xe.toNat) && decide (w.xe.toNat < width.toNat) &&
  decide (w.ys.toNat ≤ w.ye.toNat) && decide (w.ye.toNat < height.toNat)

/-- A command byte (R63). `width` and `height` are the block's registers at the time of the event. -/
def Panel.onCommand (cfg : Cfg) (width height : Half) (fr : Nat) (b : Byte) (p : Panel) : Panel :=
  if p.mode = .unknown then p
  else if p.cutShort then .lost fr
  else if b = cfg.cmdCaset then { p with mode := .col 0, acc := [] }
  else if b = cfg.cmdPaset then { p with mode := .row 0, acc := [] }
  else if b = cfg.cmdRamwr then
    if windowInside p.win width height then { p with mode := .write, cur := ⟨p.win.xs, p.win.ys⟩, half := none }
    else .lost fr
  else if b ∈ cfg.fbPreserving then { p with mode := .other }
  else { p with mode := .other, fb := [], win := Config.freeWindow fr }

/-- The cursor after a pixel: the next column, then the next row, then the window's first cell again (R65). The sums are
taken in the integers, and what stays of them is at most the window's last column or row (log 17). -/
def nextCursor (w : Window) (c : Cursor) : Cursor :=
  if c.cx.toNat + 1 ≤ w.xe.toNat then ⟨c.cx + 1, if c.cy.toNat ≤ w.ye.toNat then c.cy else w.ys⟩
  else if c.cy.toNat + 1 ≤ w.ye.toNat then ⟨w.xs, c.cy + 1⟩
  else ⟨w.xs, w.ys⟩

/-- A data byte of a pixel stream (R65). -/
def Panel.onPixelByte (b : Byte) (p : Panel) : Panel :=
  match p.half with
  | none => { p with half := some b }
  | some h => { p with half := none, fb := p.fb.write (fbIndex p.cur.cx p.cur.cy) (h ++ b), cur := nextCursor p.win p.cur }

/-- A parameter byte of a column-address-set (R64). The last case cannot arise: `acc` holds `k` bytes (log 4). -/
def Panel.onColByte (k : Fin 4) (fr : Nat) (b : Byte) (p : Panel) : Panel :=
  if k = 3 then
    match p.acc ++ [b] with
    | [a0, a1, a2, a3] => { p with acc := [a0, a1, a2, a3], win := { p.win with xs := a0 ++ a1, xe := a2 ++ a3 }, mode := .idle }
    | _ => .lost fr
  else { p with acc := p.acc ++ [b], mode := .col (k + 1) }

/-- A parameter byte of a row-address-set (R64). -/
def Panel.onRowByte (k : Fin 4) (fr : Nat) (b : Byte) (p : Panel) : Panel :=
  if k = 3 then
    match p.acc ++ [b] with
    | [a0, a1, a2, a3] => { p with acc := [a0, a1, a2, a3], win := { p.win with ys := a0 ++ a1, ye := a2 ++ a3 }, mode := .idle }
    | _ => .lost fr
  else { p with acc := p.acc ++ [b], mode := .row (k + 1) }

/-- A data byte (R64, R65). -/
def Panel.onData (fr : Nat) (b : Byte) (p : Panel) : Panel :=
  match p.mode with
  | .col k => p.onColByte k fr b
  | .row k => p.onRowByte k fr b
  | .other => p
  | .idle => .lost fr
  | .write => p.onPixelByte b
  | .unknown => p

/-- `Line(CS, High)`: the frame ends (R67). -/
def Panel.onDeselect (fr : Nat) (p : Panel) : Panel :=
  if p.mode = .unknown then p
  else if p.cutShort then .lost fr
  else { p with mode := .idle }

/-- An exchange, by the levels of `CS` and `DC`: a command byte, a data byte, or a byte the panel is not listening to
(R63, R64, R67; an undriven line counts as not selected, log 12). -/
def Panel.onXfer (cfg : Cfg) (width height : Half) (cs dc : Latch) (fr : Nat) (b : Byte) (p : Panel) : Panel :=
  match cs, dc with
  | .driven .low, .driven .low => p.onCommand cfg width height fr b
  | .driven .low, .driven .high => p.onData fr b
  | .driven .low, .undriven => .lost fr
  | .driven .high, _ => .lost fr
  | .undriven, _ => .lost fr

/-- How the panel takes an event of the wire (R63 to R67). -/
def Panel.onEvent (cfg : Cfg) (width height : Half) (cs dc : Latch) (fr : Nat) (e : Event) (p : Panel) : Panel :=
  match e with
  | .xfer out _ => p.onXfer cfg width height cs dc fr out
  | .xferFail _ => .lost fr
  | .line .cs .high => p.onDeselect fr
  | .line .reset .low => .lost fr
  | .line .cs .low => p
  | .line .reset .high => p
  | .line .dc _ => p
  | .delay _ => p
  | .sessionOpen _ => p
  | .sessionClose => p

end Sys2Proof.Machine
end

