-- ==== Sys2Proof/Machine/Ops.lean ====
section
/-! DEFINITION. The shared operations: events and draws, the serial transport (spec 40_transport.md), the internal
procedures of 42_protocol.md, the bracket, and how an operation ends (60_exceptions.md R240, R248, R253). -/

namespace Sys2Proof.Machine

/-- A procedure: it returns, or it raises a status, and either way leaves a state (00_scope.md R10). -/
abbrev Proc := State → Option Status × State

/-- Nothing. -/
def Proc.skip : Proc := fun s => (none, s)

/-- One procedure after the other; what the first raises ends both. -/
def Proc.andThen (p q : Proc) : Proc := fun s =>
  match p s with
  | (none, t) => q t
  | (some e, t) => (some e, t)

/-- A write of `WMODE` (10_state.md R31). -/
def State.setWmode (s : State) (w : Bool) : State := { s with wmode := w }

/-- A write of `DEPTH` (10_state.md R29). -/
def State.setDepth (s : State) (d : Nat) : State := { s with depth := d }

/-- A write of `SESSION` (10_state.md R30). -/
def State.setSession (s : State) (v : Session) : State := { s with session := v }

/-- A write of `LIFECYCLE` (10_state.md R27). -/
def State.setLifecycle (s : State) (v : Lifecycle) : State := { s with lifecycle := v }

/-- The script of the answers to exchanges that is left. -/
def State.setXfers (s : State) (l : List (Option Byte)) : State := { s with xfers := l }

/-- The script of the answers to opens that is left. -/
def State.setOpens (s : State) (l : List Bool) : State := { s with opens := l }

/-- A free value has been drawn: the next draw is another. -/
def State.tick (s : State) : State := { s with draws := s.draws + 1 }

/-- The panel, as an event or a hazard leaves it. -/
def State.setPanel (s : State) (p : Panel) : State := { s with panel := p }

/-- The operations left to be taken. -/
def State.setRequests (s : State) (l : List Request) : State := { s with requests := l }

/-- A write of a control line latch (10_state.md R28). -/
def State.setLine (s : State) (l : Line) (v : Level) : State :=
  match l with
  | .reset => { s with resetLine := .driven v }
  | .dc => { s with dcLine := .driven v }
  | .cs => { s with csLine := .driven v }

/-- An event goes on the trace, and the panel takes it (20_memory.md R50, R51). -/
def State.emit (s : State) (e : Event) : State :=
  { s with
    trace := s.trace ++ [e]
    panel := s.panel.onEvent s.cfg s.width s.height s.csLine s.dcLine s.draws e
    draws := s.draws + 1 }

/-- `Line(l, v)` (00_scope.md R10): the latch is written and the event goes on the trace, whether or not the level
changes (10_state.md R28). -/
def State.drive (s : State) (l : Line) (v : Level) : State := (s.setLine l v).emit (.line l v)

/-- `Delay(ms)` (00_scope.md R10). -/
def State.wait (s : State) (ms : Nat) : State := s.emit (.delay ms)

/-- The environment's answer to an open (60_exceptions.md R247): the script's next, else a free value. -/
def drawOpen (s : State) : Bool × State :=
  match s.opens with
  | a :: rest => (a, s.setOpens rest)
  | [] => (Config.freeOpen s.draws, s.tick)

/-- The environment's answer to an exchange (60_exceptions.md R247): the script's next, else a free value. -/
def drawXfer (s : State) : Option Byte × State :=
  match s.xfers with
  | a :: rest => (a, s.setXfers rest)
  | [] => (Config.freeXfer s.draws, s.tick)

/-- `T_OPEN` (40_transport.md R111). -/
def openSession : Proc := fun s =>
  if s.session = .opened then (some .notReady, s)
  else
    match drawOpen s with
    | (false, t) => (some .deviceUnavailable, t)
    | (true, t) => (none, (t.setSession .opened).emit (.sessionOpen t.cfg.sessionConf))

/-- `T_CLOSE` (40_transport.md R115). -/
def closeSession : Proc := fun s =>
  if s.session = .opened then (none, (s.setSession .released).emit .sessionClose)
  else (some .notReady, s)

/-- `Xfer(b)` (40_transport.md R112): the byte clocked in, or the status raised. A failed exchange clears `WMODE`
(10_state.md R31, 60_exceptions.md R248). -/
def xferByte (b : Byte) (s : State) : Except Status Byte × State :=
  if s.session = .opened then
    match drawXfer s with
    | (some r, t) => (.ok r, t.emit (.xfer b r))
    | (none, t) => (.error .transferFailure, (t.emit (.xferFail b)).setWmode false)
  else (.error .notReady, s)

/-- `Data8(b)`: the byte is sent and the byte received ignored (42_protocol.md R151). -/
def data8 (b : Byte) : Proc := fun s =>
  match xferByte b s with
  | (.ok _, t) => (none, t)
  | (.error e, t) => (some e, t)

/-- `Data16(v)`, high byte first (42_protocol.md R151). -/
def data16 (v : Half) : Proc := (data8 (hi8 v)).andThen (data8 (lo8 v))

/-- `Data32(v)`, high half first (42_protocol.md R151). -/
def data32 (v : Word32) : Proc := (data16 (hi16 v)).andThen (data16 (lo16 v))

/-- `WriteCommand(c)` (42_protocol.md R152): `DC` is low for exactly the one byte, also when its exchange fails. -/
def writeCommand (c : Byte) : Proc := fun s =>
  match xferByte c (s.drive .dc .low) with
  | (.ok _, t) => (none, (t.drive .dc .high).setWmode (wmodeAfter t.cfg c))
  | (.error e, t) => (some e, (t.drive .dc .high).setWmode false)

/-- `StartWrite()` (42_protocol.md R153): `CS` is driven when the outermost bracket opens. -/
def startWrite (s : State) : State :=
  (if s.depth = 0 then s.drive .cs .low else s).setDepth (s.depth + 1)

/-- `EndWrite()` (42_protocol.md R154): `CS` is driven when the outermost bracket closes. -/
def endWrite (s : State) : State :=
  if s.depth - 1 = 0 then ((s.setDepth (s.depth - 1)).drive .cs .high).setWmode false else s.setDepth (s.depth - 1)

/-- Pixel data sent with no memory-write command in force leaves the panel unknown (20_memory.md R66, 70_reset_and_hazards.md
R280; log 11); the block itself does not look at `WMODE`. -/
def State.streamHazard (s : State) : State :=
  if s.wmode then s else (s.setPanel (.lost s.draws)).tick

/-- `WritePixel(c)` (42_protocol.md R163). -/
def writePixel (c : Colour) : Proc := fun s => data16 c s.streamHazard

/-- The steps an operation's walk is made of: a command byte, a parameter byte, a pixel, a delay
(30_encoding.md R80, R81). -/
inductive WireItem where
  | command (c : Byte)
  | data (b : Byte)
  | pixel (c : Colour)
  | delay (ms : Nat)
deriving DecidableEq, Repr

/-- One step of a walk. -/
def runItem : WireItem → Proc
  | .command c => writeCommand c
  | .data b => data8 b
  | .pixel c => writePixel c
  | .delay ms => fun s => (none, s.wait ms)

/-- A walk, from its first step on, ended by the first status raised (10_state.md R25, 60_exceptions.md R248). -/
def runItems : List WireItem → Proc
  | [] => Proc.skip
  | i :: is => (runItem i).andThen (runItems is)

/-- A 16-bit parameter, high byte first (42_protocol.md R151). -/
def halfItems (v : Half) : List WireItem := [.data (hi8 v), .data (lo8 v)]

/-- `SetAddressWindow(x, y, w, h)` (42_protocol.md R162; parameters 30_encoding.md R82): three command frames. -/
def windowItems (cfg : Cfg) (x y w h : Nat) : List WireItem :=
  .command cfg.cmdCaset :: halfItems (BitVec.ofNat 16 x) ++ halfItems (BitVec.ofNat 16 (x + w - 1)) ++
    .command cfg.cmdPaset :: halfItems (BitVec.ofNat 16 y) ++ halfItems (BitVec.ofNat 16 (y + h - 1)) ++
    [.command cfg.cmdRamwr]

/-- The wrapper of a bracketed operation (43_drawing.md R189): the bracket is closed on every exit path (41_lifecycle.md R133). -/
def bracketed (body : Proc) : Proc := fun s =>
  match body (startWrite s) with
  | (e, t) => (e, endWrite t)

/-- `raise E` (60_exceptions.md R240): the operation ends with the status and the value 0. -/
def State.raise (s : State) (e : Status) : State := s.complete e 0

/-- The operation ends as its procedure did: the status raised, or `OK` with the value given (60_exceptions.md R240). -/
def conclude (r : Option Status × State) (v : Half) : State :=
  match r.1 with
  | none => r.2.complete .ok v
  | some e => r.2.raise e

/-- The first check that fails, in the order they stand (60_exceptions.md R253). -/
def firstFailing : List (Bool × Status) → Option Status
  | [] => none
  | (ok, e) :: rest => if ok then firstFailing rest else some e

/-- The operation runs only when no check fails; a check that fails leaves no event and no change (60_exceptions.md R253). -/
def guarded (checks : List (Bool × Status)) (body : State → State) (s : State) : Host.Outcome State Fault Refusal :=
  .next (match firstFailing checks with
    | some e => s.raise e
    | none => body s)

/-- The operation an arrived request stands for, and the state without the request; none where none has arrived
(10_state.md R25, 30_encoding.md R90, R94). -/
def fetchRequest (s : State) : Option (Except DecodeError Instr × State) :=
  match s.requests with
  | [] => none
  | r :: rest => some (decode r.port r.bytes, s.setRequests rest)

/-- The bit pairs of one exchange on the wire, data out and data in, in the order of the clock periods: bit 7 first in
both directions (20_memory.md R53, 40_transport.md R113; the clock's edges are left out, log 16). -/
def wireBits (out inp : Byte) : List (Bool × Bool) :=
  (List.range Config.wordBits).map fun k => (out.getLsbD (7 - k), inp.getLsbD (7 - k))

end Sys2Proof.Machine
end

