-- ==== Sys2Proof/Machine/Operands.lean ====
section
/-! DEFINITION. What the operations compute from their operands: the lifecycle and bracket checks (spec 60_exceptions.md R253),
the clipper (43_drawing.md R181), the operand checks, the source indexes of a blit (R187), the colour packing
(44_ancillary.md R224) and the rotation table (R225). -/

namespace Sys2Proof.Machine

/-- `LIFECYCLE = Ready`, else `NotReady` (60_exceptions.md R243). -/
def readyCheck (s : State) : Bool × Status := (decide (s.lifecycle = .ready), .notReady)

/-- `LIFECYCLE = Uninitialized`, else `NotReady`: the check of `BEGIN` (41_lifecycle.md R130). -/
def freshCheck (s : State) : Bool × Status := (decide (s.lifecycle = .uninitialized), .notReady)

/-- `DEPTH >= 1`, else `NoBracket` (60_exceptions.md R244). -/
def bracketCheck (s : State) : Bool × Status := (decide (1 ≤ s.depth), .noBracket)

/-- `DEPTH = 0`, else `BracketOpen` (60_exceptions.md R244). -/
def noBracketCheck (s : State) : Bool × Status := (decide (s.depth = 0), .bracketOpen)

/-- An extent is at least 1, else `BadOperand` (43_drawing.md R195). -/
def extentCheck (w h : Int) : Bool × Status := (decide (1 ≤ w) && decide (1 ≤ h), .badOperand)

/-- The window of `SETWIN` is not empty and fits the 16-bit encoding, else `BadOperand` (42_protocol.md R161). -/
def windowCheck (x y w h : Nat) : Bool × Status :=
  (decide (1 ≤ w) && decide (1 ≤ h) && decide (x + w - 1 ≤ 65535) && decide (y + h - 1 ≤ 65535), .badOperand)

/-- What the clipper answers (43_drawing.md R181). -/
inductive ClipResult where
  | dropped
  | window (x y w h dx dy : Int)
deriving DecidableEq, Repr

/-- `Clip(x, y, w, h)` against the bounds `width` and `height`, over the integers (43_drawing.md R181). -/
def clip (width height x y w h : Int) : ClipResult :=
  let x2 := x + w - 1
  let y2 := y + h - 1
  if width ≤ x ∨ height ≤ y ∨ x2 < 0 ∨ y2 < 0 then .dropped
  else
    let dx := if x < 0 then -x else 0
    let w1 := w - dx
    let x' := if x < 0 then 0 else x
    let dy := if y < 0 then -y else 0
    let h1 := h - dy
    let y' := if y < 0 then 0 else y
    let w' := if width ≤ x2 then width - x' else w1
    let h' := if height ≤ y2 then height - y' else h1
    .window x' y' w' h' dx dy

/-- The clipper against the surface as it is when the operation starts (43_drawing.md R180). -/
def State.clip (s : State) (x y w h : Int) : ClipResult := Machine.clip s.width.toNat s.height.toNat x y w h

/-- The walk of a pixel write (43_drawing.md R183); empty where the coordinate is out of bounds. -/
def pixelItems (s : State) (x y : Int) (color : Colour) : List WireItem :=
  if 0 ≤ x ∧ x < s.width.toNat ∧ 0 ≤ y ∧ y < s.height.toNat then
    windowItems s.cfg x.toNat y.toNat 1 1 ++ [.pixel color]
  else []

/-- The walk of a rectangle fill (43_drawing.md R184); empty where the clipper drops it. -/
def rectItems (s : State) (x y w h : Int) (color : Colour) : List WireItem :=
  match s.clip x y w h with
  | .dropped => []
  | .window x' y' w' h' _ _ =>
    windowItems s.cfg x'.toNat y'.toNat w'.toNat h'.toNat ++ List.replicate (w'.toNat * h'.toNat) (.pixel color)

/-- The source indexes of a blit in the order read: row by row, `base + (dy + j) * stride + dx + i` (43_drawing.md R187). -/
def blitIndexes (base stride dx dy w h : Nat) : List Nat :=
  (List.range h).flatMap fun j => (List.range w).map fun i => base + (dy + j) * stride + dx + i

/-- The walk of a bitmap blit (43_drawing.md R187): empty where the clipper drops it, none where a colour that would be
sent is not defined. -/
def bitmapItems (s : State) (x y : Int) (p : Nat) (w h : Int) : Option (List WireItem) :=
  match s.clip x y w h with
  | .dropped => some []
  | .window x' y' w' h' dx dy =>
    match s.src.gather (blitIndexes p w.toNat dx.toNat dy.toNat w'.toNat h'.toNat) with
    | none => none
    | some colours =>
      some (windowItems s.cfg x'.toNat y'.toNat w'.toNat h'.toNat ++ colours.map .pixel)

/-- The source buffer defines every colour a blit would send, else `BadOperand` (43_drawing.md R187, 60_exceptions.md R253). -/
def bitmapCheck (s : State) (x y : Int) (p : Nat) (w h : Int) : Bool × Status :=
  ((bitmapItems s x y p w h).isSome, .badOperand)

/-- The walk of `WRPIXS` (42_protocol.md R158); none where a colour is not defined. -/
def streamItems (s : State) (p n : Nat) : Option (List WireItem) :=
  match s.src.gather ((List.range n).map fun k => p + k) with
  | none => none
  | some colours => some (colours.map .pixel)

/-- The source buffer defines every colour of a `WRPIXS`, else `BadOperand` (42_protocol.md R158). -/
def streamCheck (s : State) (p n : Nat) : Bool × Status := ((streamItems s p n).isSome, .badOperand)

/-- The walk of the initialisation sequence: each entry a command byte and its parameter bytes, in order (41_lifecycle.md R130). -/
def initItems (cfg : Cfg) : List WireItem :=
  cfg.initSeq.flatMap fun entry => .command entry.1 :: entry.2.map .data

/-- The whole bracket of `BEGIN`: the initialisation sequence, sleep-out and display-on, each with its delay (41_lifecycle.md R130). -/
def beginItems (cfg : Cfg) : List WireItem :=
  initItems cfg ++ [.command cfg.cmdSlpout, .delay Config.tSlpoutMs, .command cfg.cmdDispon, .delay Config.tDisponMs]

/-- `r mod 4` (44_ancillary.md R220). -/
def rotationOf (r : Byte) : Byte := BitVec.ofNat 8 (r.toNat % 4)

/-- The width of rotation `m` (44_ancillary.md R225). -/
def widthOf (c : Cfg) (m : Byte) : Half := if m.toNat % 2 = 0 then c.w0 else c.h0

/-- The height of rotation `m` (44_ancillary.md R225). -/
def heightOf (c : Cfg) (m : Byte) : Half := if m.toNat % 2 = 0 then c.h0 else c.w0

/-- The surface registers of rotation `m` (44_ancillary.md R220). -/
def State.setSurface (s : State) (m : Byte) : State :=
  { s with rotation := m, width := widthOf s.cfg m, height := heightOf s.cfg m }

/-- The packed colour of three samples (44_ancillary.md R224, 30_encoding.md R83). -/
def packColour (r g b : Byte) : Colour :=
  ((r &&& 0xF8).setWidth 16 <<< 8) ||| ((g &&& 0xFC).setWidth 16 <<< 3) ||| ((b &&& 0xF8).setWidth 16 >>> 3)

end Sys2Proof.Machine
end

