-- ==== Sys2Proof/Machine/Ancillary.lean ====
section
/-! DEFINITION. The ancillary chip operations and the colour packing (spec 44_ancillary.md). The first four are bracketed
operations (R226). -/

namespace Sys2Proof.Machine

/-- `SETROT r` (R220): the registers are written before the command is sent. -/
def execSetRot (r : Byte) (s : State) : Host.Outcome State Fault Refusal :=
  guarded [readyCheck s]
    (fun s => conclude
      (bracketed (runItems [.command s.cfg.cmdMadctl, .data (s.cfg.madctlByte (rotationOf r))]) (s.setSurface (rotationOf r))) 0) s

/-- `INVERT b` (R221). -/
def execInvert (b : Bool) (s : State) : Host.Outcome State Fault Refusal :=
  guarded [readyCheck s]
    (fun s => conclude (bracketed (runItems [.command (if b then s.cfg.cmdInvon else s.cfg.cmdInvoff)]) s) 0) s

/-- `SCROLLTO y` (R222). -/
def execScrollTo (y : Half) (s : State) : Host.Outcome State Fault Refusal :=
  guarded [readyCheck s]
    (fun s => conclude (bracketed (runItems (.command s.cfg.cmdVscrsadd :: halfItems y)) s) 0) s

/-- The four exchanges of a register read (R223): what was raised or the byte read. -/
def readRegister (cmd index : Byte) (s : State) : Except Status Byte × State :=
  match runItems [.command Config.cmdRegreadEnable, .data (Config.regreadBase + index), .command cmd] s with
  | (some e, t) => (.error e, t)
  | (none, t) => xferByte 0x00 t

/-- `READREG cmd, index` (R223): the result is the byte read, zero-extended. -/
def execReadReg (cmd index : Byte) (s : State) : Host.Outcome State Fault Refusal :=
  guarded [readyCheck s]
    (fun s =>
      match readRegister cmd index (startWrite s) with
      | (.ok v, t) => (endWrite t).complete .ok (ofByte v)
      | (.error e, t) => (endWrite t).raise e) s

/-- `COLOR565 r, g, b` (R224): a pure function, admitted in every lifecycle state. -/
def execColor565 (r g b : Byte) (s : State) : Host.Outcome State Fault Refusal :=
  .next (s.complete .ok (packColour r g b))

end Sys2Proof.Machine
end

