-- ==== Sys2Proof/Machine/Drawing.lean ====
section
/-! DEFINITION. The drawing operations (spec 43_drawing.md), unbracketed and bracketed, over the shared walks of
Operands.lean. Coordinates and extents are read as signed 16-bit integers (30_encoding.md R91). -/

namespace Sys2Proof.Machine

/-- The unbracketed rectangle fill on integers (R184). -/
def fillUnbracketed (x y w h : Int) (color : Colour) (s : State) : Host.Outcome State Fault Refusal :=
  guarded [readyCheck s, bracketCheck s, extentCheck w h]
    (fun s => conclude (runItems (rectItems s x y w h color) s) 0) s

/-- The bracketed rectangle fill on integers (R191, wrapper R189). -/
def fillBracketed (x y w h : Int) (color : Colour) (s : State) : Host.Outcome State Fault Refusal :=
  guarded [readyCheck s, extentCheck w h]
    (fun s => conclude (bracketed (runItems (rectItems s x y w h color)) s) 0) s

/-- `WPIXEL x, y, color` (R183). -/
def execWPixel (x y : Half) (color : Colour) (s : State) : Host.Outcome State Fault Refusal :=
  guarded [readyCheck s, bracketCheck s]
    (fun s => conclude (runItems (pixelItems s x.toInt y.toInt color) s) 0) s

/-- `WFILLRECT x, y, w, h, color` (R184). -/
def execWFillRect (x y w h : Half) (color : Colour) (s : State) : Host.Outcome State Fault Refusal :=
  fillUnbracketed x.toInt y.toInt w.toInt h.toInt color s

/-- `WHLINE x, y, len, color` (R185). -/
def execWHLine (x y len : Half) (color : Colour) (s : State) : Host.Outcome State Fault Refusal :=
  fillUnbracketed x.toInt y.toInt len.toInt 1 color s

/-- `WVLINE x, y, len, color` (R186). -/
def execWVLine (x y len : Half) (color : Colour) (s : State) : Host.Outcome State Fault Refusal :=
  fillUnbracketed x.toInt y.toInt 1 len.toInt color s

/-- `WBITMAP x, y, p, w, h` (R187). -/
def execWBitmap (x y : Half) (p : Word32) (w h : Half) (s : State) : Host.Outcome State Fault Refusal :=
  guarded [readyCheck s, bracketCheck s, extentCheck w.toInt h.toInt, bitmapCheck s x.toInt y.toInt p.toNat w.toInt h.toInt]
    (fun s => conclude (runItems ((bitmapItems s x.toInt y.toInt p.toNat w.toInt h.toInt).getD []) s) 0) s

/-- `DRAWPIXEL x, y, color` (R190). -/
def execDrawPixel (x y : Half) (color : Colour) (s : State) : Host.Outcome State Fault Refusal :=
  guarded [readyCheck s]
    (fun s => conclude (bracketed (runItems (pixelItems s x.toInt y.toInt color)) s) 0) s

/-- `FILLRECT x, y, w, h, color` (R191). -/
def execFillRect (x y w h : Half) (color : Colour) (s : State) : Host.Outcome State Fault Refusal :=
  fillBracketed x.toInt y.toInt w.toInt h.toInt color s

/-- `DRAWHLINE x, y, len, color` (R192). -/
def execDrawHLine (x y len : Half) (color : Colour) (s : State) : Host.Outcome State Fault Refusal :=
  fillBracketed x.toInt y.toInt len.toInt 1 color s

/-- `DRAWVLINE x, y, len, color` (R193). -/
def execDrawVLine (x y len : Half) (color : Colour) (s : State) : Host.Outcome State Fault Refusal :=
  fillBracketed x.toInt y.toInt 1 len.toInt color s

/-- `DRAWBITMAP x, y, p, w, h` (R194). -/
def execDrawBitmap (x y : Half) (p : Word32) (w h : Half) (s : State) : Host.Outcome State Fault Refusal :=
  guarded [readyCheck s, extentCheck w.toInt h.toInt, bitmapCheck s x.toInt y.toInt p.toNat w.toInt h.toInt]
    (fun s => conclude (bracketed (runItems ((bitmapItems s x.toInt y.toInt p.toNat w.toInt h.toInt).getD [])) s) 0) s

end Sys2Proof.Machine
end

