-- ==== Sys2Proof/Machine/Lifecycle.lean ====
section
/-! DEFINITION. The lifecycle operations (spec 41_lifecycle.md). -/

namespace Sys2Proof.Machine

/-- The idle levels and the hardware reset pulse of `BEGIN` (R130). -/
def resetPulse (s : State) : State :=
  let s1 := ((s.drive .cs .high).drive .dc .high).drive .reset .high
  let s2 := (s1.wait Config.tSettleMs).drive .reset .low
  let s3 := (s2.wait Config.tResetMs).drive .reset .high
  s3.wait Config.tBootMs

/-- The end of a successful `BEGIN` (R130): the native surface, `Ready`, and the panel initialised (20_memory.md R67). -/
def State.recordReady (s : State) : State :=
  { s with
    width := s.cfg.w0
    height := s.cfg.h0
    rotation := 0
    lifecycle := .ready
    panel := .initialised s.draws
    draws := s.draws + 1 }

/-- `BEGIN` after its open succeeded (R130); a failed exchange closes the transport again (60_exceptions.md R249). -/
def beginOpened (s : State) : State :=
  match bracketed (runItems (beginItems s.cfg)) ((resetPulse s).setWmode false) with
  | (none, t) => t.recordReady.complete .ok 1
  | (some e, t) => (closeSession t).2.raise e

/-- `BEGIN` (R130). -/
def execBegin (s : State) : Host.Outcome State Fault Refusal :=
  guarded [freshCheck s]
    (fun s =>
      match openSession s with
      | (some e, t) => t.raise e
      | (none, t) => beginOpened t) s

/-- `END` (R131). -/
def execEnd (s : State) : Host.Outcome State Fault Refusal :=
  guarded [readyCheck s, noBracketCheck s]
    (fun s =>
      match closeSession s with
      | (some e, t) => t.raise e
      | (none, t) => (t.setLifecycle .closed).complete .ok 0) s

end Sys2Proof.Machine
end

