-- ==== Sys2Proof/Machine/Protocol.lean ====
section
/-! DEFINITION. The transaction bracket and the protocol primitives (spec 42_protocol.md). -/

namespace Sys2Proof.Machine

/-- `STARTWRITE` (R155). -/
def execStartWrite (s : State) : Host.Outcome State Fault Refusal :=
  guarded [readyCheck s] (fun s => (startWrite s).complete .ok 0) s

/-- `ENDWRITE` (R156). -/
def execEndWrite (s : State) : Host.Outcome State Fault Refusal :=
  guarded [readyCheck s, bracketCheck s] (fun s => (endWrite s).complete .ok 0) s

/-- `WRCMD cmd` (R160). -/
def execWrCmd (cmd : Byte) (s : State) : Host.Outcome State Fault Refusal :=
  guarded [readyCheck s, bracketCheck s] (fun s => conclude (runItems [.command cmd] s) 0) s

/-- `SETWIN x, y, w, h` (R161): no test against the surface. -/
def execSetWin (x y w h : Half) (s : State) : Host.Outcome State Fault Refusal :=
  guarded [readyCheck s, bracketCheck s, windowCheck x.toNat y.toNat w.toNat h.toNat]
    (fun s => conclude (runItems (windowItems s.cfg x.toNat y.toNat w.toNat h.toNat) s) 0) s

/-- `WRPIX color` (R157): the bytes are sent whatever `WMODE` holds. -/
def execWrPix (color : Colour) (s : State) : Host.Outcome State Fault Refusal :=
  guarded [readyCheck s, bracketCheck s] (fun s => conclude (runItems [.pixel color] s) 0) s

/-- `WRPIXS p, n` (R158). -/
def execWrPixs (p n : Word32) (s : State) : Host.Outcome State Fault Refusal :=
  guarded [readyCheck s, bracketCheck s, streamCheck s p.toNat n.toNat]
    (fun s => conclude (runItems ((streamItems s p.toNat n.toNat).getD []) s) 0) s

/-- `WRCOLOR color, n` (R159). -/
def execWrColor (color : Colour) (n : Word32) (s : State) : Host.Outcome State Fault Refusal :=
  guarded [readyCheck s, bracketCheck s]
    (fun s => conclude (runItems (List.replicate n.toNat (.pixel color)) s) 0) s

end Sys2Proof.Machine
end

