-- ==== Sys2Proof/Machine/Transport.lean ====
section
/-! DEFINITION. The operations of the transport port (spec 40_transport.md). -/

namespace Sys2Proof.Machine

/-- `T_OPEN` (R111). -/
def execTOpen (s : State) : Host.Outcome State Fault Refusal := .next (conclude (openSession s) 0)

/-- `T_XFER out` (R112): the result is the byte clocked in. -/
def execTXfer (out : Byte) (s : State) : Host.Outcome State Fault Refusal :=
  .next (match xferByte out s with
    | (.ok r, t) => t.complete .ok (ofByte r)
    | (.error e, t) => t.raise e)

/-- `T_BLOCK` (R114): one exchange a byte, the bytes received ignored, stopped by the first failure. The session is
tested before the first byte, so also for an empty block (R243; log 13). -/
def execTBlock (out : List Byte) (s : State) : Host.Outcome State Fault Refusal :=
  guarded [(decide (s.session = .opened), .notReady)]
    (fun s => conclude (runItems (out.map .data) s) 0) s

/-- `T_CLOSE` (R115). -/
def execTClose (s : State) : Host.Outcome State Fault Refusal := .next (conclude (closeSession s) 0)

end Sys2Proof.Machine
end

