-- ==== Sys2Proof/Machine/Dispatch.lean ====
section
/-! DEFINITION. One arm for each row of the opcode table (spec 30_encoding.md R92). -/

namespace Sys2Proof.Machine

def exec (i : Instr) (s : State) : Host.Outcome State Fault Refusal :=
  match i with
  | .beginOp => Sys2Proof.Machine.execBegin s
  | .endOp => Sys2Proof.Machine.execEnd s
  | .startWrite => Sys2Proof.Machine.execStartWrite s
  | .endWrite => Sys2Proof.Machine.execEndWrite s
  | .wrCmd cmd => Sys2Proof.Machine.execWrCmd cmd s
  | .setWin x y w h => Sys2Proof.Machine.execSetWin x y w h s
  | .wrPix color => Sys2Proof.Machine.execWrPix color s
  | .wrPixs p n => Sys2Proof.Machine.execWrPixs p n s
  | .wrColor color n => Sys2Proof.Machine.execWrColor color n s
  | .wPixel x y color => Sys2Proof.Machine.execWPixel x y color s
  | .wFillRect x y w h color => Sys2Proof.Machine.execWFillRect x y w h color s
  | .wHLine x y len color => Sys2Proof.Machine.execWHLine x y len color s
  | .wVLine x y len color => Sys2Proof.Machine.execWVLine x y len color s
  | .wBitmap x y p w h => Sys2Proof.Machine.execWBitmap x y p w h s
  | .drawPixel x y color => Sys2Proof.Machine.execDrawPixel x y color s
  | .fillRect x y w h color => Sys2Proof.Machine.execFillRect x y w h color s
  | .drawHLine x y len color => Sys2Proof.Machine.execDrawHLine x y len color s
  | .drawVLine x y len color => Sys2Proof.Machine.execDrawVLine x y len color s
  | .drawBitmap x y p w h => Sys2Proof.Machine.execDrawBitmap x y p w h s
  | .setRot r => Sys2Proof.Machine.execSetRot r s
  | .invert b => Sys2Proof.Machine.execInvert b s
  | .scrollTo y => Sys2Proof.Machine.execScrollTo y s
  | .readReg cmd index => Sys2Proof.Machine.execReadReg cmd index s
  | .color565 r g b => Sys2Proof.Machine.execColor565 r g b s
  | .tOpen => Sys2Proof.Machine.execTOpen s
  | .tXfer out => Sys2Proof.Machine.execTXfer out s
  | .tBlock out => Sys2Proof.Machine.execTBlock out s
  | .tClose => Sys2Proof.Machine.execTClose s

end Sys2Proof.Machine
end

