-- ==== Sys2Proof/Machine/Step.lean ====
section
/-! DEFINITION. One step of the machine: the block takes the next operation handed to it and carries it out to the end
(spec 10_state.md R25). -/

namespace Sys2Proof.Machine

/-- The next operation is decoded and run. A descriptor that does not decode ends with `IllegalOp` and changes nothing
else (60_exceptions.md R246). With no operation issued the block does nothing (00_scope.md R2; log 7). -/
def step (s : State) : Host.Outcome State Fault Refusal :=
  match fetchRequest s with
  | none => .next s
  | some (.ok i, t) => exec i t
  | some (.error _, t) => .next (t.raise .illegalOp)

/-- The state with the operation of a table word as the next one issued, on the port its opcode belongs to (log 7). -/
def State.withFetchWord (s : State) (nbits w : Nat) : State :=
  s.setRequests (⟨tablePort nbits w, tableBytes nbits w⟩ :: s.requests)

end Sys2Proof.Machine
end

