-- ==== Sys2Proof/Safety.lean ====
section
/-! DEFINITION. The terms claims about the machine are stated in: what the environment answers, what an operation puts on
the wire, what it leaves alone, and the invariants of the whole state (spec 10_state.md R23, R30, R35). -/

namespace Sys2Proof.Machine

/-- The environment answers the next `n` exchanges, and each succeeds: the premise "no transfer fails" of
60_exceptions.md R247 for one operation. -/
abbrev Answers (s : State) (n : Nat) : Prop := n ≤ s.xfers.length ∧ (s.xfers.take n).all Option.isSome = true

/-- The environment answers the next `k` exchanges with success and the one after them with failure (R247). -/
abbrev FailsAt (s : State) (k : Nat) : Prop := Answers s k ∧ s.xfers[k]? = some none

/-- An event without the byte clocked in, which a pure write discards (40_transport.md R112). -/
def Event.sent : Event → Event
  | .xfer out _ => .xfer out 0
  | .sessionOpen conf => .sessionOpen conf
  | .sessionClose => .sessionClose
  | .line l v => .line l v
  | .delay ms => .delay ms
  | .xferFail out => .xferFail out

/-- The wire trace without the bytes clocked in. -/
def State.sent (s : State) : List Event := s.trace.map Event.sent

/-- Bytes sent, one exchange each. -/
def byteEvents (bs : List Byte) : List Event := bs.map fun b => .xfer b 0

/-- A command frame: the command byte with `DC` low, then the parameter bytes (30_encoding.md R80). -/
def frameEvents (c : Byte) (params : List Byte) : List Event :=
  [.line .dc .low, .xfer c 0, .line .dc .high] ++ byteEvents params

/-- The two bytes of a 16-bit value on the wire (20_memory.md R54). -/
def halfBytes (v : Half) : List Byte := [hi8 v, lo8 v]

/-- The three frames of an addressing window from its first and last column and row (30_encoding.md R82, R84). -/
def windowEvents (cfg : Cfg) (x x2 y y2 : Half) : List Event :=
  frameEvents cfg.cmdCaset (halfBytes x ++ halfBytes x2) ++ frameEvents cfg.cmdPaset (halfBytes y ++ halfBytes y2) ++
    frameEvents cfg.cmdRamwr []

/-- A pixel stream (30_encoding.md R83). -/
def pixelEvents (colours : List Colour) : List Event := byteEvents (colours.flatMap halfBytes)

/-- What a bracket adds around the events inside it: `CS` follows the outermost bracket only (10_state.md R29). -/
def bracketEvents (depth : Nat) (inside : List Event) : List Event :=
  if depth = 0 then [.line .cs .low] ++ inside ++ [.line .cs .high] else inside

/-- What goes on the wire when the exchange numbered `k` fails instead of succeeding: the events before it, the failed
exchange, `DC` driven high again where the byte was a command byte, and nothing more (60_exceptions.md R248). -/
def failAt : Nat → List Event → List Event
  | 0, .xfer b _ :: .line .dc .high :: _ => [.xferFail b, .line .dc .high]
  | 0, .xfer b _ :: _ => [.xferFail b]
  | k + 1, .xfer b r :: es => .xfer b r :: failAt k es
  | k, e :: es => e :: failAt k es
  | _, [] => []

/-- The first visible column or row of a span that starts at `a` (43_drawing.md R182: `xa`, `ya`). -/
def spanLo (a : Int) : Int := max a 0

/-- The last visible column or row of a span of `n` that starts at `a` (43_drawing.md R182: `xb`, `yb`). -/
def spanHi (a n bound : Int) : Int := min (a + n - 1) (bound - 1)

/-- The rectangle and the surface share a pixel (43_drawing.md R182, law 1). -/
abbrev Visible (s : State) (x y w h : Int) : Prop :=
  spanLo x ≤ spanHi x w s.width.toNat ∧ spanLo y ≤ spanHi y h s.height.toNat

/-- The number of visible columns or rows of a span. -/
def spanLen (a n bound : Int) : Nat := (spanHi a n bound - spanLo a + 1).toNat

/-- What a drawing request puts on the wire: nothing where no pixel is visible, else the window of the intersection with
the surface and the colours given (43_drawing.md R181, R182). -/
def drawEvents (s : State) (x y w h : Int) (colours : List Colour) : List Event :=
  if Visible s x y w h then
    windowEvents s.cfg (BitVec.ofInt 16 (spanLo x)) (BitVec.ofInt 16 (spanHi x w s.width.toNat))
      (BitVec.ofInt 16 (spanLo y)) (BitVec.ofInt 16 (spanHi y h s.height.toNat)) ++ pixelEvents colours
  else []

/-- The number of visible pixels of a rectangle. -/
def visibleCount (s : State) (x y w h : Int) : Nat :=
  if Visible s x y w h then spanLen x w s.width.toNat * spanLen y h s.height.toNat else 0

/-- The number of exchanges of a drawing request: 11 for the window and 2 a pixel (43_drawing.md R183, R184). -/
def drawExchanges (s : State) (x y w h : Int) : Nat :=
  if Visible s x y w h then 11 + 2 * visibleCount s x y w h else 0

/-- `WMODE` after the walk of a drawing request: set where a window was sent, untouched where the request was dropped. -/
def drawWmode (s : State) (x y w h : Int) : Bool := decide (Visible s x y w h) || s.wmode

/-- The source index of the visible pixel `i` columns and `j` rows into the window of a blit of width `w` (43_drawing.md
R187, R188). -/
def blitIndex (p : Nat) (x y w : Int) (i j : Nat) : Nat :=
  p + ((spanLo y - y).toNat + j) * w.toNat + (spanLo x - x).toNat + i

/-- A colour a blit would send is outside the 32-bit range or not defined (43_drawing.md R187, 20_memory.md R57). -/
abbrev BlitUndefined (s : State) (x y : Int) (p : Nat) (w h : Int) : Prop :=
  Visible s x y w h ∧ ∃ j < spanLen y h s.height.toNat, ∃ i < spanLen x w s.width.toNat,
    2 ^ 32 ≤ blitIndex p x y w i j ∨ s.src.read (blitIndex p x y w i j) = none

/-- The colours a blit sends, row by row (43_drawing.md R187). -/
def blitColours (s : State) (x y : Int) (p : Nat) (w h : Int) : List Colour :=
  (List.range (spanLen y h s.height.toNat)).flatMap fun j =>
    (List.range (spanLen x w s.width.toNat)).map fun i => (s.src.read (blitIndex p x y w i j)).getD 0

/-- The frame of an operation that ends: the registers of the block but for `WMODE` (the lifecycle, the surface, the depth
of the host's brackets, the three latches, the session) and what is no register of it (the configuration, the source buffer,
the opens, the operations issued, the mark) are as before. -/
abbrev Keeps (s t : State) : Prop :=
  t.lifecycle = s.lifecycle ∧ t.width = s.width ∧ t.height = s.height ∧ t.rotation = s.rotation ∧ t.depth = s.depth ∧
  t.resetLine = s.resetLine ∧ t.dcLine = s.dcLine ∧ t.csLine = s.csLine ∧ t.session = s.session ∧ t.cfg = s.cfg ∧
  t.src = s.src ∧ t.opens = s.opens ∧ t.requests = s.requests ∧ t.faultMark = s.faultMark

/-- A descriptor with every field zero (30_encoding.md R90). -/
abbrev zeroFields : Descriptor := { op := 0, a := 0, b := 0, c := 0, d := 0, e := 0, n := 0, p := 0, z := 0 }

/-- The operation is written as this descriptor, with these bytes after it, and on this port that is what they mean
(30_encoding.md R90 to R92). -/
def EncodedAs (i : Instr) (port : Port) (f : Descriptor) (payload : List Byte) : Prop :=
  encode i = f.toBytes ++ payload ∧ decode port (f.toBytes ++ payload) = .ok i

/-- The operation is refused whole: it ends with the status and the value 0, leaves no event and changes nothing
(60_exceptions.md R243 to R246). The model's own mark (R250, log 9) is left out; `FaultMarkIsSticky` speaks of it. -/
def Refuses (i : Instr) (s : State) (e : Status) : Prop :=
  ∃ m, exec i s = .next { s with result := some ⟨e, 0⟩, faultMark := m }

/-- A procedure sends these bytes, one exchange each, and touches no line: it returns where every exchange succeeds, and
raises where one fails, after which no byte goes out (42_protocol.md R151, 60_exceptions.md R248). -/
def SendsBytes (p : Proc) (bs : List Byte) : Prop :=
  ∀ s : State, s.session = .opened →
    (Answers s bs.length →
      ∃ t, p s = (none, t) ∧ t.sent = s.sent ++ byteEvents bs ∧ t.xfers = s.xfers.drop bs.length ∧ t.wmode = s.wmode ∧
        Keeps s t) ∧
    (∀ k < bs.length, FailsAt s k →
      ∃ t, p s = (some .transferFailure, t) ∧
        t.sent = s.sent ++ byteEvents (bs.take k) ++ (bs[k]?.toList.map fun b => .xferFail b) ∧
        t.xfers = s.xfers.drop (k + 1) ∧ t.wmode = false ∧ Keeps s t)

/-- Ready to serve: the lifecycle and the session as they are between a `BEGIN` and an `END` (10_state.md R30). -/
abbrev Serving (s : State) : Prop := s.lifecycle = .ready ∧ s.session = .opened

/-- The surface registers follow the rotation while the block is ready (10_state.md R23). -/
abbrev SurfaceOk (s : State) : Prop :=
  s.lifecycle = .ready → s.rotation.toNat < 4 ∧ s.width = widthOf s.cfg s.rotation ∧ s.height = heightOf s.cfg s.rotation

/-- The session is open exactly when the block is ready, and a closed block has released it (10_state.md R30). -/
abbrev SessionOk (s : State) : Prop :=
  (s.session = .opened ↔ s.lifecycle = .ready) ∧ (s.lifecycle = .closed → s.session = .released)

/-- The control lines: undriven before the first open, then `RESET` and `DC` high and `CS` low exactly inside a bracket
(10_state.md R28, R35). -/
abbrev LinesOk (s : State) : Prop :=
  if s.session = .none then s.resetLine = .undriven ∧ s.dcLine = .undriven ∧ s.csLine = .undriven
  else s.resetLine = .driven .high ∧ s.dcLine = .driven .high ∧
    s.csLine = (if s.depth = 0 then .driven .high else .driven .low)

/-- A stream is in force only inside a bracket, and brackets are open only while ready (10_state.md R35). -/
abbrev BracketOk (s : State) : Prop := (s.wmode = true → 1 ≤ s.depth) ∧ (s.lifecycle ≠ .ready → s.depth = 0)

/-- Both sparse memories are in their canonical form. -/
abbrev MemoriesOk (s : State) : Prop := s.panel.fb.wf = true ∧ s.src.wf = true

/-- The cursor lies in the window. -/
abbrev CursorIn (w : Window) (c : Cursor) : Prop :=
  w.xs.toNat ≤ c.cx.toNat ∧ c.cx.toNat ≤ w.xe.toNat ∧ w.ys.toNat ≤ c.cy.toNat ∧ c.cy.toNat ≤ w.ye.toNat

/-- The panel follows the block (20_memory.md R62 to R67): half a pixel is held only in a stream; `k` bytes of a window
parameter are held in `Col(k)` and `Row(k)`; a stream runs inside a legal window; no frame is open with no bracket; and
`WMODE` says whether the panel takes pixels. -/
abbrev PanelOk (s : State) : Prop :=
  (s.panel.half.isSome = true → s.panel.mode = .write) ∧
  (∀ k, s.panel.mode = .col k ∨ s.panel.mode = .row k → s.panel.acc.length = k.val) ∧
  (s.panel.mode = .write → windowInside s.panel.win s.width s.height = true ∧ CursorIn s.panel.win s.panel.cur ∧ s.wmode = true) ∧
  (s.depth = 0 → s.panel.mode = .idle ∨ s.panel.mode = .unknown) ∧
  (s.wmode = true → s.panel.mode = .write ∨ s.panel.mode = .unknown)

/-- Every operation issued comes from the host: only the sequencer issues operations on the transport port
(30_encoding.md R92). -/
abbrev HostOnly (s : State) : Prop := ∀ r ∈ s.requests, r.port = .host

/-- The block as it is between two operations of a host that has opened it: ready, the session open, the lines as 10_state.md
R35 says, and a surface with at least one pixel, as `Clip` needs (43_drawing.md R181). `Inv` gives it in every ready state. -/
abbrev Between (s : State) : Prop := Serving s ∧ LinesOk s ∧ 1 ≤ s.width.toNat ∧ 1 ≤ s.height.toNat

/-- The operation returned: `OK` and the value, `n` exchanges, these events, this `WMODE`, and nothing else but the panel. -/
abbrev EndsOk (s t : State) (v : Half) (evs : List Event) (n : Nat) (w : Bool) : Prop :=
  t.result = some ⟨.ok, v⟩ ∧ t.sent = s.sent ++ evs ∧ t.xfers = s.xfers.drop n ∧ t.wmode = w ∧ Keeps s t

/-- The operation was ended by the exchange numbered `k`, after these events: `WMODE` is cleared, the panel is unknown, and
nothing else has changed (60_exceptions.md R248, 20_memory.md R67). -/
abbrev EndsFailed (s t : State) (evs : List Event) (k : Nat) : Prop :=
  t.result = some ⟨.transferFailure, 0⟩ ∧ t.sent = s.sent ++ evs ∧ t.xfers = s.xfers.drop (k + 1) ∧ t.wmode = false ∧
  t.panel.mode = .unknown ∧ Keeps s t

/-- What an unbracketed operation does in every state (42_protocol.md R150, 60_exceptions.md R248, R253): refused whole by the
first check that fails, of the lifecycle, the bracket, the operands (`bad`); else it sends `evs` in `n` exchanges and leaves
`w` in `WMODE`; and where an exchange fails it is ended there, with the host's bracket still open. -/
def UnbracketedRule (i : Instr) (bad : State → Prop) (evs : State → List Event) (n : State → Nat) (w : State → Bool) : Prop :=
  ∀ s : State,
    (s.lifecycle ≠ .ready → Refuses i s .notReady) ∧
    (s.lifecycle = .ready → s.depth = 0 → Refuses i s .noBracket) ∧
    (s.lifecycle = .ready → 1 ≤ s.depth → bad s → Refuses i s .badOperand) ∧
    (Between s → 1 ≤ s.depth → ¬ bad s → Answers s (n s) →
      ∃ t, exec i s = .next t ∧ EndsOk s t 0 (evs s) (n s) (w s)) ∧
    (Between s → 1 ≤ s.depth → ¬ bad s → ∀ k < n s, FailsAt s k →
      ∃ t, exec i s = .next t ∧ EndsFailed s t (failAt k (evs s)) k)

/-- What a bracketed operation does in every state (43_drawing.md R189, 60_exceptions.md R248, R253): refused whole by the first
check that fails; else it sends `evs` inside one bracket of its own, which is closed on a failed exchange too. `WMODE` is
`w` after the walk and false after the outermost bracket. `before` is what the operation writes to the surface registers
before it sends anything. -/
def BracketedRule (i : Instr) (bad : State → Prop) (before : State → State) (v : State → Half) (evs : State → List Event)
    (n : State → Nat) (w : State → Bool) : Prop :=
  ∀ s : State,
    (s.lifecycle ≠ .ready → Refuses i s .notReady) ∧
    (s.lifecycle = .ready → bad s → Refuses i s .badOperand) ∧
    (Between s → ¬ bad s → Answers s (n s) →
      ∃ t, exec i s = .next t ∧
        EndsOk (before s) t (v s) (bracketEvents s.depth (evs s)) (n s) (decide (s.depth ≠ 0) && w s)) ∧
    (Between s → ¬ bad s → ∀ k < n s, FailsAt s k →
      ∃ t, exec i s = .next t ∧ EndsFailed (before s) t (bracketEvents s.depth (failAt k (evs s))) k)

/-- The invariant of the whole machine between host operations. -/
structure Inv (s : State) : Prop where
  cfg : s.cfg.wf = true
  surface : SurfaceOk s
  session : SessionOk s
  lines : LinesOk s
  bracket : BracketOk s
  memories : MemoriesOk s
  panel : PanelOk s
  requests : HostOnly s

/-- No precondition violation has been recorded: the premise 60_exceptions.md R250 advises on every claim. -/
abbrev NoFaultRecorded (s : State) : Prop := s.faultMark = false

/-- The state a run that has ended well leaves (70_reset_and_hazards.md R290): closed, no bracket open, the session released,
the three lines high. -/
abbrev AtRest (s : State) : Prop :=
  s.lifecycle = .closed ∧ s.depth = 0 ∧ s.session = .released ∧ s.csLine = .driven .high ∧ s.dcLine = .driven .high ∧
  s.resetLine = .driven .high

/-- A fresh instance (10_state.md R36), with any legal configuration, any source buffer, any answers of the environment to
come, any operations issued to it, and anything in the surface registers, which hold no value. -/
def Fresh (s : State) : Prop :=
  s = { State.reset with
    width := s.width, height := s.height, rotation := s.rotation, cfg := s.cfg, src := s.src, opens := s.opens,
    xfers := s.xfers, draws := s.draws, requests := s.requests } ∧
  s.cfg.wf = true ∧ s.src.wf = true

/-- What a host hands over for an operation (30_encoding.md R90, R92). -/
def hostRequest (i : Instr) : Request := ⟨.host, encode i⟩

/-- `n` steps, one operation each. -/
def steps : Nat → State → Host.Outcome State Fault Refusal
  | 0, s => .next s
  | n + 1, s =>
    match step s with
    | .next t => steps n t
    | .fault f => .fault f
    | .refused r => .refused r

/-- A run (70_reset_and_hazards.md R290): the host operations issued to the fresh instance `s`, one after another; every one
of them has returned, and `t` is what they left. -/
structure Run (s t : State) : Prop where
  fresh : Fresh s
  host : HostOnly s
  returned : steps s.requests.length s = .next t ∧ t.requests = []

/-- A run has ended well (70_reset_and_hazards.md R290): its last operation is an `END`, and that `END` returned `OK`. -/
structure EndedWell (s t : State) : Prop where
  run : Run s t
  last : s.requests.getLast? = some (hostRequest .endOp)
  ok : t.result = some ⟨.ok, 0⟩

/-- What `BEGIN` sends before its bracket (41_lifecycle.md R130). -/
def beginPulse (cfg : Cfg) : List Event :=
  [.sessionOpen cfg.sessionConf, .line .cs .high, .line .dc .high, .line .reset .high, .delay 100,
    .line .reset .low, .delay 100, .line .reset .high, .delay 200]

/-- What `BEGIN` sends inside its bracket (41_lifecycle.md R130). -/
def beginFrames (cfg : Cfg) : List Event :=
  cfg.initSeq.flatMap (fun e => frameEvents e.1 e.2) ++ frameEvents cfg.cmdSlpout [] ++ [.delay 120] ++
    frameEvents cfg.cmdDispon [] ++ [.delay 120]

/-- The number of exchanges of `BEGIN`. -/
def beginExchanges (cfg : Cfg) : Nat := (cfg.initSeq.map fun e => 1 + e.2.length).sum + 2

/-- Which status each operation can end with (the table of R262, `IllegalOp` being decode's alone). -/
def statusAllowed : Instr → Status → Bool
  | .beginOp, e => e ∈ [.ok, .notReady, .deviceUnavailable, .transferFailure]
  | .endOp, e => e ∈ [.ok, .notReady, .bracketOpen]
  | .startWrite, e => e ∈ [.ok, .notReady]
  | .endWrite, e => e ∈ [.ok, .notReady, .noBracket]
  | .wrCmd _, e => e ∈ [.ok, .notReady, .noBracket, .transferFailure]
  | .setWin _ _ _ _, e => e ∈ [.ok, .notReady, .noBracket, .badOperand, .transferFailure]
  | .wrPix _, e => e ∈ [.ok, .notReady, .noBracket, .transferFailure]
  | .wrPixs _ _, e => e ∈ [.ok, .notReady, .noBracket, .badOperand, .transferFailure]
  | .wrColor _ _, e => e ∈ [.ok, .notReady, .noBracket, .transferFailure]
  | .wPixel _ _ _, e => e ∈ [.ok, .notReady, .noBracket, .transferFailure]
  | .wFillRect _ _ _ _ _, e => e ∈ [.ok, .notReady, .noBracket, .badOperand, .transferFailure]
  | .wHLine _ _ _ _, e => e ∈ [.ok, .notReady, .noBracket, .badOperand, .transferFailure]
  | .wVLine _ _ _ _, e => e ∈ [.ok, .notReady, .noBracket, .badOperand, .transferFailure]
  | .wBitmap _ _ _ _ _, e => e ∈ [.ok, .notReady, .noBracket, .badOperand, .transferFailure]
  | .drawPixel _ _ _, e => e ∈ [.ok, .notReady, .transferFailure]
  | .fillRect _ _ _ _ _, e => e ∈ [.ok, .notReady, .badOperand, .transferFailure]
  | .drawHLine _ _ _ _, e => e ∈ [.ok, .notReady, .badOperand, .transferFailure]
  | .drawVLine _ _ _ _, e => e ∈ [.ok, .notReady, .badOperand, .transferFailure]
  | .drawBitmap _ _ _ _ _, e => e ∈ [.ok, .notReady, .badOperand, .transferFailure]
  | .setRot _, e => e ∈ [.ok, .notReady, .transferFailure]
  | .invert _, e => e ∈ [.ok, .notReady, .transferFailure]
  | .scrollTo _, e => e ∈ [.ok, .notReady, .transferFailure]
  | .readReg _ _, e => e ∈ [.ok, .notReady, .transferFailure]
  | .color565 _ _ _, e => e ∈ [.ok]
  | .tOpen, e => e ∈ [.ok, .notReady, .deviceUnavailable]
  | .tXfer _, e => e ∈ [.ok, .notReady, .transferFailure]
  | .tBlock _, e => e ∈ [.ok, .notReady, .transferFailure]
  | .tClose, e => e ∈ [.ok, .notReady]

/-- The framing of the wire as a machine that reads events: `cs` and `dc` are the levels so far, `sent` says whether the one
byte of a command has gone out since `DC` went low (30_encoding.md R80). -/
def framed : (cs dc : Level) → (sent : Bool) → List Event → Bool
  | _, .high, _, [] => true
  | _, .low, _, [] => false
  | _, dc, sent, .line .cs v :: es => dc == .high && framed v dc sent es
  | cs, .high, _, .line .dc .low :: es => framed cs .low false es
  | cs, .low, sent, .line .dc .high :: es => sent && framed cs .high false es
  | cs, .high, sent, .line .dc .high :: es => framed cs .high sent es
  | _, .low, _, .line .dc .low :: _ => false
  | cs, .low, sent, .xfer _ _ :: es => cs == .low && !sent && framed cs .low true es
  | cs, .high, sent, .xfer _ _ :: es => cs == .low && framed cs .high sent es
  | cs, .low, sent, .xferFail _ :: es => cs == .low && !sent && framed cs .low true es
  | cs, .high, sent, .xferFail _ :: es => cs == .low && framed cs .high sent es
  | cs, dc, sent, .line .reset _ :: es => dc == .high && framed cs dc sent es
  | cs, dc, sent, .delay _ :: es => dc == .high && framed cs dc sent es
  | cs, dc, sent, .sessionOpen _ :: es => dc == .high && framed cs dc sent es
  | cs, dc, sent, .sessionClose :: es => dc == .high && framed cs dc sent es

/-- The panel takes pixels: the state of the panel between operations when no frame is cut short. -/
abbrev PanelListens (s : State) : Prop := s.panel.mode ≠ .unknown ∧ s.panel.cutShort = false

/-- A stream is in force at the panel (20_memory.md R65): it takes pixels, holds no half of one, and its cursor is in its
window, which lies inside the surface. -/
abbrev InStream (s : State) : Prop :=
  s.wmode = true ∧ s.panel.mode = .write ∧ s.panel.half = none ∧ windowInside s.panel.win s.width s.height = true ∧
  CursorIn s.panel.win s.panel.cur

/-- The colours a pixel stream operation sends, in order (42_protocol.md R157 to R159). -/
def Streams (s : State) (i : Instr) (cs : List Colour) : Prop :=
  (∃ c, i = .wrPix c ∧ cs = [c]) ∨ (∃ c n, i = .wrColor c n ∧ cs = List.replicate n.toNat c) ∨
  (∃ p n : Word32, i = .wrPixs p n ∧ cs.length = n.toNat ∧
    ∀ k < n.toNat, p.toNat + k < 2 ^ 32 ∧ s.src.read (p.toNat + k) = cs[k]?)

/-- Where the pixel numbered `k` from the cursor on lands (20_memory.md R65): row by row through the window, and from its
last cell back to its first. -/
def cellAhead (w : Window) (c : Cursor) (k : Nat) : Cursor :=
  let cols := w.xe.toNat - w.xs.toNat + 1
  let rows := w.ye.toNat - w.ys.toNat + 1
  let m := (c.cy.toNat - w.ys.toNat) * cols + (c.cx.toNat - w.xs.toNat) + k
  ⟨BitVec.ofNat 16 (w.xs.toNat + m % cols), BitVec.ofNat 16 (w.ys.toNat + m / cols % rows)⟩

/-- The colour in a cell of the panel's frame memory. -/
def pixelAt (s : State) (c : Cursor) : Option Colour := s.panel.fb.read (fbIndex c.cx c.cy)

/-- The cell `(col, row)` lies in the rectangle and on the surface. -/
abbrev InRect (s : State) (x y w h : Int) (col row : Half) : Prop :=
  x ≤ col.toNat ∧ (col.toNat : Int) < x + w ∧ col.toNat < s.width.toNat ∧
  y ≤ row.toNat ∧ (row.toNat : Int) < y + h ∧ row.toNat < s.height.toNat

end Sys2Proof.Machine
end

