-- ==== Sys2Proof/Certificates/Slice0/Obligations.lean ====
section
/-! DEFINITION. The statements for the provers, from the numbered rules of the spec. -/

open Sys2Proof Sys2Proof.Machine

/-! ## Encoding -/

/-- Words written out from R90 to R92 decode to the operations they stand for (95_test_vectors.md V137 to V139, V24, V59,
V70 to V76, V144). -/
def Obligations.SampleWordsDecode : Prop :=
  decode .host [0x41, 0xFF, 0xFB, 0xFF, 0xFB, 0x00, 0x0A, 0x00, 0x0A, 0xF8, 0x00, 0, 0, 0, 0, 0, 0, 0, 0, 0] =
    .ok (.fillRect (-5) (-5) 10 10 0xF800) ∧
  decode .host [0x21, 0xFF, 0xFB, 0x00, 0x00, 0x00, 0x01, 0x00, 0x01, 0, 0, 0, 0, 0, 0, 0, 0, 0, 0, 0] =
    .ok (.setWin 65531 0 1 1) ∧
  decode .host [0x34, 0x00, 0x01, 0x00, 0x02, 0x00, 0x04, 0x00, 0x03, 0, 0, 0, 0, 0, 0, 0x00, 0x00, 0x00, 0x10, 0] =
    .ok (.wBitmap 1 2 16 4 3) ∧
  decode .host [0x24, 0, 0, 0, 0, 0, 0, 0, 0, 0x07, 0xE0, 0x00, 0x00, 0x00, 0x03, 0, 0, 0, 0, 0] = .ok (.wrColor 0x07E0 3) ∧
  decode .host [0x50, 0x00, 0xFF, 0, 0, 0, 0, 0, 0, 0, 0, 0, 0, 0, 0, 0, 0, 0, 0, 0] = .ok (.setRot 255) ∧
  decode .transport [0x62, 0, 0, 0, 0, 0, 0, 0, 0, 0, 0, 0x00, 0x00, 0x00, 0x04, 0, 0, 0, 0, 0, 0x00, 0x0A, 0x00, 0x13] =
    .ok (.tBlock [0x00, 0x0A, 0x00, 0x13])

/-- The bit positions of R90: packing the fields of a descriptor into its 160 bits and reading them back loses nothing,
in both directions. -/
def Obligations.DescriptorFieldsFillTheBits : Prop :=
  (∀ f : Descriptor, Descriptor.ofBits f.toBits = f) ∧ (∀ v : DescBits, (Descriptor.ofBits v).toBits = v)

/-- Decoding the encoding of a well-formed operation gives it back, with every operand at every value its field admits. -/
def Obligations.DecodeInvertsEncode : Prop :=
  ∀ i : Instr, i.wf = true → decode i.opcode.port (encode i) = .ok i

/-- The other direction: bytes that decode are the encoding of a well-formed operation of that port, so every operation has
one encoding. -/
def Obligations.EncodeInvertsDecode : Prop :=
  ∀ (port : Port) (bytes : List Byte) (i : Instr), decode port bytes = .ok i →
    encode i = bytes ∧ i.wf = true ∧ i.opcode.port = port

/-- A descriptor decodes to an opcode of the table exactly when the table's row for it covers the descriptor's bits, and at
most one row covers any descriptor (R94, opcode_table.json). -/
def Obligations.DecodeFollowsTheOpcodeTable : Prop :=
  (∀ (port : Port) (f : Descriptor) (o : Opcode) (payload : List Byte), payload.length = o.payloadLength f →
    ((∃ i : Instr, i.opcode = o ∧ decode port (f.toBytes ++ payload) = .ok i) ↔
      o.port = port ∧ ∃ r ∈ opcodeTable, r.opcode = o ∧ r.covers f.toBits = true)) ∧
  (∀ (v : DescBits) (r q : Row), r ∈ opcodeTable → q ∈ opcodeTable → r.covers v = true → q.covers v = true → r = q)

/-! ## A step -/

/-- When the bytes of the next request decode, a step is `exec` of that operation in the state without the request; with no
request the block does nothing (the last part is the model's choice, log 7). -/
def Obligations.StepRunsTheDecodedOperation : Prop :=
  (∀ (s : State) (r : Request) (rest : List Request) (i : Instr), s.requests = r :: rest → decode r.port r.bytes = .ok i →
    step s = exec i { s with requests := rest }) ∧
  (∀ s : State, s.requests = [] → step s = .next s)

/-- A descriptor that does not decode ends with `IllegalOp` in every lifecycle state: no event, no state change
(R246, R94). For a request of another length, which the spec does not know (`badLength`), that is the model's choice
(log 7). -/
def Obligations.IllegalDescriptorEndsWithIllegalOp : Prop :=
  ∀ (s : State) (r : Request) (rest : List Request) (err : DecodeError), s.requests = r :: rest →
    decode r.port r.bytes = .error err →
    (∃ m, step s = .next { s with requests := rest, result := some ⟨.illegalOp, 0⟩, faultMark := m }) ∧
    Status.illegalOp.code = 0x07

/-- Every operation ends in exactly one way, with a result: no operation stops the machine (R240, R254). -/
def Obligations.EveryOperationEndsWithAResult : Prop :=
  ∀ (i : Instr) (s : State), ∃ t, exec i s = .next t ∧ t.result.isSome = true

/-! ## Lifecycle -/

/-- `BEGIN` (R130, R241, R249): refused unless uninitialized; a failed open changes nothing; with the open answered yes and no
failed exchange it sends the reset pulse, the initialisation sequence, sleep-out and display-on and leaves the native
surface and `Ready`; a failed exchange closes the bracket and the transport and leaves it uninitialized. -/
def Obligations.BeginFollowsItsRule : Prop :=
  EncodedAs .beginOp .host { zeroFields with op := 0x01 } [] ∧
  ∀ s : State,
    (s.lifecycle ≠ .uninitialized → Refuses .beginOp s .notReady) ∧
    (∀ os, s.lifecycle = .uninitialized → s.session ≠ .opened → s.opens = false :: os →
      exec .beginOp s = .next { s with opens := os, result := some ⟨.deviceUnavailable, 0⟩ }) ∧
    (∀ os, s.lifecycle = .uninitialized → s.session ≠ .opened → s.depth = 0 → s.opens = true :: os →
      Answers s (beginExchanges s.cfg) →
      ∃ t, exec .beginOp s = .next t ∧ t.result = some ⟨.ok, 1⟩ ∧
        t.sent = s.sent ++ beginPulse s.cfg ++ [.line .cs .low] ++ beginFrames s.cfg ++ [.line .cs .high] ∧
        t.lifecycle = .ready ∧ t.width = s.cfg.w0 ∧ t.height = s.cfg.h0 ∧ t.rotation = 0 ∧ t.depth = 0 ∧
        t.session = .opened ∧ t.wmode = false ∧
        t.resetLine = .driven .high ∧ t.dcLine = .driven .high ∧ t.csLine = .driven .high ∧
        t.xfers = s.xfers.drop (beginExchanges s.cfg) ∧ t.opens = os ∧ t.cfg = s.cfg ∧ t.src = s.src ∧
        t.requests = s.requests ∧ t.faultMark = s.faultMark) ∧
    (∀ os, s.lifecycle = .uninitialized → s.session ≠ .opened → s.depth = 0 → s.opens = true :: os →
      ∀ k < beginExchanges s.cfg, FailsAt s k →
      ∃ t, exec .beginOp s = .next t ∧ t.result = some ⟨.transferFailure, 0⟩ ∧
        t.sent = s.sent ++ beginPulse s.cfg ++ [.line .cs .low] ++ failAt k (beginFrames s.cfg) ++
          [.line .cs .high, .sessionClose] ∧
        t.lifecycle = .uninitialized ∧ t.width = s.width ∧ t.height = s.height ∧ t.rotation = s.rotation ∧ t.depth = 0 ∧
        t.session = .released ∧ t.wmode = false ∧
        t.resetLine = .driven .high ∧ t.dcLine = .driven .high ∧ t.csLine = .driven .high ∧
        t.xfers = s.xfers.drop (k + 1) ∧ t.opens = os ∧ t.cfg = s.cfg ∧ t.src = s.src ∧
        t.requests = s.requests ∧ t.faultMark = s.faultMark)

/-- The panel after a `BEGIN` (R67): one that returned leaves it idle with its frame memory nowhere defined, one that a failed
exchange ended leaves it unknown, whatever state it started from and whatever else the environment answered. -/
def Obligations.BeginLeavesThePanelAsSaid : Prop :=
  ∀ (s t : State) (r : Result), exec .beginOp s = .next t → t.result = some r →
    (r.status = .ok → t.panel.mode = .idle ∧ t.panel.fb = []) ∧ (r.status = .transferFailure → t.panel.mode = .unknown)

/-- `END` (R131): refused unless ready and outside every bracket; then it releases the transport, closes the block, sends
nothing to the panel and touches no line and no surface register. -/
def Obligations.EndFollowsItsRule : Prop :=
  EncodedAs .endOp .host { zeroFields with op := 0x02 } [] ∧
  ∀ s : State,
    (s.lifecycle ≠ .ready → Refuses .endOp s .notReady) ∧
    (s.lifecycle = .ready → s.depth ≠ 0 → Refuses .endOp s .bracketOpen) ∧
    (Serving s → s.depth = 0 →
      ∃ d, exec .endOp s = .next { s with
        lifecycle := .closed, session := .released, trace := s.trace ++ [.sessionClose], draws := d,
        result := some ⟨.ok, 0⟩ })

/-- The end of a run (R290). A run whose last operation is an `END` that returned `OK` has left the block closed, the session
released, no bracket open and the three lines high; every `END` that the invariant admits returns `OK` and does that; and a
fresh instance whose open and exchanges succeed ends well after `BEGIN` and `END`. -/
def Obligations.EndFromTheInvariantEndsWell : Prop :=
  (∀ s t : State, EndedWell s t → AtRest t) ∧
  (∀ s : State, Inv s → s.lifecycle = .ready → s.depth = 0 →
    ∃ t, exec .endOp s = .next t ∧ AtRest t ∧ t.result = some ⟨.ok, 0⟩) ∧
  (∀ (s : State) (os : List Bool), Fresh s → s.requests = [.beginOp, .endOp].map hostRequest → s.opens = true :: os →
    Answers s (beginExchanges s.cfg) → ∃ t, EndedWell s t)

/-- The lifecycle table (R132, R27): whatever operation the host issues, `BEGIN` alone leads from uninitialized, only to
`Ready` and only when it returned `OK`; `END` alone leads from `Ready`, only to `Closed` and only when it returned `OK`;
nothing leads out of `Closed`. -/
def Obligations.LifecycleMovesOnlyByBeginAndEnd : Prop :=
  ∀ (i : Instr) (s t : State), exec i s = .next t → t.lifecycle ≠ s.lifecycle →
    t.result.map (fun r => r.status) = some .ok ∧
    ((i = .beginOp ∧ s.lifecycle = .uninitialized ∧ t.lifecycle = .ready) ∨
     (i = .endOp ∧ s.lifecycle = .ready ∧ t.lifecycle = .closed))

/-! ## Bracket and protocol primitives -/

/-- `STARTWRITE` (R155, R153): it counts a bracket, and drives `CS` low exactly when that is the outermost. -/
def Obligations.StartWriteFollowsItsRule : Prop :=
  EncodedAs .startWrite .host { zeroFields with op := 0x10 } [] ∧
  ∀ s : State,
    (s.lifecycle ≠ .ready → Refuses .startWrite s .notReady) ∧
    (s.lifecycle = .ready → 1 ≤ s.depth →
      exec .startWrite s = .next { s with depth := s.depth + 1, result := some ⟨.ok, 0⟩ }) ∧
    (s.lifecycle = .ready → s.depth = 0 →
      ∃ d, exec .startWrite s = .next { s with
        depth := 1, csLine := .driven .low, trace := s.trace ++ [.line .cs .low], draws := d,
        result := some ⟨.ok, 0⟩ })

/-- `ENDWRITE` (R156, R154): it counts a bracket down, and drives `CS` high and ends the stream exactly when that was the
outermost; the panel takes that as the end of its frame (R67). -/
def Obligations.EndWriteFollowsItsRule : Prop :=
  EncodedAs .endWrite .host { zeroFields with op := 0x11 } [] ∧
  ∀ s : State,
    (s.lifecycle ≠ .ready → Refuses .endWrite s .notReady) ∧
    (s.lifecycle = .ready → s.depth = 0 → Refuses .endWrite s .noBracket) ∧
    (s.lifecycle = .ready → 2 ≤ s.depth →
      exec .endWrite s = .next { s with depth := s.depth - 1, result := some ⟨.ok, 0⟩ }) ∧
    (s.lifecycle = .ready → s.depth = 1 →
      ∃ d p, exec .endWrite s = .next { s with
        depth := 0, csLine := .driven .high, wmode := false, trace := s.trace ++ [.line .cs .high],
        panel := p, draws := d, result := some ⟨.ok, 0⟩ } ∧
      (s.panel.mode = .unknown ∨ s.panel.cutShort = true → p.mode = .unknown) ∧
      (s.panel.mode ≠ .unknown → s.panel.cutShort = false → p = { s.panel with mode := .idle }))

/-- `WRCMD cmd` (R160, R152): any byte, as one command byte with `DC` low around it alone. -/
def Obligations.WrcmdFollowsItsRule : Prop :=
  ∀ cmd : Byte, EncodedAs (.wrCmd cmd) .host { zeroFields with op := 0x20, a := cmd.setWidth 16 } [] ∧
    UnbracketedRule (.wrCmd cmd) (fun _ => False) (fun _ => frameEvents cmd []) (fun _ => 1)
    (fun s => decide (cmd = s.cfg.cmdRamwr))

/-- `SETWIN x, y, w, h` (R161, R162): three frames with the first and last column and row, and no test against the surface. -/
def Obligations.SetwinFollowsItsRule : Prop :=
  ∀ x y w h : Half, EncodedAs (.setWin x y w h) .host { zeroFields with op := 0x21, a := x, b := y, c := w, d := h } [] ∧
    UnbracketedRule (.setWin x y w h)
    (fun _ => ¬ (1 ≤ w.toNat ∧ 1 ≤ h.toNat ∧ x.toNat + w.toNat - 1 ≤ 65535 ∧ y.toNat + h.toNat - 1 ≤ 65535))
    (fun s => windowEvents s.cfg x (x + w - 1) y (y + h - 1)) (fun _ => 11) (fun _ => true)

/-- `WRPIX color` (R157) and `WRCOLOR color, n` (R159), the pixel data of R163: two bytes a pixel, high first, whatever `WMODE`
holds, and `WMODE` left as it is. -/
def Obligations.WrpixAndWrcolorFollowTheirRules : Prop :=
  (∀ color : Colour, EncodedAs (.wrPix color) .host { zeroFields with op := 0x22, e := color } [] ∧
    UnbracketedRule (.wrPix color) (fun _ => False) (fun _ => pixelEvents [color]) (fun _ => 2) (fun s => s.wmode)) ∧
  (∀ (color : Colour) (n : Word32), EncodedAs (.wrColor color n) .host { zeroFields with op := 0x24, e := color, n := n } [] ∧
    UnbracketedRule (.wrColor color n) (fun _ => False) (fun _ => pixelEvents (List.replicate n.toNat color))
      (fun _ => 2 * n.toNat) (fun s => s.wmode))

/-- `WRPIXS p, n` (R158): refused whole where a colour is out of range or not defined, else the colours in index order. -/
def Obligations.WrpixsFollowsItsRule : Prop :=
  ∀ p n : Word32, EncodedAs (.wrPixs p n) .host { zeroFields with op := 0x23, n := n, p := p } [] ∧
    UnbracketedRule (.wrPixs p n)
      (fun s => ∃ k < n.toNat, 2 ^ 32 ≤ p.toNat + k ∨ s.src.read (p.toNat + k) = none)
      (fun s => pixelEvents ((List.range n.toNat).map fun k => (s.src.read (p.toNat + k)).getD 0))
      (fun _ => 2 * n.toNat) (fun s => s.wmode)

/-- `WRPIX` and `WRCOLOR` are streams of one colour (R163, R96): `WRPIX` does exactly what `WRCOLOR` of one pixel does, and
`WRCOLOR` what `WRPIXS` does of a buffer that holds the colour at every index it reads, in every state and with every
answer of the environment. -/
def Obligations.StreamsOfOneColourAgree : Prop :=
  (∀ (c : Colour) (s : State), exec (.wrPix c) s = exec (.wrColor c 1) s) ∧
  (∀ (c : Colour) (p n : Word32) (s : State),
    (∀ k < n.toNat, p.toNat + k < 2 ^ 32 ∧ s.src.read (p.toNat + k) = some c) →
    exec (.wrColor c n) s = exec (.wrPixs p n) s)

/-- The data procedures (R151): one byte, two bytes and four bytes, highest first, with no line change, stopped by the
first exchange that fails. -/
def Obligations.DataProceduresSendHighBytesFirst : Prop :=
  (∀ b : Byte, SendsBytes (data8 b) [b]) ∧
  (∀ v : Half, SendsBytes (data16 v) [v.extractLsb' 8 8, v.extractLsb' 0 8]) ∧
  (∀ v : Word32, SendsBytes (data32 v)
    [v.extractLsb' 24 8, v.extractLsb' 16 8, v.extractLsb' 8 8, v.extractLsb' 0 8])

/-! ## The clipper -/

/-- The six laws of `Clip` (R182), for every bound of at least 1 that a 16-bit register holds and every origin and extent of at
least 1; and for operands of signed 16 bits the values on the way stay in the range the rule gives. -/
def Obligations.ClipMeetsItsSixLaws : Prop :=
  ∀ W H x y w h : Int, 1 ≤ W → W ≤ 65535 → 1 ≤ H → H ≤ 65535 → 1 ≤ w → 1 ≤ h →
    ((clip W H x y w h = .dropped ↔ spanHi x w W < spanLo x ∨ spanHi y h H < spanLo y) ∧
    (clip W H x y w h ≠ .dropped →
      clip W H x y w h = .window (spanLo x) (spanLo y) (spanHi x w W - spanLo x + 1) (spanHi y h H - spanLo y + 1)
        (spanLo x - x) (spanLo y - y)) ∧
    (∀ x' y' w' h' dx dy, clip W H x y w h = .window x' y' w' h' dx dy →
      (1 ≤ w' ∧ w' ≤ min w W ∧ 1 ≤ h' ∧ h' ≤ min h H ∧ 0 ≤ x' ∧ x' + w' - 1 ≤ W - 1 ∧ W - 1 ≤ 65534 ∧
        0 ≤ y' ∧ y' + h' - 1 ≤ H - 1 ∧ H - 1 ≤ 65534) ∧
      (w' * h' ≤ 65535 * 65535 ∧ w' * h' < 2 ^ 32) ∧
      (x < 0 → W ≤ x + w - 1 → x' = 0 ∧ w' = W) ∧ (y < 0 → H ≤ y + h - 1 → y' = 0 ∧ h' = H) ∧
      clip W H x' y' w' h' = .window x' y' w' h' 0 0) ∧
    (-32768 ≤ x → x ≤ 32767 → w ≤ 32767 → -32768 ≤ y → y ≤ 32767 → h ≤ 32767 →
      ∀ v ∈ [x + w - 1, y + h - 1, spanLo x - x, spanLo y - y, w - (spanLo x - x), h - (spanLo y - y), W - spanLo x,
        H - spanLo y], -65537 ≤ v ∧ v ≤ 65535))

/-! ## Drawing -/

/-- `WPIXEL x, y, color` (R183). -/
def Obligations.WpixelFollowsItsRule : Prop :=
  ∀ (x y : Half) (color : Colour),
    EncodedAs (.wPixel x y color) .host { zeroFields with op := 0x30, a := x, b := y, e := color } [] ∧
    UnbracketedRule (.wPixel x y color) (fun _ => False)
    (fun s => drawEvents s x.toInt y.toInt 1 1 [color]) (fun s => drawExchanges s x.toInt y.toInt 1 1)
    (fun s => drawWmode s x.toInt y.toInt 1 1)

/-- `WFILLRECT x, y, w, h, color`, `WHLINE x, y, len, color` and `WVLINE x, y, len, color` (R184 to R186, R195): the window
of the intersection with the surface and a pixel of the colour for each of its cells; nothing where they share none. -/
def Obligations.UnbracketedFillsFollowTheirRules : Prop :=
  (∀ (x y w h : Half) (color : Colour),
    EncodedAs (.wFillRect x y w h color) .host { zeroFields with op := 0x31, a := x, b := y, c := w, d := h, e := color } [] ∧
    UnbracketedRule (.wFillRect x y w h color)
    (fun _ => w.toInt < 1 ∨ h.toInt < 1)
    (fun s => drawEvents s x.toInt y.toInt w.toInt h.toInt
      (List.replicate (visibleCount s x.toInt y.toInt w.toInt h.toInt) color))
    (fun s => drawExchanges s x.toInt y.toInt w.toInt h.toInt) (fun s => drawWmode s x.toInt y.toInt w.toInt h.toInt)) ∧
  (∀ (x y len : Half) (color : Colour),
    EncodedAs (.wHLine x y len color) .host { zeroFields with op := 0x32, a := x, b := y, c := len, e := color } [] ∧
    UnbracketedRule (.wHLine x y len color) (fun _ => len.toInt < 1)
    (fun s => drawEvents s x.toInt y.toInt len.toInt 1
      (List.replicate (visibleCount s x.toInt y.toInt len.toInt 1) color))
    (fun s => drawExchanges s x.toInt y.toInt len.toInt 1) (fun s => drawWmode s x.toInt y.toInt len.toInt 1)) ∧
  (∀ (x y len : Half) (color : Colour),
    EncodedAs (.wVLine x y len color) .host { zeroFields with op := 0x33, a := x, b := y, c := len, e := color } [] ∧
    UnbracketedRule (.wVLine x y len color) (fun _ => len.toInt < 1)
    (fun s => drawEvents s x.toInt y.toInt 1 len.toInt
      (List.replicate (visibleCount s x.toInt y.toInt 1 len.toInt) color))
    (fun s => drawExchanges s x.toInt y.toInt 1 len.toInt) (fun s => drawWmode s x.toInt y.toInt 1 len.toInt))

/-- Pixels and lines are degenerate rectangles (R185, R186, R192, R193; the pixel by R183: "the test is `Clip(x, y, 1, 1)`
written out"): each operation does exactly what the fill of the same rectangle does, in every state. -/
def Obligations.PixelsAndLinesAreDegenerateFills : Prop :=
  ∀ (x y len : Half) (c : Colour) (s : State),
    exec (.wHLine x y len c) s = exec (.wFillRect x y len 1 c) s ∧
    exec (.wVLine x y len c) s = exec (.wFillRect x y 1 len c) s ∧
    exec (.drawHLine x y len c) s = exec (.fillRect x y len 1 c) s ∧
    exec (.drawVLine x y len c) s = exec (.fillRect x y 1 len c) s ∧
    exec (.wPixel x y c) s = exec (.wFillRect x y 1 1 c) s ∧
    exec (.drawPixel x y c) s = exec (.fillRect x y 1 1 c) s

/-- `WBITMAP x, y, p, w, h` (R187, R195): refused whole where a colour that would be sent is not defined; pixels outside the
surface are not read. -/
def Obligations.WbitmapFollowsItsRule : Prop :=
  ∀ (x y : Half) (p : Word32) (w h : Half),
    EncodedAs (.wBitmap x y p w h) .host { zeroFields with op := 0x34, a := x, b := y, c := w, d := h, p := p } [] ∧
    UnbracketedRule (.wBitmap x y p w h)
    (fun s => w.toInt < 1 ∨ h.toInt < 1 ∨ BlitUndefined s x.toInt y.toInt p.toNat w.toInt h.toInt)
    (fun s => drawEvents s x.toInt y.toInt w.toInt h.toInt (blitColours s x.toInt y.toInt p.toNat w.toInt h.toInt))
    (fun s => drawExchanges s x.toInt y.toInt w.toInt h.toInt) (fun s => drawWmode s x.toInt y.toInt w.toInt h.toInt)

/-- `DRAWPIXEL x, y, color` (R190, R189): the pixel write inside one bracket of its own, opened for a dropped pixel too. -/
def Obligations.DrawpixelFollowsItsRule : Prop :=
  ∀ (x y : Half) (color : Colour),
    EncodedAs (.drawPixel x y color) .host { zeroFields with op := 0x40, a := x, b := y, e := color } [] ∧
    BracketedRule (.drawPixel x y color) (fun _ => False) id (fun _ => 0)
    (fun s => drawEvents s x.toInt y.toInt 1 1 [color]) (fun s => drawExchanges s x.toInt y.toInt 1 1)
    (fun s => drawWmode s x.toInt y.toInt 1 1)

/-- `FILLRECT`, `DRAWHLINE` and `DRAWVLINE` (R191 to R193, R189, R195). -/
def Obligations.BracketedFillsFollowTheirRules : Prop :=
  (∀ (x y w h : Half) (color : Colour),
    EncodedAs (.fillRect x y w h color) .host { zeroFields with op := 0x41, a := x, b := y, c := w, d := h, e := color } [] ∧
    BracketedRule (.fillRect x y w h color)
    (fun _ => w.toInt < 1 ∨ h.toInt < 1) id (fun _ => 0)
    (fun s => drawEvents s x.toInt y.toInt w.toInt h.toInt
      (List.replicate (visibleCount s x.toInt y.toInt w.toInt h.toInt) color))
    (fun s => drawExchanges s x.toInt y.toInt w.toInt h.toInt) (fun s => drawWmode s x.toInt y.toInt w.toInt h.toInt)) ∧
  (∀ (x y len : Half) (color : Colour),
    EncodedAs (.drawHLine x y len color) .host { zeroFields with op := 0x42, a := x, b := y, c := len, e := color } [] ∧
    BracketedRule (.drawHLine x y len color) (fun _ => len.toInt < 1) id (fun _ => 0)
    (fun s => drawEvents s x.toInt y.toInt len.toInt 1
      (List.replicate (visibleCount s x.toInt y.toInt len.toInt 1) color))
    (fun s => drawExchanges s x.toInt y.toInt len.toInt 1) (fun s => drawWmode s x.toInt y.toInt len.toInt 1)) ∧
  (∀ (x y len : Half) (color : Colour),
    EncodedAs (.drawVLine x y len color) .host { zeroFields with op := 0x43, a := x, b := y, c := len, e := color } [] ∧
    BracketedRule (.drawVLine x y len color) (fun _ => len.toInt < 1) id (fun _ => 0)
    (fun s => drawEvents s x.toInt y.toInt 1 len.toInt
      (List.replicate (visibleCount s x.toInt y.toInt 1 len.toInt) color))
    (fun s => drawExchanges s x.toInt y.toInt 1 len.toInt) (fun s => drawWmode s x.toInt y.toInt 1 len.toInt))

/-- `DRAWBITMAP x, y, p, w, h` (R194, R189, R195): every check, the source's among them, comes before the bracket opens. -/
def Obligations.DrawbitmapFollowsItsRule : Prop :=
  ∀ (x y : Half) (p : Word32) (w h : Half),
    EncodedAs (.drawBitmap x y p w h) .host { zeroFields with op := 0x44, a := x, b := y, c := w, d := h, p := p } [] ∧
    BracketedRule (.drawBitmap x y p w h)
    (fun s => w.toInt < 1 ∨ h.toInt < 1 ∨ BlitUndefined s x.toInt y.toInt p.toNat w.toInt h.toInt) id (fun _ => 0)
    (fun s => drawEvents s x.toInt y.toInt w.toInt h.toInt (blitColours s x.toInt y.toInt p.toNat w.toInt h.toInt))
    (fun s => drawExchanges s x.toInt y.toInt w.toInt h.toInt) (fun s => drawWmode s x.toInt y.toInt w.toInt h.toInt)

/-- Issued inside a bracket the host holds, a bracketed drawing operation nests: it does exactly what its unbracketed twin
does, in every state and with every answer of the environment (R189, R196). -/
def Obligations.NestedDrawingEqualsUnbracketed : Prop :=
  ∀ s : State, 1 ≤ s.depth →
    (∀ (x y : Half) (c : Colour), exec (.drawPixel x y c) s = exec (.wPixel x y c) s) ∧
    (∀ (x y w h : Half) (c : Colour), exec (.fillRect x y w h c) s = exec (.wFillRect x y w h c) s) ∧
    (∀ (x y len : Half) (c : Colour), exec (.drawHLine x y len c) s = exec (.wHLine x y len c) s) ∧
    (∀ (x y len : Half) (c : Colour), exec (.drawVLine x y len c) s = exec (.wVLine x y len c) s) ∧
    (∀ (x y : Half) (p : Word32) (w h : Half), exec (.drawBitmap x y p w h) s = exec (.wBitmap x y p w h) s)

/-- A fill is its expansion (R96): `STARTWRITE`, `WFILLRECT` with the same operands, `ENDWRITE`, in every state and with every
answer of the environment, with the result of the fill. -/
def Obligations.FillIsItsExpansion : Prop :=
  ∀ (x y w h : Half) (c : Colour) (s s1 s2 s3 : State), s.lifecycle = .ready → 1 ≤ w.toInt → 1 ≤ h.toInt →
    exec .startWrite s = .next s1 → exec (.wFillRect x y w h c) s1 = .next s2 → exec .endWrite s2 = .next s3 →
    exec (.fillRect x y w h c) s = .next { s3 with result := s2.result }

/-! ## Ancillary operations -/

/-- `SETROT r` (R220, R225, R226): the surface registers first, then the memory-access-control frame, inside one bracket. -/
def Obligations.SetrotFollowsItsRule : Prop :=
  ∀ r : Byte, EncodedAs (.setRot r) .host { zeroFields with op := 0x50, a := r.setWidth 16 } [] ∧
    BracketedRule (.setRot r) (fun _ => False)
    (fun s => { s with
      rotation := BitVec.ofNat 8 (r.toNat % 4)
      width := if r.toNat % 2 = 0 then s.cfg.w0 else s.cfg.h0
      height := if r.toNat % 2 = 0 then s.cfg.h0 else s.cfg.w0 })
    (fun _ => 0)
    (fun s => frameEvents s.cfg.cmdMadctl
      [if r.toNat % 4 = 0 then s.cfg.madctl0 else if r.toNat % 4 = 1 then s.cfg.madctl1
       else if r.toNat % 4 = 2 then s.cfg.madctl2 else s.cfg.madctl3])
    (fun _ => 2) (fun s => decide (s.cfg.cmdMadctl = s.cfg.cmdRamwr))

/-- `SETROT r` and `SETROT r + 4` are the same operation (R220). -/
def Obligations.SetrotIsModuloFour : Prop :=
  ∀ (r : Byte) (s : State), exec (.setRot (r + 4)) s = exec (.setRot r) s

/-- `INVERT b` (R221, R226) and `SCROLLTO y` (R222, R226). -/
def Obligations.InvertAndScrollFollowTheirRules : Prop :=
  (∀ b : Bool, EncodedAs (.invert b) .host { zeroFields with op := 0x51, a := if b then 1 else 0 } [] ∧
    BracketedRule (.invert b) (fun _ => False) id (fun _ => 0)
    (fun s => frameEvents (if b then s.cfg.cmdInvon else s.cfg.cmdInvoff) []) (fun _ => 1)
    (fun s => decide ((if b then s.cfg.cmdInvon else s.cfg.cmdInvoff) = s.cfg.cmdRamwr))) ∧
  (∀ y : Half, EncodedAs (.scrollTo y) .host { zeroFields with op := 0x52, a := y } [] ∧
    BracketedRule (.scrollTo y) (fun _ => False) id (fun _ => 0)
    (fun s => frameEvents s.cfg.cmdVscrsadd [y.extractLsb' 8 8, y.extractLsb' 0 8]) (fun _ => 3)
    (fun s => decide (s.cfg.cmdVscrsadd = s.cfg.cmdRamwr)))

/-- `READREG cmd, index` (R223, R85, R226): 0xD9 with `0x10 + index` modulo 256, the target command, one exchange of 0x00;
the value is the byte that exchange clocked in. -/
def Obligations.ReadregFollowsItsRule : Prop :=
  ∀ cmd index : Byte,
    EncodedAs (.readReg cmd index) .host { zeroFields with op := 0x53, a := cmd.setWidth 16, b := index.setWidth 16 } [] ∧
    BracketedRule (.readReg cmd index) (fun _ => False) id
    (fun s => match s.xfers[3]? with
      | some (some r) => r.setWidth 16
      | _ => 0)
    (fun _ => frameEvents 0xD9 [BitVec.ofNat 8 ((0x10 + index.toNat) % 256)] ++ frameEvents cmd [0x00])
    (fun _ => 4) (fun s => decide (cmd = s.cfg.cmdRamwr))

/-- `COLOR565 r, g, b` (R224, R83): in every lifecycle state, no event, no state change, and the value has red `r[7:3]`, green
`g[7:2]`, blue `b[7:3]`; so every colour is reached and samples that differ in the dropped bits only give one colour. -/
def Obligations.Color565PacksThreeSamples : Prop :=
  (∀ r g b : Byte, EncodedAs (.color565 r g b) .host
    { zeroFields with op := 0x54, a := r.setWidth 16, b := g.setWidth 16, c := b.setWidth 16 } []) ∧
  (∀ (r g b : Byte) (s : State), ∃ c : Colour,
    exec (.color565 r g b) s = .next { s with result := some ⟨.ok, c⟩ } ∧
    c.extractLsb' 11 5 = r.extractLsb' 3 5 ∧ c.extractLsb' 5 6 = g.extractLsb' 2 6 ∧ c.extractLsb' 0 5 = b.extractLsb' 3 5) ∧
  (∀ (c : Colour) (s : State), ∃ r g b : Byte, exec (.color565 r g b) s = .next { s with result := some ⟨.ok, c⟩ }) ∧
  (∀ (r g b : Byte) (s : State), exec (.color565 (r &&& 0xF8) (g &&& 0xFC) (b &&& 0xF8)) s = exec (.color565 r g b) s)

/-! ## Transport -/

/-- `T_OPEN` and `T_CLOSE` (R111, R115): refused in the wrong session state; a refused device changes nothing; a successful open
and a close write `SESSION` and leave one event. -/
def Obligations.OpenAndCloseFollowTheirRules : Prop :=
  EncodedAs .tOpen .transport { zeroFields with op := 0x60 } [] ∧ EncodedAs .tClose .transport { zeroFields with op := 0x63 } [] ∧
  ∀ s : State,
    (s.session = .opened → Refuses .tOpen s .notReady) ∧
    (∀ os, s.session ≠ .opened → s.opens = false :: os →
      exec .tOpen s = .next { s with opens := os, result := some ⟨.deviceUnavailable, 0⟩ }) ∧
    (∀ os, s.session ≠ .opened → s.opens = true :: os →
      ∃ d, exec .tOpen s = .next { s with
        opens := os, session := .opened, trace := s.trace ++ [.sessionOpen ⟨s.cfg.clockRate, .msbFirst, 0, 0, 8⟩],
        draws := d, result := some ⟨.ok, 0⟩ }) ∧
    (s.session ≠ .opened → Refuses .tClose s .notReady) ∧
    (s.session = .opened →
      ∃ d, exec .tClose s = .next { s with
        session := .released, trace := s.trace ++ [.sessionClose], draws := d, result := some ⟨.ok, 0⟩ })

/-- `T_XFER out` and `T_BLOCK` (R112, R114): refused unless the session is open; a block is the exchanges of its bytes in order,
stopped at the first failure; the result of one exchange is the byte clocked in. -/
def Obligations.ExchangesFollowTheirRules : Prop :=
  (∀ b, EncodedAs (.tXfer b) .transport { zeroFields with op := 0x61, a := b.setWidth 16 } []) ∧
  (∀ bs : List Byte, bs.length < 2 ^ 32 →
    EncodedAs (.tBlock bs) .transport { zeroFields with op := 0x62, n := BitVec.ofNat 32 bs.length } bs) ∧
  ∀ s : State,
    (s.session ≠ .opened → ∀ b, Refuses (.tXfer b) s .notReady) ∧
    (s.session ≠ .opened → ∀ bs, Refuses (.tBlock bs) s .notReady) ∧
    (s.session = .opened → ∀ b r rest, s.xfers = some r :: rest →
      ∃ t, exec (.tXfer b) s = .next t ∧ t.trace = s.trace ++ [.xfer b r] ∧ EndsOk s t (r.setWidth 16) [.xfer b 0] 1 s.wmode) ∧
    (s.session = .opened → ∀ b, FailsAt s 0 → ∃ t, exec (.tXfer b) s = .next t ∧ EndsFailed s t [.xferFail b] 0) ∧
    (s.session = .opened → ∀ bs, Answers s bs.length →
      ∃ t, exec (.tBlock bs) s = .next t ∧ EndsOk s t 0 (byteEvents bs) bs.length s.wmode) ∧
    (s.session = .opened → ∀ bs, ∀ k < bs.length, FailsAt s k →
      ∃ t, exec (.tBlock bs) s = .next t ∧
        EndsFailed s t (byteEvents (bs.take k) ++ (bs[k]?.toList.map fun b => .xferFail b)) k)

/-- The bits of an exchange (R53): eight clock periods, bit 7 first in both directions. -/
def Obligations.ExchangeBitsGoMostSignificantFirst : Prop :=
  ∀ out inp : Byte, (wireBits out inp).length = 8 ∧
    ∀ k < 8, (wireBits out inp)[k]? = some (out.getLsbD (7 - k), inp.getLsbD (7 - k))

/-! ## Errors -/

/-- Steps 1 to 5 of the check order produce no event and change no state: a host operation that ends with a precondition
violation was refused whole (R253; the mark is the model's, log 9). -/
def Obligations.AnOperationIsRefusedWholeOrStarts : Prop :=
  ∀ (i : Instr) (s t : State) (r : Result), i.opcode.port = .host → SessionOk s → exec i s = .next t →
    t.result = some r → r.status.isMisuse = true → ∃ m, t = { s with result := some ⟨r.status, 0⟩, faultMark := m }

/-- The numbers of a result (R93): `STATUS` in bits 23:16, `VALUE` in bits 15:0, and the eight codes. -/
def Obligations.ResultBitsAreStatusThenValue : Prop :=
  (∀ r : Result, r.bits.extractLsb' 16 8 = r.status.code ∧ r.bits.extractLsb' 0 16 = r.value) ∧
  Status.ok.code = 0x00 ∧ Status.deviceUnavailable.code = 0x01 ∧ Status.transferFailure.code = 0x02 ∧
  Status.notReady.code = 0x03 ∧ Status.noBracket.code = 0x04 ∧ Status.bracketOpen.code = 0x05 ∧
  Status.badOperand.code = 0x06 ∧ Status.illegalOp.code = 0x07

/-- Every operation ends with a status that the table of R262 gives it, and with the value R93 gives it: 1 for a `BEGIN` that
returned, the colour for `COLOR565`, the byte clocked in for `READREG` and `T_XFER` that returned, 0 in every other case. -/
def Obligations.EveryStatusIsInTheTable : Prop :=
  ∀ (i : Instr) (s t : State) (r : Result), exec i s = .next t → t.result = some r →
    statusAllowed i r.status = true ∧
    (r.status ≠ .ok ∨ i.opcode ∉ [.beginOp, .readReg, .color565, .tXfer] → r.value = 0) ∧
    (r.status = .ok →
      (i = .beginOp → r.value = 1) ∧
      (∀ red green blue, i = .color565 red green blue →
        r.value = red.extractLsb' 3 5 ++ green.extractLsb' 2 6 ++ blue.extractLsb' 3 5) ∧
      (∀ out, i = .tXfer out → ∃ b, t.trace = s.trace ++ [.xfer out b] ∧ r.value = b.setWidth 16) ∧
      (∀ cmd index, i = .readReg cmd index → ∃ before b after, t.trace = s.trace ++ before ++ [.xfer 0x00 b] ++ after ∧
        (∀ e ∈ after, e = .line .cs .high) ∧ r.value = b.setWidth 16))

/-- What a `TransferFailure` leaves of an operation other than `BEGIN` (R248, R133): `Ready`, the session open, the depth and the
lines as between operations, `WMODE` false; no exchange after the one that failed; the panel unknown. -/
def Obligations.TransferFailureRestoresTheLines : Prop :=
  ∀ (i : Instr) (s t : State) (v : Half), i ≠ .beginOp → i.opcode.port = .host → Inv s → exec i s = .next t →
    t.result = some ⟨.transferFailure, v⟩ →
    v = 0 ∧ t.lifecycle = .ready ∧ t.session = .opened ∧ t.depth = s.depth ∧ t.wmode = false ∧ LinesOk t ∧
    t.panel.mode = .unknown ∧
    ∃ (before after : List Event) (b : Byte), t.trace = s.trace ++ before ++ [.xferFail b] ++ after ∧
      (∀ e ∈ before, ∀ out, e ≠ .xferFail out) ∧
      (∀ e ∈ after, e = .line .dc .high ∨ e = .line .cs .high)

/-- The mark of a precondition violation (R250, log 9). An operation leaves the mark there was, or sets it where its status is a
violation, and one that ends with `OK` or with an error of the environment does not set it; a step never clears it and sets it
for the five violations only; and a request that does not decode, which no operation stands for, sets it (one of another length
by log 7). -/
def Obligations.FaultMarkIsSticky : Prop :=
  (∀ (i : Instr) (s t : State) (r : Result), exec i s = .next t → t.result = some r →
    t.faultMark = (s.faultMark || r.status.isMisuse) ∧
    (NoFaultRecorded t → NoFaultRecorded s ∧
      (r.status = .ok ∨ r.status = .deviceUnavailable ∨ r.status = .transferFailure))) ∧
  (∀ s t : State, step s = .next t →
    (s.faultMark = true → t.faultMark = true) ∧
    (t.faultMark = true → s.faultMark = true ∨
      ∃ r, t.result = some r ∧ r.status ∈ [.notReady, .noBracket, .bracketOpen, .badOperand, .illegalOp])) ∧
  (∀ (s : State) (r : Request) (rest : List Request) (err : DecodeError), s.requests = r :: rest →
    decode r.port r.bytes = .error err →
    ∃ t, step s = .next t ∧ t.result = some ⟨.illegalOp, 0⟩ ∧ t.faultMark = true)

/-! ## The whole machine -/

/-- The invariant holds in a fresh instance (R36, R20). -/
def Obligations.ResetMeetsTheInvariant : Prop := Inv State.reset

/-- The reset values the spec states (R36): uninitialized, no session, depth 0, `WMODE` false, the three lines undriven, the
wire trace empty. -/
def Obligations.ResetLeavesTheStatedValues : Prop :=
  State.reset.lifecycle = .uninitialized ∧ State.reset.session = .none ∧ State.reset.depth = 0 ∧
  State.reset.wmode = false ∧ State.reset.resetLine = .undriven ∧ State.reset.dcLine = .undriven ∧
  State.reset.csLine = .undriven ∧ State.reset.trace = []

/-- The premise `Between` of the statements about single operations is no more than the invariant gives in a ready state. -/
def Obligations.ReadyStatesMeetThePremise : Prop := ∀ s : State, Inv s → s.lifecycle = .ready → Between s

/-- Every step of a host keeps the invariant, from every state that meets it and with every answer of the environment: the
surface follows the rotation, the session follows the lifecycle, the lines follow the bracket, the stream bit and the
panel follow the wire, and both memories stay in canonical form (R23, R30, R35, R56, R62 to R67). -/
def Obligations.EveryStepKeepsTheInvariant : Prop :=
  ∀ s t : State, Inv s → step s = .next t → Inv t

/-- The surface registers are written by `BEGIN` and by `SETROT` and by nothing else (R24). -/
def Obligations.OnlyBeginAndSetrotWriteTheSurface : Prop :=
  ∀ (i : Instr) (s t : State), exec i s = .next t → i ≠ .beginOp → (∀ r, i ≠ .setRot r) →
    t.width = s.width ∧ t.height = s.height ∧ t.rotation = s.rotation

/-- The trace is totally ordered and only grows, the configuration and the source buffer are never written, and the `RESET`
latch is written by `BEGIN` only (R51, R57, R61, R28). -/
def Obligations.TraceGrowsAndParametersStay : Prop :=
  ∀ (i : Instr) (s t : State), exec i s = .next t →
    (∃ evs, t.trace = s.trace ++ evs) ∧ t.cfg = s.cfg ∧ t.src = s.src ∧ t.requests = s.requests ∧
    (i ≠ .beginOp → t.resetLine = s.resetLine)

/-- The framing protocol (R80, R244): what any host operation puts on the wire exchanges no byte while `CS` is high, and `DC` is
low for exactly the one byte of a command. -/
def Obligations.EveryOperationKeepsTheFraming : Prop :=
  ∀ (i : Instr) (s t : State) (evs : List Event), i.opcode.port = .host → Inv s → exec i s = .next t →
    t.trace = s.trace ++ evs →
    framed (if s.depth = 0 then .high else .low) .high false evs = true

/-! ## The panel -/

/-- Pixel data sent with no memory-write command in force leaves the panel unknown, whatever the environment answers (R280,
R66); the bytes are sent all the same, as `WrpixAndWrcolorFollowTheirRules` and `WrpixsFollowsItsRule` say. -/
def Obligations.StreamWithoutAWindowLosesThePanel : Prop :=
  ∀ (s : State), s.lifecycle = .ready → 1 ≤ s.depth → s.wmode = false →
    (∀ c : Colour, ∃ t, exec (.wrPix c) s = .next t ∧ t.panel.mode = .unknown ∧ ∀ a, t.panel.fb.read a = none) ∧
    (∀ (c : Colour) (n : Word32), 1 ≤ n.toNat →
      ∃ t, exec (.wrColor c n) s = .next t ∧ t.panel.mode = .unknown ∧ ∀ a, t.panel.fb.read a = none) ∧
    (∀ p n : Word32, 1 ≤ n.toNat → (∀ k < n.toNat, p.toNat + k < 2 ^ 32 ∧ (s.src.read (p.toNat + k)).isSome = true) →
      ∃ t, exec (.wrPixs p n) s = .next t ∧ t.panel.mode = .unknown ∧ ∀ a, t.panel.fb.read a = none)

/-- A command byte at the panel (R63), sent by `WRCMD`: it loses a panel that holds half a pixel or part of a parameter; at one
that listens the window commands await their parameters, the memory write starts at the window's first cell where the
window lies inside the surface and loses the panel where it does not, a code of `FB_PRESERVING` leaves window and frame
memory alone, and any other code loses both. An unknown panel stays unknown. -/
def Obligations.CommandByteMovesThePanel : Prop :=
  ∀ (s t : State) (cmd : Byte), Between s → 1 ≤ s.depth → Answers s 1 → exec (.wrCmd cmd) s = .next t →
    if s.panel.mode = .unknown ∨ s.panel.cutShort = true then t.panel.mode = .unknown
    else if cmd = s.cfg.cmdCaset then t.panel = { s.panel with mode := .col 0, acc := [] }
    else if cmd = s.cfg.cmdPaset then t.panel = { s.panel with mode := .row 0, acc := [] }
    else if cmd = s.cfg.cmdRamwr then
      if s.panel.win.xs.toNat ≤ s.panel.win.xe.toNat ∧ s.panel.win.xe.toNat < s.width.toNat ∧
          s.panel.win.ys.toNat ≤ s.panel.win.ye.toNat ∧ s.panel.win.ye.toNat < s.height.toNat then
        t.panel = { s.panel with mode := .write, cur := ⟨s.panel.win.xs, s.panel.win.ys⟩, half := none }
      else t.panel.mode = .unknown
    else if cmd ∈ s.cfg.fbPreserving then t.panel = { s.panel with mode := .other }
    else t.panel.mode = .other ∧ t.panel.fb = []

/-- `SETWIN` at a panel that listens (R63, R64, R281): the window is the one sent; inside the surface a stream is in force at its
first cell and the picture is as before; outside the surface the panel is lost. -/
def Obligations.SetwinMovesThePanel : Prop :=
  ∀ (s t : State) (x y w h : Half), Between s → 1 ≤ s.depth → s.cfg.wf = true → PanelListens s →
    1 ≤ w.toNat → 1 ≤ h.toNat → x.toNat + w.toNat - 1 ≤ 65535 → y.toNat + h.toNat - 1 ≤ 65535 → Answers s 11 →
    exec (.setWin x y w h) s = .next t →
    if x.toNat + w.toNat ≤ s.width.toNat ∧ y.toNat + h.toNat ≤ s.height.toNat then
      t.panel.win = ⟨x, x + w - 1, y, y + h - 1⟩ ∧ t.panel.mode = .write ∧ t.panel.cur = ⟨x, y⟩ ∧ t.panel.half = none ∧
        t.panel.fb = s.panel.fb
    else t.panel.mode = .unknown

/-- `SETROT`, `INVERT` and `SCROLLTO` and the picture (R63, R220; 93_implementation_defined.md U14): on a panel that listens, a
command code of `FB_PRESERVING` leaves window and frame memory as they are, and any other code that is no window command
leaves the frame memory nowhere defined; either way the panel listens on, idle outside a host's bracket. -/
def Obligations.AncillaryCommandsKeepOrLoseThePicture : Prop :=
  ∀ (s t : State) (i : Instr) (cmd : Byte), Between s → PanelListens s → Answers s 3 →
    ((∃ r, i = .setRot r ∧ cmd = s.cfg.cmdMadctl) ∨ (∃ y, i = .scrollTo y ∧ cmd = s.cfg.cmdVscrsadd) ∨
      (i = .invert true ∧ cmd = s.cfg.cmdInvon) ∨ (i = .invert false ∧ cmd = s.cfg.cmdInvoff)) →
    cmd ≠ s.cfg.cmdCaset → cmd ≠ s.cfg.cmdPaset → cmd ≠ s.cfg.cmdRamwr → exec i s = .next t →
    PanelListens t ∧ t.panel.mode = (if s.depth = 0 then .idle else .other) ∧
    (if cmd ∈ s.cfg.fbPreserving then t.panel.win = s.panel.win ∧ t.panel.fb = s.panel.fb else t.panel.fb = [])

/-- `READREG` and the panel (R63, R64, R67, R223). Its two command codes, where neither is a window command, keep window and frame
memory exactly where both are in `FB_PRESERVING`, and the parameter and the dummy byte change nothing; the panel listens on,
idle outside a host's bracket. Where a code is a window command the bytes after it are cut short: with `0xD9` one, the panel is
lost; with `cmd` one, the dummy byte is the first byte of its parameters, or half a pixel, or finds the panel lost, and the
outermost bracket loses the panel as it closes. -/
def Obligations.ReadregKeepsOrLosesThePicture : Prop :=
  ∀ (s t : State) (cmd index : Byte), Between s → PanelListens s → Answers s 4 →
    exec (.readReg cmd index) s = .next t →
    ((∀ c ∈ [0xD9, cmd], c ≠ s.cfg.cmdCaset ∧ c ≠ s.cfg.cmdPaset ∧ c ≠ s.cfg.cmdRamwr) →
      PanelListens t ∧ t.panel.mode = (if s.depth = 0 then .idle else .other) ∧
      (if 0xD9 ∈ s.cfg.fbPreserving ∧ cmd ∈ s.cfg.fbPreserving then t.panel.win = s.panel.win ∧ t.panel.fb = s.panel.fb
       else t.panel.fb = [])) ∧
    (0xD9 ∈ [s.cfg.cmdCaset, s.cfg.cmdPaset, s.cfg.cmdRamwr] → t.panel.mode = .unknown) ∧
    (cmd ∈ [s.cfg.cmdCaset, s.cfg.cmdPaset, s.cfg.cmdRamwr] → s.depth = 0 → t.panel.mode = .unknown) ∧
    (0xD9 ∉ [s.cfg.cmdCaset, s.cfg.cmdPaset, s.cfg.cmdRamwr] → 1 ≤ s.depth → s.cfg.wf = true →
      (cmd = s.cfg.cmdCaset → t.panel.mode = .col 1 ∧ t.panel.acc = [0x00]) ∧
      (cmd = s.cfg.cmdPaset → t.panel.mode = .row 1 ∧ t.panel.acc = [0x00]) ∧
      (cmd = s.cfg.cmdRamwr → (t.panel.mode = .unknown ∨ t.panel.mode = .write ∧ t.panel.half = some 0x00) ∧
        (0xD9 ∈ s.cfg.fbPreserving → (t.panel.mode = .write ↔ windowInside s.panel.win s.width s.height = true))))

/-- Where the pixels of a stream land (R65, R162, R282). `WRPIX`, `WRCOLOR` and `WRPIXS` go on from the cursor they find, a second
stream into the window of the first among them: each of their cells holds the last pixel that landed there, every other
cell is as before, and the stream stays in force with the cursor at the cell of the next pixel. So after a `SETWIN` inside
the surface pixel `i` of a stream of `n` is at column `x + i mod w`, row `y + (i div w) mod h`, unless a later pixel of the
stream landed there; cells outside the window keep their colours. -/
def Obligations.StreamFillsTheWindowRowMajor : Prop :=
  (∀ (s t : State) (i : Instr) (cs : List Colour), Between s → 1 ≤ s.depth → InStream s → s.panel.fb.wf = true →
    Streams s i cs → Answers s (2 * cs.length) → exec i s = .next t →
    (∀ j < cs.length,
      (∀ k < cs.length, j < k → cellAhead s.panel.win s.panel.cur k ≠ cellAhead s.panel.win s.panel.cur j) →
      pixelAt t (cellAhead s.panel.win s.panel.cur j) = cs[j]?) ∧
    (∀ c : Cursor, (∀ k < cs.length, cellAhead s.panel.win s.panel.cur k ≠ c) → pixelAt t c = pixelAt s c) ∧
    InStream t ∧ t.panel.win = s.panel.win ∧ t.panel.cur = cellAhead s.panel.win s.panel.cur cs.length) ∧
  (∀ (s t u : State) (x y w h : Half) (p n : Word32), Between s → 1 ≤ s.depth → s.cfg.wf = true → PanelListens s →
    s.panel.fb.wf = true → 1 ≤ w.toNat → 1 ≤ h.toNat → x.toNat + w.toNat ≤ s.width.toNat → y.toNat + h.toNat ≤ s.height.toNat →
    Answers s (11 + 2 * n.toNat) →
    (∀ k < n.toNat, p.toNat + k < 2 ^ 32 ∧ (s.src.read (p.toNat + k)).isSome = true) →
    exec (.setWin x y w h) s = .next t → exec (.wrPixs p n) t = .next u →
    (∀ i < n.toNat, n.toNat ≤ i + w.toNat * h.toNat →
      u.panel.fb.read (fbIndex (BitVec.ofNat 16 (x.toNat + i % w.toNat)) (BitVec.ofNat 16 (y.toNat + i / w.toNat % h.toNat))) =
        s.src.read (p.toNat + i)) ∧
    (∀ col row : Half, ¬ (x.toNat ≤ col.toNat ∧ col.toNat < x.toNat + w.toNat ∧ y.toNat ≤ row.toNat ∧
        row.toNat < y.toNat + h.toNat) →
      u.panel.fb.read (fbIndex col row) = s.panel.fb.read (fbIndex col row)))

/-- A fill paints exactly the intersection of the rectangle with the surface: on a listening panel and with no failed
exchange, the cells of both hold the colour afterwards and every other cell is as before (R191, R181, R65). -/
def Obligations.FillPaintsExactlyTheIntersection : Prop :=
  ∀ (s t : State) (x y w h : Half) (c : Colour), Between s → s.cfg.wf = true → PanelListens s → s.panel.fb.wf = true →
    1 ≤ w.toInt → 1 ≤ h.toInt → Answers s (drawExchanges s x.toInt y.toInt w.toInt h.toInt) →
    exec (.fillRect x y w h c) s = .next t →
    ∀ col row : Half, t.panel.fb.read (fbIndex col row) =
      if InRect s x.toInt y.toInt w.toInt h.toInt col row then some c else s.panel.fb.read (fbIndex col row)

/-- The source-offset law of the blit (R188): of a window of `w` columns and `h` rows clipped by `(dx, dy)` from a bitmap of
stride `S`, pixel `i` of row `j` is read at `p + (dy + j) * S + dx + i`, so the first at `dy * S + dx` from the base, and each
row's start is `S` after the one before; and at the panel every visible pixel lands where the unclipped blit would have put
it: cell `(col, row)` of the intersection holds source pixel `(col - x, row - y)` of the bitmap, and every other cell is as
before (R187, R65). -/
def Obligations.BlitLandsWhereTheUnclippedBlitWould : Prop :=
  (∀ p S dx dy w h : Nat,
    (∀ i < w, ∀ j < h, (blitIndexes p S dx dy w h)[j * w + i]? = some (p + (dy + j) * S + dx + i)) ∧
    (blitIndexes p S dx dy w h).length = w * h ∧
    (0 < w → 0 < h → (blitIndexes p S dx dy w h)[0]? = some (p + (dy * S + dx))) ∧
    (∀ j a b, 0 < w → j + 1 < h → (blitIndexes p S dx dy w h)[j * w]? = some a →
      (blitIndexes p S dx dy w h)[(j + 1) * w]? = some b → b = a + S)) ∧
  (∀ (s t : State) (x y : Half) (p : Word32) (w h : Half), Between s → s.cfg.wf = true → PanelListens s →
    s.panel.fb.wf = true → 1 ≤ w.toInt → 1 ≤ h.toInt → ¬ BlitUndefined s x.toInt y.toInt p.toNat w.toInt h.toInt →
    Answers s (drawExchanges s x.toInt y.toInt w.toInt h.toInt) →
    exec (.drawBitmap x y p w h) s = .next t →
    ∀ col row : Half, t.panel.fb.read (fbIndex col row) =
      if InRect s x.toInt y.toInt w.toInt h.toInt col row then
        s.src.read (p.toNat + (((row.toNat : Int) - y.toInt) * w.toInt + ((col.toNat : Int) - x.toInt)).toNat)
      else s.panel.fb.read (fbIndex col row))

/-- The sparse memories behave as memories: a write is read back, leaves every other index alone, and keeps the canonical
form; distinct cells of the surface have distinct indexes (R57, R62, R34). -/
def Obligations.SparseMemoryReadsWhatWasWritten : Prop :=
  (∀ (m : Memory) (a b : Nat) (c : Colour), m.wf = true →
    (m.write a c).read b = (if b = a then some c else m.read b) ∧ (m.write a c).wf = true) ∧
  (∀ m n : Memory, m.wf = true → n.wf = true → (∀ a, m.read a = n.read a) → m = n) ∧
  (∀ col row col' row' : Half, fbIndex col row = fbIndex col' row' → col = col' ∧ row = row')
end

