-- ==== Sys2Proof/Laws/State.lean ====
section
/-! SUPPORT. The small lemmas of every update of the state: one per field, so that no later proof unfolds a record
update. -/

namespace Sys2Proof.Machine

section
variable (s : State)

/-! `setWmode` writes one field. -/

@[simp] theorem State.setWmode_lifecycle (v : Bool) : (s.setWmode v).lifecycle = s.lifecycle := rfl
@[simp] theorem State.setWmode_width (v : Bool) : (s.setWmode v).width = s.width := rfl
@[simp] theorem State.setWmode_height (v : Bool) : (s.setWmode v).height = s.height := rfl
@[simp] theorem State.setWmode_rotation (v : Bool) : (s.setWmode v).rotation = s.rotation := rfl
@[simp] theorem State.setWmode_depth (v : Bool) : (s.setWmode v).depth = s.depth := rfl
@[simp] theorem State.setWmode_resetLine (v : Bool) : (s.setWmode v).resetLine = s.resetLine := rfl
@[simp] theorem State.setWmode_dcLine (v : Bool) : (s.setWmode v).dcLine = s.dcLine := rfl
@[simp] theorem State.setWmode_csLine (v : Bool) : (s.setWmode v).csLine = s.csLine := rfl
@[simp] theorem State.setWmode_session (v : Bool) : (s.setWmode v).session = s.session := rfl
@[simp] theorem State.setWmode_wmode (v : Bool) : (s.setWmode v).wmode = v := rfl
@[simp] theorem State.setWmode_trace (v : Bool) : (s.setWmode v).trace = s.trace := rfl
@[simp] theorem State.setWmode_result (v : Bool) : (s.setWmode v).result = s.result := rfl
@[simp] theorem State.setWmode_panel (v : Bool) : (s.setWmode v).panel = s.panel := rfl
@[simp] theorem State.setWmode_cfg (v : Bool) : (s.setWmode v).cfg = s.cfg := rfl
@[simp] theorem State.setWmode_src (v : Bool) : (s.setWmode v).src = s.src := rfl
@[simp] theorem State.setWmode_opens (v : Bool) : (s.setWmode v).opens = s.opens := rfl
@[simp] theorem State.setWmode_xfers (v : Bool) : (s.setWmode v).xfers = s.xfers := rfl
@[simp] theorem State.setWmode_draws (v : Bool) : (s.setWmode v).draws = s.draws := rfl
@[simp] theorem State.setWmode_requests (v : Bool) : (s.setWmode v).requests = s.requests := rfl
@[simp] theorem State.setWmode_faultMark (v : Bool) : (s.setWmode v).faultMark = s.faultMark := rfl

/-! `setDepth` writes one field. -/

@[simp] theorem State.setDepth_lifecycle (v : Nat) : (s.setDepth v).lifecycle = s.lifecycle := rfl
@[simp] theorem State.setDepth_width (v : Nat) : (s.setDepth v).width = s.width := rfl
@[simp] theorem State.setDepth_height (v : Nat) : (s.setDepth v).height = s.height := rfl
@[simp] theorem State.setDepth_rotation (v : Nat) : (s.setDepth v).rotation = s.rotation := rfl
@[simp] theorem State.setDepth_depth (v : Nat) : (s.setDepth v).depth = v := rfl
@[simp] theorem State.setDepth_resetLine (v : Nat) : (s.setDepth v).resetLine = s.resetLine := rfl
@[simp] theorem State.setDepth_dcLine (v : Nat) : (s.setDepth v).dcLine = s.dcLine := rfl
@[simp] theorem State.setDepth_csLine (v : Nat) : (s.setDepth v).csLine = s.csLine := rfl
@[simp] theorem State.setDepth_session (v : Nat) : (s.setDepth v).session = s.session := rfl
@[simp] theorem State.setDepth_wmode (v : Nat) : (s.setDepth v).wmode = s.wmode := rfl
@[simp] theorem State.setDepth_trace (v : Nat) : (s.setDepth v).trace = s.trace := rfl
@[simp] theorem State.setDepth_result (v : Nat) : (s.setDepth v).result = s.result := rfl
@[simp] theorem State.setDepth_panel (v : Nat) : (s.setDepth v).panel = s.panel := rfl
@[simp] theorem State.setDepth_cfg (v : Nat) : (s.setDepth v).cfg = s.cfg := rfl
@[simp] theorem State.setDepth_src (v : Nat) : (s.setDepth v).src = s.src := rfl
@[simp] theorem State.setDepth_opens (v : Nat) : (s.setDepth v).opens = s.opens := rfl
@[simp] theorem State.setDepth_xfers (v : Nat) : (s.setDepth v).xfers = s.xfers := rfl
@[simp] theorem State.setDepth_draws (v : Nat) : (s.setDepth v).draws = s.draws := rfl
@[simp] theorem State.setDepth_requests (v : Nat) : (s.setDepth v).requests = s.requests := rfl
@[simp] theorem State.setDepth_faultMark (v : Nat) : (s.setDepth v).faultMark = s.faultMark := rfl

/-! `setSession` writes one field. -/

@[simp] theorem State.setSession_lifecycle (v : Session) : (s.setSession v).lifecycle = s.lifecycle := rfl
@[simp] theorem State.setSession_width (v : Session) : (s.setSession v).width = s.width := rfl
@[simp] theorem State.setSession_height (v : Session) : (s.setSession v).height = s.height := rfl
@[simp] theorem State.setSession_rotation (v : Session) : (s.setSession v).rotation = s.rotation := rfl
@[simp] theorem State.setSession_depth (v : Session) : (s.setSession v).depth = s.depth := rfl
@[simp] theorem State.setSession_resetLine (v : Session) : (s.setSession v).resetLine = s.resetLine := rfl
@[simp] theorem State.setSession_dcLine (v : Session) : (s.setSession v).dcLine = s.dcLine := rfl
@[simp] theorem State.setSession_csLine (v : Session) : (s.setSession v).csLine = s.csLine := rfl
@[simp] theorem State.setSession_session (v : Session) : (s.setSession v).session = v := rfl
@[simp] theorem State.setSession_wmode (v : Session) : (s.setSession v).wmode = s.wmode := rfl
@[simp] theorem State.setSession_trace (v : Session) : (s.setSession v).trace = s.trace := rfl
@[simp] theorem State.setSession_result (v : Session) : (s.setSession v).result = s.result := rfl
@[simp] theorem State.setSession_panel (v : Session) : (s.setSession v).panel = s.panel := rfl
@[simp] theorem State.setSession_cfg (v : Session) : (s.setSession v).cfg = s.cfg := rfl
@[simp] theorem State.setSession_src (v : Session) : (s.setSession v).src = s.src := rfl
@[simp] theorem State.setSession_opens (v : Session) : (s.setSession v).opens = s.opens := rfl
@[simp] theorem State.setSession_xfers (v : Session) : (s.setSession v).xfers = s.xfers := rfl
@[simp] theorem State.setSession_draws (v : Session) : (s.setSession v).draws = s.draws := rfl
@[simp] theorem State.setSession_requests (v : Session) : (s.setSession v).requests = s.requests := rfl
@[simp] theorem State.setSession_faultMark (v : Session) : (s.setSession v).faultMark = s.faultMark := rfl

/-! `setLifecycle` writes one field. -/

@[simp] theorem State.setLifecycle_lifecycle (v : Lifecycle) : (s.setLifecycle v).lifecycle = v := rfl
@[simp] theorem State.setLifecycle_width (v : Lifecycle) : (s.setLifecycle v).width = s.width := rfl
@[simp] theorem State.setLifecycle_height (v : Lifecycle) : (s.setLifecycle v).height = s.height := rfl
@[simp] theorem State.setLifecycle_rotation (v : Lifecycle) : (s.setLifecycle v).rotation = s.rotation := rfl
@[simp] theorem State.setLifecycle_depth (v : Lifecycle) : (s.setLifecycle v).depth = s.depth := rfl
@[simp] theorem State.setLifecycle_resetLine (v : Lifecycle) : (s.setLifecycle v).resetLine = s.resetLine := rfl
@[simp] theorem State.setLifecycle_dcLine (v : Lifecycle) : (s.setLifecycle v).dcLine = s.dcLine := rfl
@[simp] theorem State.setLifecycle_csLine (v : Lifecycle) : (s.setLifecycle v).csLine = s.csLine := rfl
@[simp] theorem State.setLifecycle_session (v : Lifecycle) : (s.setLifecycle v).session = s.session := rfl
@[simp] theorem State.setLifecycle_wmode (v : Lifecycle) : (s.setLifecycle v).wmode = s.wmode := rfl
@[simp] theorem State.setLifecycle_trace (v : Lifecycle) : (s.setLifecycle v).trace = s.trace := rfl
@[simp] theorem State.setLifecycle_result (v : Lifecycle) : (s.setLifecycle v).result = s.result := rfl
@[simp] theorem State.setLifecycle_panel (v : Lifecycle) : (s.setLifecycle v).panel = s.panel := rfl
@[simp] theorem State.setLifecycle_cfg (v : Lifecycle) : (s.setLifecycle v).cfg = s.cfg := rfl
@[simp] theorem State.setLifecycle_src (v : Lifecycle) : (s.setLifecycle v).src = s.src := rfl
@[simp] theorem State.setLifecycle_opens (v : Lifecycle) : (s.setLifecycle v).opens = s.opens := rfl
@[simp] theorem State.setLifecycle_xfers (v : Lifecycle) : (s.setLifecycle v).xfers = s.xfers := rfl
@[simp] theorem State.setLifecycle_draws (v : Lifecycle) : (s.setLifecycle v).draws = s.draws := rfl
@[simp] theorem State.setLifecycle_requests (v : Lifecycle) : (s.setLifecycle v).requests = s.requests := rfl
@[simp] theorem State.setLifecycle_faultMark (v : Lifecycle) : (s.setLifecycle v).faultMark = s.faultMark := rfl

/-! `setXfers` writes one field. -/

@[simp] theorem State.setXfers_lifecycle (v : List (Option Byte)) : (s.setXfers v).lifecycle = s.lifecycle := rfl
@[simp] theorem State.setXfers_width (v : List (Option Byte)) : (s.setXfers v).width = s.width := rfl
@[simp] theorem State.setXfers_height (v : List (Option Byte)) : (s.setXfers v).height = s.height := rfl
@[simp] theorem State.setXfers_rotation (v : List (Option Byte)) : (s.setXfers v).rotation = s.rotation := rfl
@[simp] theorem State.setXfers_depth (v : List (Option Byte)) : (s.setXfers v).depth = s.depth := rfl
@[simp] theorem State.setXfers_resetLine (v : List (Option Byte)) : (s.setXfers v).resetLine = s.resetLine := rfl
@[simp] theorem State.setXfers_dcLine (v : List (Option Byte)) : (s.setXfers v).dcLine = s.dcLine := rfl
@[simp] theorem State.setXfers_csLine (v : List (Option Byte)) : (s.setXfers v).csLine = s.csLine := rfl
@[simp] theorem State.setXfers_session (v : List (Option Byte)) : (s.setXfers v).session = s.session := rfl
@[simp] theorem State.setXfers_wmode (v : List (Option Byte)) : (s.setXfers v).wmode = s.wmode := rfl
@[simp] theorem State.setXfers_trace (v : List (Option Byte)) : (s.setXfers v).trace = s.trace := rfl
@[simp] theorem State.setXfers_result (v : List (Option Byte)) : (s.setXfers v).result = s.result := rfl
@[simp] theorem State.setXfers_panel (v : List (Option Byte)) : (s.setXfers v).panel = s.panel := rfl
@[simp] theorem State.setXfers_cfg (v : List (Option Byte)) : (s.setXfers v).cfg = s.cfg := rfl
@[simp] theorem State.setXfers_src (v : List (Option Byte)) : (s.setXfers v).src = s.src := rfl
@[simp] theorem State.setXfers_opens (v : List (Option Byte)) : (s.setXfers v).opens = s.opens := rfl
@[simp] theorem State.setXfers_xfers (v : List (Option Byte)) : (s.setXfers v).xfers = v := rfl
@[simp] theorem State.setXfers_draws (v : List (Option Byte)) : (s.setXfers v).draws = s.draws := rfl
@[simp] theorem State.setXfers_requests (v : List (Option Byte)) : (s.setXfers v).requests = s.requests := rfl
@[simp] theorem State.setXfers_faultMark (v : List (Option Byte)) : (s.setXfers v).faultMark = s.faultMark := rfl

/-! `setOpens` writes one field. -/

@[simp] theorem State.setOpens_lifecycle (v : List Bool) : (s.setOpens v).lifecycle = s.lifecycle := rfl
@[simp] theorem State.setOpens_width (v : List Bool) : (s.setOpens v).width = s.width := rfl
@[simp] theorem State.setOpens_height (v : List Bool) : (s.setOpens v).height = s.height := rfl
@[simp] theorem State.setOpens_rotation (v : List Bool) : (s.setOpens v).rotation = s.rotation := rfl
@[simp] theorem State.setOpens_depth (v : List Bool) : (s.setOpens v).depth = s.depth := rfl
@[simp] theorem State.setOpens_resetLine (v : List Bool) : (s.setOpens v).resetLine = s.resetLine := rfl
@[simp] theorem State.setOpens_dcLine (v : List Bool) : (s.setOpens v).dcLine = s.dcLine := rfl
@[simp] theorem State.setOpens_csLine (v : List Bool) : (s.setOpens v).csLine = s.csLine := rfl
@[simp] theorem State.setOpens_session (v : List Bool) : (s.setOpens v).session = s.session := rfl
@[simp] theorem State.setOpens_wmode (v : List Bool) : (s.setOpens v).wmode = s.wmode := rfl
@[simp] theorem State.setOpens_trace (v : List Bool) : (s.setOpens v).trace = s.trace := rfl
@[simp] theorem State.setOpens_result (v : List Bool) : (s.setOpens v).result = s.result := rfl
@[simp] theorem State.setOpens_panel (v : List Bool) : (s.setOpens v).panel = s.panel := rfl
@[simp] theorem State.setOpens_cfg (v : List Bool) : (s.setOpens v).cfg = s.cfg := rfl
@[simp] theorem State.setOpens_src (v : List Bool) : (s.setOpens v).src = s.src := rfl
@[simp] theorem State.setOpens_opens (v : List Bool) : (s.setOpens v).opens = v := rfl
@[simp] theorem State.setOpens_xfers (v : List Bool) : (s.setOpens v).xfers = s.xfers := rfl
@[simp] theorem State.setOpens_draws (v : List Bool) : (s.setOpens v).draws = s.draws := rfl
@[simp] theorem State.setOpens_requests (v : List Bool) : (s.setOpens v).requests = s.requests := rfl
@[simp] theorem State.setOpens_faultMark (v : List Bool) : (s.setOpens v).faultMark = s.faultMark := rfl

/-! `setPanel` writes one field. -/

@[simp] theorem State.setPanel_lifecycle (v : Panel) : (s.setPanel v).lifecycle = s.lifecycle := rfl
@[simp] theorem State.setPanel_width (v : Panel) : (s.setPanel v).width = s.width := rfl
@[simp] theorem State.setPanel_height (v : Panel) : (s.setPanel v).height = s.height := rfl
@[simp] theorem State.setPanel_rotation (v : Panel) : (s.setPanel v).rotation = s.rotation := rfl
@[simp] theorem State.setPanel_depth (v : Panel) : (s.setPanel v).depth = s.depth := rfl
@[simp] theorem State.setPanel_resetLine (v : Panel) : (s.setPanel v).resetLine = s.resetLine := rfl
@[simp] theorem State.setPanel_dcLine (v : Panel) : (s.setPanel v).dcLine = s.dcLine := rfl
@[simp] theorem State.setPanel_csLine (v : Panel) : (s.setPanel v).csLine = s.csLine := rfl
@[simp] theorem State.setPanel_session (v : Panel) : (s.setPanel v).session = s.session := rfl
@[simp] theorem State.setPanel_wmode (v : Panel) : (s.setPanel v).wmode = s.wmode := rfl
@[simp] theorem State.setPanel_trace (v : Panel) : (s.setPanel v).trace = s.trace := rfl
@[simp] theorem State.setPanel_result (v : Panel) : (s.setPanel v).result = s.result := rfl
@[simp] theorem State.setPanel_panel (v : Panel) : (s.setPanel v).panel = v := rfl
@[simp] theorem State.setPanel_cfg (v : Panel) : (s.setPanel v).cfg = s.cfg := rfl
@[simp] theorem State.setPanel_src (v : Panel) : (s.setPanel v).src = s.src := rfl
@[simp] theorem State.setPanel_opens (v : Panel) : (s.setPanel v).opens = s.opens := rfl
@[simp] theorem State.setPanel_xfers (v : Panel) : (s.setPanel v).xfers = s.xfers := rfl
@[simp] theorem State.setPanel_draws (v : Panel) : (s.setPanel v).draws = s.draws := rfl
@[simp] theorem State.setPanel_requests (v : Panel) : (s.setPanel v).requests = s.requests := rfl
@[simp] theorem State.setPanel_faultMark (v : Panel) : (s.setPanel v).faultMark = s.faultMark := rfl

/-! `setRequests` writes one field. -/

@[simp] theorem State.setRequests_lifecycle (v : List Request) : (s.setRequests v).lifecycle = s.lifecycle := rfl
@[simp] theorem State.setRequests_width (v : List Request) : (s.setRequests v).width = s.width := rfl
@[simp] theorem State.setRequests_height (v : List Request) : (s.setRequests v).height = s.height := rfl
@[simp] theorem State.setRequests_rotation (v : List Request) : (s.setRequests v).rotation = s.rotation := rfl
@[simp] theorem State.setRequests_depth (v : List Request) : (s.setRequests v).depth = s.depth := rfl
@[simp] theorem State.setRequests_resetLine (v : List Request) : (s.setRequests v).resetLine = s.resetLine := rfl
@[simp] theorem State.setRequests_dcLine (v : List Request) : (s.setRequests v).dcLine = s.dcLine := rfl
@[simp] theorem State.setRequests_csLine (v : List Request) : (s.setRequests v).csLine = s.csLine := rfl
@[simp] theorem State.setRequests_session (v : List Request) : (s.setRequests v).session = s.session := rfl
@[simp] theorem State.setRequests_wmode (v : List Request) : (s.setRequests v).wmode = s.wmode := rfl
@[simp] theorem State.setRequests_trace (v : List Request) : (s.setRequests v).trace = s.trace := rfl
@[simp] theorem State.setRequests_result (v : List Request) : (s.setRequests v).result = s.result := rfl
@[simp] theorem State.setRequests_panel (v : List Request) : (s.setRequests v).panel = s.panel := rfl
@[simp] theorem State.setRequests_cfg (v : List Request) : (s.setRequests v).cfg = s.cfg := rfl
@[simp] theorem State.setRequests_src (v : List Request) : (s.setRequests v).src = s.src := rfl
@[simp] theorem State.setRequests_opens (v : List Request) : (s.setRequests v).opens = s.opens := rfl
@[simp] theorem State.setRequests_xfers (v : List Request) : (s.setRequests v).xfers = s.xfers := rfl
@[simp] theorem State.setRequests_draws (v : List Request) : (s.setRequests v).draws = s.draws := rfl
@[simp] theorem State.setRequests_requests (v : List Request) : (s.setRequests v).requests = v := rfl
@[simp] theorem State.setRequests_faultMark (v : List Request) : (s.setRequests v).faultMark = s.faultMark := rfl

/-! `tick` counts a draw. -/

@[simp] theorem State.tick_lifecycle : (s.tick).lifecycle = s.lifecycle := rfl
@[simp] theorem State.tick_width : (s.tick).width = s.width := rfl
@[simp] theorem State.tick_height : (s.tick).height = s.height := rfl
@[simp] theorem State.tick_rotation : (s.tick).rotation = s.rotation := rfl
@[simp] theorem State.tick_depth : (s.tick).depth = s.depth := rfl
@[simp] theorem State.tick_resetLine : (s.tick).resetLine = s.resetLine := rfl
@[simp] theorem State.tick_dcLine : (s.tick).dcLine = s.dcLine := rfl
@[simp] theorem State.tick_csLine : (s.tick).csLine = s.csLine := rfl
@[simp] theorem State.tick_session : (s.tick).session = s.session := rfl
@[simp] theorem State.tick_wmode : (s.tick).wmode = s.wmode := rfl
@[simp] theorem State.tick_trace : (s.tick).trace = s.trace := rfl
@[simp] theorem State.tick_result : (s.tick).result = s.result := rfl
@[simp] theorem State.tick_panel : (s.tick).panel = s.panel := rfl
@[simp] theorem State.tick_cfg : (s.tick).cfg = s.cfg := rfl
@[simp] theorem State.tick_src : (s.tick).src = s.src := rfl
@[simp] theorem State.tick_opens : (s.tick).opens = s.opens := rfl
@[simp] theorem State.tick_xfers : (s.tick).xfers = s.xfers := rfl
@[simp] theorem State.tick_draws : (s.tick).draws = s.draws + 1 := rfl
@[simp] theorem State.tick_requests : (s.tick).requests = s.requests := rfl
@[simp] theorem State.tick_faultMark : (s.tick).faultMark = s.faultMark := rfl

/-! `emit` changes the trace, the panel and the counter of the draws. -/

@[simp] theorem State.emit_lifecycle (e : Event) : (s.emit e).lifecycle = s.lifecycle := rfl
@[simp] theorem State.emit_width (e : Event) : (s.emit e).width = s.width := rfl
@[simp] theorem State.emit_height (e : Event) : (s.emit e).height = s.height := rfl
@[simp] theorem State.emit_rotation (e : Event) : (s.emit e).rotation = s.rotation := rfl
@[simp] theorem State.emit_depth (e : Event) : (s.emit e).depth = s.depth := rfl
@[simp] theorem State.emit_resetLine (e : Event) : (s.emit e).resetLine = s.resetLine := rfl
@[simp] theorem State.emit_dcLine (e : Event) : (s.emit e).dcLine = s.dcLine := rfl
@[simp] theorem State.emit_csLine (e : Event) : (s.emit e).csLine = s.csLine := rfl
@[simp] theorem State.emit_session (e : Event) : (s.emit e).session = s.session := rfl
@[simp] theorem State.emit_wmode (e : Event) : (s.emit e).wmode = s.wmode := rfl
@[simp] theorem State.emit_trace (e : Event) : (s.emit e).trace = s.trace ++ [e] := rfl
@[simp] theorem State.emit_result (e : Event) : (s.emit e).result = s.result := rfl
@[simp] theorem State.emit_panel (e : Event) : (s.emit e).panel = s.panel.onEvent s.cfg s.width s.height s.csLine s.dcLine s.draws e := rfl
@[simp] theorem State.emit_cfg (e : Event) : (s.emit e).cfg = s.cfg := rfl
@[simp] theorem State.emit_src (e : Event) : (s.emit e).src = s.src := rfl
@[simp] theorem State.emit_opens (e : Event) : (s.emit e).opens = s.opens := rfl
@[simp] theorem State.emit_xfers (e : Event) : (s.emit e).xfers = s.xfers := rfl
@[simp] theorem State.emit_draws (e : Event) : (s.emit e).draws = s.draws + 1 := rfl
@[simp] theorem State.emit_requests (e : Event) : (s.emit e).requests = s.requests := rfl
@[simp] theorem State.emit_faultMark (e : Event) : (s.emit e).faultMark = s.faultMark := rfl

/-! `drive .reset v` writes the latch and emits the event. -/

@[simp] theorem State.driveReset_lifecycle (v : Level) : (s.drive .reset v).lifecycle = s.lifecycle := rfl
@[simp] theorem State.driveReset_width (v : Level) : (s.drive .reset v).width = s.width := rfl
@[simp] theorem State.driveReset_height (v : Level) : (s.drive .reset v).height = s.height := rfl
@[simp] theorem State.driveReset_rotation (v : Level) : (s.drive .reset v).rotation = s.rotation := rfl
@[simp] theorem State.driveReset_depth (v : Level) : (s.drive .reset v).depth = s.depth := rfl
@[simp] theorem State.driveReset_resetLine (v : Level) : (s.drive .reset v).resetLine = .driven v := rfl
@[simp] theorem State.driveReset_dcLine (v : Level) : (s.drive .reset v).dcLine = s.dcLine := rfl
@[simp] theorem State.driveReset_csLine (v : Level) : (s.drive .reset v).csLine = s.csLine := rfl
@[simp] theorem State.driveReset_session (v : Level) : (s.drive .reset v).session = s.session := rfl
@[simp] theorem State.driveReset_wmode (v : Level) : (s.drive .reset v).wmode = s.wmode := rfl
@[simp] theorem State.driveReset_trace (v : Level) : (s.drive .reset v).trace = s.trace ++ [.line .reset v] := rfl
@[simp] theorem State.driveReset_result (v : Level) : (s.drive .reset v).result = s.result := rfl
@[simp] theorem State.driveReset_panel (v : Level) : (s.drive .reset v).panel = s.panel.onEvent s.cfg s.width s.height s.csLine s.dcLine s.draws (.line .reset v) := rfl
@[simp] theorem State.driveReset_cfg (v : Level) : (s.drive .reset v).cfg = s.cfg := rfl
@[simp] theorem State.driveReset_src (v : Level) : (s.drive .reset v).src = s.src := rfl
@[simp] theorem State.driveReset_opens (v : Level) : (s.drive .reset v).opens = s.opens := rfl
@[simp] theorem State.driveReset_xfers (v : Level) : (s.drive .reset v).xfers = s.xfers := rfl
@[simp] theorem State.driveReset_draws (v : Level) : (s.drive .reset v).draws = s.draws + 1 := rfl
@[simp] theorem State.driveReset_requests (v : Level) : (s.drive .reset v).requests = s.requests := rfl
@[simp] theorem State.driveReset_faultMark (v : Level) : (s.drive .reset v).faultMark = s.faultMark := rfl

/-! `drive .dc v` writes the latch and emits the event. -/

@[simp] theorem State.driveDc_lifecycle (v : Level) : (s.drive .dc v).lifecycle = s.lifecycle := rfl
@[simp] theorem State.driveDc_width (v : Level) : (s.drive .dc v).width = s.width := rfl
@[simp] theorem State.driveDc_height (v : Level) : (s.drive .dc v).height = s.height := rfl
@[simp] theorem State.driveDc_rotation (v : Level) : (s.drive .dc v).rotation = s.rotation := rfl
@[simp] theorem State.driveDc_depth (v : Level) : (s.drive .dc v).depth = s.depth := rfl
@[simp] theorem State.driveDc_resetLine (v : Level) : (s.drive .dc v).resetLine = s.resetLine := rfl
@[simp] theorem State.driveDc_dcLine (v : Level) : (s.drive .dc v).dcLine = .driven v := rfl
@[simp] theorem State.driveDc_csLine (v : Level) : (s.drive .dc v).csLine = s.csLine := rfl
@[simp] theorem State.driveDc_session (v : Level) : (s.drive .dc v).session = s.session := rfl
@[simp] theorem State.driveDc_wmode (v : Level) : (s.drive .dc v).wmode = s.wmode := rfl
@[simp] theorem State.driveDc_trace (v : Level) : (s.drive .dc v).trace = s.trace ++ [.line .dc v] := rfl
@[simp] theorem State.driveDc_result (v : Level) : (s.drive .dc v).result = s.result := rfl
@[simp] theorem State.driveDc_panel (v : Level) : (s.drive .dc v).panel = s.panel.onEvent s.cfg s.width s.height s.csLine (.driven v) s.draws (.line .dc v) := rfl
@[simp] theorem State.driveDc_cfg (v : Level) : (s.drive .dc v).cfg = s.cfg := rfl
@[simp] theorem State.driveDc_src (v : Level) : (s.drive .dc v).src = s.src := rfl
@[simp] theorem State.driveDc_opens (v : Level) : (s.drive .dc v).opens = s.opens := rfl
@[simp] theorem State.driveDc_xfers (v : Level) : (s.drive .dc v).xfers = s.xfers := rfl
@[simp] theorem State.driveDc_draws (v : Level) : (s.drive .dc v).draws = s.draws + 1 := rfl
@[simp] theorem State.driveDc_requests (v : Level) : (s.drive .dc v).requests = s.requests := rfl
@[simp] theorem State.driveDc_faultMark (v : Level) : (s.drive .dc v).faultMark = s.faultMark := rfl

/-! `drive .cs v` writes the latch and emits the event. -/

@[simp] theorem State.driveCs_lifecycle (v : Level) : (s.drive .cs v).lifecycle = s.lifecycle := rfl
@[simp] theorem State.driveCs_width (v : Level) : (s.drive .cs v).width = s.width := rfl
@[simp] theorem State.driveCs_height (v : Level) : (s.drive .cs v).height = s.height := rfl
@[simp] theorem State.driveCs_rotation (v : Level) : (s.drive .cs v).rotation = s.rotation := rfl
@[simp] theorem State.driveCs_depth (v : Level) : (s.drive .cs v).depth = s.depth := rfl
@[simp] theorem State.driveCs_resetLine (v : Level) : (s.drive .cs v).resetLine = s.resetLine := rfl
@[simp] theorem State.driveCs_dcLine (v : Level) : (s.drive .cs v).dcLine = s.dcLine := rfl
@[simp] theorem State.driveCs_csLine (v : Level) : (s.drive .cs v).csLine = .driven v := rfl
@[simp] theorem State.driveCs_session (v : Level) : (s.drive .cs v).session = s.session := rfl
@[simp] theorem State.driveCs_wmode (v : Level) : (s.drive .cs v).wmode = s.wmode := rfl
@[simp] theorem State.driveCs_trace (v : Level) : (s.drive .cs v).trace = s.trace ++ [.line .cs v] := rfl
@[simp] theorem State.driveCs_result (v : Level) : (s.drive .cs v).result = s.result := rfl
@[simp] theorem State.driveCs_panel (v : Level) : (s.drive .cs v).panel = s.panel.onEvent s.cfg s.width s.height (.driven v) s.dcLine s.draws (.line .cs v) := rfl
@[simp] theorem State.driveCs_cfg (v : Level) : (s.drive .cs v).cfg = s.cfg := rfl
@[simp] theorem State.driveCs_src (v : Level) : (s.drive .cs v).src = s.src := rfl
@[simp] theorem State.driveCs_opens (v : Level) : (s.drive .cs v).opens = s.opens := rfl
@[simp] theorem State.driveCs_xfers (v : Level) : (s.drive .cs v).xfers = s.xfers := rfl
@[simp] theorem State.driveCs_draws (v : Level) : (s.drive .cs v).draws = s.draws + 1 := rfl
@[simp] theorem State.driveCs_requests (v : Level) : (s.drive .cs v).requests = s.requests := rfl
@[simp] theorem State.driveCs_faultMark (v : Level) : (s.drive .cs v).faultMark = s.faultMark := rfl

/-! `complete` writes the result and the mark. -/

@[simp] theorem State.complete_lifecycle (e : Status) (v : Half) : (s.complete e v).lifecycle = s.lifecycle := rfl
@[simp] theorem State.complete_width (e : Status) (v : Half) : (s.complete e v).width = s.width := rfl
@[simp] theorem State.complete_height (e : Status) (v : Half) : (s.complete e v).height = s.height := rfl
@[simp] theorem State.complete_rotation (e : Status) (v : Half) : (s.complete e v).rotation = s.rotation := rfl
@[simp] theorem State.complete_depth (e : Status) (v : Half) : (s.complete e v).depth = s.depth := rfl
@[simp] theorem State.complete_resetLine (e : Status) (v : Half) : (s.complete e v).resetLine = s.resetLine := rfl
@[simp] theorem State.complete_dcLine (e : Status) (v : Half) : (s.complete e v).dcLine = s.dcLine := rfl
@[simp] theorem State.complete_csLine (e : Status) (v : Half) : (s.complete e v).csLine = s.csLine := rfl
@[simp] theorem State.complete_session (e : Status) (v : Half) : (s.complete e v).session = s.session := rfl
@[simp] theorem State.complete_wmode (e : Status) (v : Half) : (s.complete e v).wmode = s.wmode := rfl
@[simp] theorem State.complete_trace (e : Status) (v : Half) : (s.complete e v).trace = s.trace := rfl
@[simp] theorem State.complete_result (e : Status) (v : Half) : (s.complete e v).result = some ⟨e, v⟩ := rfl
@[simp] theorem State.complete_panel (e : Status) (v : Half) : (s.complete e v).panel = s.panel := rfl
@[simp] theorem State.complete_cfg (e : Status) (v : Half) : (s.complete e v).cfg = s.cfg := rfl
@[simp] theorem State.complete_src (e : Status) (v : Half) : (s.complete e v).src = s.src := rfl
@[simp] theorem State.complete_opens (e : Status) (v : Half) : (s.complete e v).opens = s.opens := rfl
@[simp] theorem State.complete_xfers (e : Status) (v : Half) : (s.complete e v).xfers = s.xfers := rfl
@[simp] theorem State.complete_draws (e : Status) (v : Half) : (s.complete e v).draws = s.draws := rfl
@[simp] theorem State.complete_requests (e : Status) (v : Half) : (s.complete e v).requests = s.requests := rfl
@[simp] theorem State.complete_faultMark (e : Status) (v : Half) : (s.complete e v).faultMark = (s.faultMark || e.isMisuse) := rfl

/-! `raise` is `complete` with the value 0. -/

@[simp] theorem State.raise_lifecycle (e : Status) : (s.raise e).lifecycle = s.lifecycle := rfl
@[simp] theorem State.raise_width (e : Status) : (s.raise e).width = s.width := rfl
@[simp] theorem State.raise_height (e : Status) : (s.raise e).height = s.height := rfl
@[simp] theorem State.raise_rotation (e : Status) : (s.raise e).rotation = s.rotation := rfl
@[simp] theorem State.raise_depth (e : Status) : (s.raise e).depth = s.depth := rfl
@[simp] theorem State.raise_resetLine (e : Status) : (s.raise e).resetLine = s.resetLine := rfl
@[simp] theorem State.raise_dcLine (e : Status) : (s.raise e).dcLine = s.dcLine := rfl
@[simp] theorem State.raise_csLine (e : Status) : (s.raise e).csLine = s.csLine := rfl
@[simp] theorem State.raise_session (e : Status) : (s.raise e).session = s.session := rfl
@[simp] theorem State.raise_wmode (e : Status) : (s.raise e).wmode = s.wmode := rfl
@[simp] theorem State.raise_trace (e : Status) : (s.raise e).trace = s.trace := rfl
@[simp] theorem State.raise_result (e : Status) : (s.raise e).result = some ⟨e, 0⟩ := rfl
@[simp] theorem State.raise_panel (e : Status) : (s.raise e).panel = s.panel := rfl
@[simp] theorem State.raise_cfg (e : Status) : (s.raise e).cfg = s.cfg := rfl
@[simp] theorem State.raise_src (e : Status) : (s.raise e).src = s.src := rfl
@[simp] theorem State.raise_opens (e : Status) : (s.raise e).opens = s.opens := rfl
@[simp] theorem State.raise_xfers (e : Status) : (s.raise e).xfers = s.xfers := rfl
@[simp] theorem State.raise_draws (e : Status) : (s.raise e).draws = s.draws := rfl
@[simp] theorem State.raise_requests (e : Status) : (s.raise e).requests = s.requests := rfl
@[simp] theorem State.raise_faultMark (e : Status) : (s.raise e).faultMark = (s.faultMark || e.isMisuse) := rfl

/-! `setSurface` writes the three surface registers. -/

@[simp] theorem State.setSurface_lifecycle (m : Byte) : (s.setSurface m).lifecycle = s.lifecycle := rfl
@[simp] theorem State.setSurface_width (m : Byte) : (s.setSurface m).width = widthOf s.cfg m := rfl
@[simp] theorem State.setSurface_height (m : Byte) : (s.setSurface m).height = heightOf s.cfg m := rfl
@[simp] theorem State.setSurface_rotation (m : Byte) : (s.setSurface m).rotation = m := rfl
@[simp] theorem State.setSurface_depth (m : Byte) : (s.setSurface m).depth = s.depth := rfl
@[simp] theorem State.setSurface_resetLine (m : Byte) : (s.setSurface m).resetLine = s.resetLine := rfl
@[simp] theorem State.setSurface_dcLine (m : Byte) : (s.setSurface m).dcLine = s.dcLine := rfl
@[simp] theorem State.setSurface_csLine (m : Byte) : (s.setSurface m).csLine = s.csLine := rfl
@[simp] theorem State.setSurface_session (m : Byte) : (s.setSurface m).session = s.session := rfl
@[simp] theorem State.setSurface_wmode (m : Byte) : (s.setSurface m).wmode = s.wmode := rfl
@[simp] theorem State.setSurface_trace (m : Byte) : (s.setSurface m).trace = s.trace := rfl
@[simp] theorem State.setSurface_result (m : Byte) : (s.setSurface m).result = s.result := rfl
@[simp] theorem State.setSurface_panel (m : Byte) : (s.setSurface m).panel = s.panel := rfl
@[simp] theorem State.setSurface_cfg (m : Byte) : (s.setSurface m).cfg = s.cfg := rfl
@[simp] theorem State.setSurface_src (m : Byte) : (s.setSurface m).src = s.src := rfl
@[simp] theorem State.setSurface_opens (m : Byte) : (s.setSurface m).opens = s.opens := rfl
@[simp] theorem State.setSurface_xfers (m : Byte) : (s.setSurface m).xfers = s.xfers := rfl
@[simp] theorem State.setSurface_draws (m : Byte) : (s.setSurface m).draws = s.draws := rfl
@[simp] theorem State.setSurface_requests (m : Byte) : (s.setSurface m).requests = s.requests := rfl
@[simp] theorem State.setSurface_faultMark (m : Byte) : (s.setSurface m).faultMark = s.faultMark := rfl

/-! `recordReady` writes the native surface, the lifecycle and the initialised panel. -/

@[simp] theorem State.recordReady_lifecycle : (s.recordReady).lifecycle = .ready := rfl
@[simp] theorem State.recordReady_width : (s.recordReady).width = s.cfg.w0 := rfl
@[simp] theorem State.recordReady_height : (s.recordReady).height = s.cfg.h0 := rfl
@[simp] theorem State.recordReady_rotation : (s.recordReady).rotation = 0 := rfl
@[simp] theorem State.recordReady_depth : (s.recordReady).depth = s.depth := rfl
@[simp] theorem State.recordReady_resetLine : (s.recordReady).resetLine = s.resetLine := rfl
@[simp] theorem State.recordReady_dcLine : (s.recordReady).dcLine = s.dcLine := rfl
@[simp] theorem State.recordReady_csLine : (s.recordReady).csLine = s.csLine := rfl
@[simp] theorem State.recordReady_session : (s.recordReady).session = s.session := rfl
@[simp] theorem State.recordReady_wmode : (s.recordReady).wmode = s.wmode := rfl
@[simp] theorem State.recordReady_trace : (s.recordReady).trace = s.trace := rfl
@[simp] theorem State.recordReady_result : (s.recordReady).result = s.result := rfl
@[simp] theorem State.recordReady_panel : (s.recordReady).panel = .initialised s.draws := rfl
@[simp] theorem State.recordReady_cfg : (s.recordReady).cfg = s.cfg := rfl
@[simp] theorem State.recordReady_src : (s.recordReady).src = s.src := rfl
@[simp] theorem State.recordReady_opens : (s.recordReady).opens = s.opens := rfl
@[simp] theorem State.recordReady_xfers : (s.recordReady).xfers = s.xfers := rfl
@[simp] theorem State.recordReady_draws : (s.recordReady).draws = s.draws + 1 := rfl
@[simp] theorem State.recordReady_requests : (s.recordReady).requests = s.requests := rfl
@[simp] theorem State.recordReady_faultMark : (s.recordReady).faultMark = s.faultMark := rfl

/-! `streamHazard` touches the panel and the counter of the draws. -/

@[simp] theorem State.streamHazard_lifecycle : (s.streamHazard).lifecycle = s.lifecycle := by unfold State.streamHazard; split <;> rfl
@[simp] theorem State.streamHazard_width : (s.streamHazard).width = s.width := by unfold State.streamHazard; split <;> rfl
@[simp] theorem State.streamHazard_height : (s.streamHazard).height = s.height := by unfold State.streamHazard; split <;> rfl
@[simp] theorem State.streamHazard_rotation : (s.streamHazard).rotation = s.rotation := by unfold State.streamHazard; split <;> rfl
@[simp] theorem State.streamHazard_depth : (s.streamHazard).depth = s.depth := by unfold State.streamHazard; split <;> rfl
@[simp] theorem State.streamHazard_resetLine : (s.streamHazard).resetLine = s.resetLine := by unfold State.streamHazard; split <;> rfl
@[simp] theorem State.streamHazard_dcLine : (s.streamHazard).dcLine = s.dcLine := by unfold State.streamHazard; split <;> rfl
@[simp] theorem State.streamHazard_csLine : (s.streamHazard).csLine = s.csLine := by unfold State.streamHazard; split <;> rfl
@[simp] theorem State.streamHazard_session : (s.streamHazard).session = s.session := by unfold State.streamHazard; split <;> rfl
@[simp] theorem State.streamHazard_wmode : (s.streamHazard).wmode = s.wmode := by unfold State.streamHazard; split <;> rfl
@[simp] theorem State.streamHazard_trace : (s.streamHazard).trace = s.trace := by unfold State.streamHazard; split <;> rfl
@[simp] theorem State.streamHazard_result : (s.streamHazard).result = s.result := by unfold State.streamHazard; split <;> rfl
@[simp] theorem State.streamHazard_panel : (s.streamHazard).panel = (if s.wmode then s.panel else .lost s.draws) := by unfold State.streamHazard; split <;> rfl
@[simp] theorem State.streamHazard_cfg : (s.streamHazard).cfg = s.cfg := by unfold State.streamHazard; split <;> rfl
@[simp] theorem State.streamHazard_src : (s.streamHazard).src = s.src := by unfold State.streamHazard; split <;> rfl
@[simp] theorem State.streamHazard_opens : (s.streamHazard).opens = s.opens := by unfold State.streamHazard; split <;> rfl
@[simp] theorem State.streamHazard_xfers : (s.streamHazard).xfers = s.xfers := by unfold State.streamHazard; split <;> rfl
@[simp] theorem State.streamHazard_draws : (s.streamHazard).draws = (if s.wmode then s.draws else s.draws + 1) := by unfold State.streamHazard; split <;> rfl
@[simp] theorem State.streamHazard_requests : (s.streamHazard).requests = s.requests := by unfold State.streamHazard; split <;> rfl
@[simp] theorem State.streamHazard_faultMark : (s.streamHazard).faultMark = s.faultMark := by unfold State.streamHazard; split <;> rfl

end

end Sys2Proof.Machine
end

