-- ==== Sys2Proof/Laws/Ops.lean ====
section
/-! SUPPORT. What each shared operation can do, said once: the exchange, the walk, the bracket. Later proofs cite these
and do not unfold the operations. -/

namespace Sys2Proof.Machine

/-- What a walk leaves alone: everything but the trace, the panel, the draws, `DC` and `WMODE`. -/
structure OnWire (s t : State) : Prop where
  lifecycle : t.lifecycle = s.lifecycle
  width : t.width = s.width
  height : t.height = s.height
  rotation : t.rotation = s.rotation
  depth : t.depth = s.depth
  resetLine : t.resetLine = s.resetLine
  csLine : t.csLine = s.csLine
  session : t.session = s.session
  result : t.result = s.result
  cfg : t.cfg = s.cfg
  src : t.src = s.src
  opens : t.opens = s.opens
  requests : t.requests = s.requests
  faultMark : t.faultMark = s.faultMark

theorem OnWire.refl (s : State) : OnWire s s := by constructor <;> rfl

theorem OnWire.trans {s t u : State} (h : OnWire s t) (g : OnWire t u) : OnWire s u where
  lifecycle := g.lifecycle.trans h.lifecycle
  width := g.width.trans h.width
  height := g.height.trans h.height
  rotation := g.rotation.trans h.rotation
  depth := g.depth.trans h.depth
  resetLine := g.resetLine.trans h.resetLine
  csLine := g.csLine.trans h.csLine
  session := g.session.trans h.session
  result := g.result.trans h.result
  cfg := g.cfg.trans h.cfg
  src := g.src.trans h.src
  opens := g.opens.trans h.opens
  requests := g.requests.trans h.requests
  faultMark := g.faultMark.trans h.faultMark

theorem emit_onWire (s : State) (e : Event) : OnWire s (s.emit e) := by constructor <;> rfl

theorem driveDc_onWire (s : State) (v : Level) : OnWire s (s.drive .dc v) := by constructor <;> rfl

theorem streamHazard_onWire (s : State) : OnWire s s.streamHazard := by constructor <;> simp

/-! The exchange. -/

theorem drawXfer_onWire (s : State) : OnWire s (drawXfer s).2 := by
  unfold drawXfer; split <;> constructor <;> rfl

@[simp] theorem drawXfer_trace (s : State) : (drawXfer s).2.trace = s.trace := by unfold drawXfer; split <;> rfl
@[simp] theorem drawXfer_panel (s : State) : (drawXfer s).2.panel = s.panel := by unfold drawXfer; split <;> rfl
@[simp] theorem drawXfer_dcLine (s : State) : (drawXfer s).2.dcLine = s.dcLine := by unfold drawXfer; split <;> rfl
@[simp] theorem drawXfer_csLine (s : State) : (drawXfer s).2.csLine = s.csLine := by unfold drawXfer; split <;> rfl
@[simp] theorem drawXfer_wmode (s : State) : (drawXfer s).2.wmode = s.wmode := by unfold drawXfer; split <;> rfl

/-- Everything an exchange can do (40_transport.md R112). -/
theorem xferByte_cases (b : Byte) (s : State) :
    (s.session ≠ .opened ∧ xferByte b s = (.error .notReady, s)) ∨
    (s.session = .opened ∧ ∃ r, (drawXfer s).1 = some r ∧ xferByte b s = (.ok r, (drawXfer s).2.emit (.xfer b r))) ∨
    (s.session = .opened ∧ (drawXfer s).1 = none ∧
      xferByte b s = (.error .transferFailure, ((drawXfer s).2.emit (.xferFail b)).setWmode false)) := by
  unfold xferByte
  by_cases h : s.session = .opened
  · rcases hd : drawXfer s with ⟨_ | r, t⟩
    · exact .inr (.inr ⟨h, rfl, by simp [h]⟩)
    · exact .inr (.inl ⟨h, r, rfl, by simp [h]⟩)
  · exact .inl ⟨h, by simp [h]⟩

theorem xferByte_onWire (b : Byte) (s : State) : OnWire s (xferByte b s).2 := by
  rcases xferByte_cases b s with ⟨_, h⟩ | ⟨_, r, _, h⟩ | ⟨_, _, h⟩ <;> rw [h]
  · exact .refl s
  · exact (drawXfer_onWire s).trans (emit_onWire _ _)
  · exact (drawXfer_onWire s).trans (by constructor <;> rfl)

theorem data8_snd (b : Byte) (s : State) : (data8 b s).2 = (xferByte b s).2 := by
  unfold data8; rcases xferByte b s with ⟨_ | _, _⟩ <;> rfl

theorem data8_onWire (b : Byte) (s : State) : OnWire s (data8 b s).2 := data8_snd b s ▸ xferByte_onWire b s

/-- A procedure after another keeps what both keep. -/
theorem andThen_onWire {p q : Proc} (hp : ∀ s, OnWire s (p s).2) (hq : ∀ s, OnWire s (q s).2) (s : State) :
    OnWire s (p.andThen q s).2 := by
  have h := hp s
  unfold Proc.andThen
  rcases hps : p s with ⟨_ | e, t⟩ <;> rw [hps] at h
  · exact h.trans (hq t)
  · exact h

theorem data16_onWire (v : Half) (s : State) : OnWire s (data16 v s).2 :=
  andThen_onWire (data8_onWire _) (data8_onWire _) s

theorem writeCommand_onWire (c : Byte) (s : State) : OnWire s (writeCommand c s).2 := by
  have h := (driveDc_onWire s .low).trans (xferByte_onWire c (s.drive .dc .low))
  unfold writeCommand
  rcases hx : xferByte c (s.drive .dc .low) with ⟨e | r, t⟩ <;> rw [hx] at h <;>
    exact h.trans (by constructor <;> simp)

theorem writePixel_onWire (c : Colour) (s : State) : OnWire s (writePixel c s).2 :=
  (streamHazard_onWire s).trans (data16_onWire c _)

theorem runItem_onWire (i : WireItem) (s : State) : OnWire s (runItem i s).2 := by
  cases i with
  | command c => exact writeCommand_onWire c s
  | data b => exact data8_onWire b s
  | pixel c => exact writePixel_onWire c s
  | delay ms => exact emit_onWire s _

/-- A walk changes the wire and nothing else (R24, R27, R29). -/
theorem runItems_onWire (is : List WireItem) (s : State) : OnWire s (runItems is s).2 := by
  induction is generalizing s with
  | nil => exact .refl s
  | cons i is ih => exact andThen_onWire (runItem_onWire i) ih s

/-! What a walk sends when every exchange succeeds, and when one fails. -/

/-- The events of a step of a walk, without the bytes clocked in (30_encoding.md R80). -/
def WireItem.events : WireItem → List Event
  | .command c => frameEvents c []
  | .data b => byteEvents [b]
  | .pixel c => pixelEvents [c]
  | .delay ms => [.delay ms]

/-- The number of exchanges of a step of a walk. -/
def WireItem.exchanges : WireItem → Nat
  | .command _ => 1
  | .data _ => 1
  | .pixel _ => 2
  | .delay _ => 0

/-- `WMODE` after a step of a walk that did not fail. -/
def WireItem.wmode (cfg : Cfg) (w : Bool) : WireItem → Bool
  | .command c => wmodeAfter cfg c
  | .data _ => w
  | .pixel _ => w
  | .delay _ => w

/-- `DC` after a step of a walk. -/
def WireItem.dc (dc : Latch) : WireItem → Latch
  | .command _ => .driven .high
  | .data _ => dc
  | .pixel _ => dc
  | .delay _ => dc

def walkEvents (is : List WireItem) : List Event := is.flatMap WireItem.events
def walkExchanges (is : List WireItem) : Nat := (is.map WireItem.exchanges).sum
def walkWmode (cfg : Cfg) (is : List WireItem) (w : Bool) : Bool := is.foldl (fun w i => i.wmode cfg w) w
def walkDc (is : List WireItem) (dc : Latch) : Latch := is.foldl (fun d i => i.dc d) dc

@[simp] theorem walkEvents_nil : walkEvents [] = [] := rfl
@[simp] theorem walkEvents_cons (i : WireItem) (is : List WireItem) : walkEvents (i :: is) = i.events ++ walkEvents is := rfl
@[simp] theorem walkEvents_append (is js : List WireItem) : walkEvents (is ++ js) = walkEvents is ++ walkEvents js := by
  simp [walkEvents]
@[simp] theorem walkExchanges_nil : walkExchanges [] = 0 := rfl
@[simp] theorem walkExchanges_cons (i : WireItem) (is : List WireItem) :
    walkExchanges (i :: is) = i.exchanges + walkExchanges is := by simp [walkExchanges]
@[simp] theorem walkExchanges_append (is js : List WireItem) :
    walkExchanges (is ++ js) = walkExchanges is + walkExchanges js := by simp [walkExchanges]
@[simp] theorem walkWmode_nil (cfg : Cfg) (w : Bool) : walkWmode cfg [] w = w := rfl
@[simp] theorem walkWmode_cons (cfg : Cfg) (i : WireItem) (is : List WireItem) (w : Bool) :
    walkWmode cfg (i :: is) w = walkWmode cfg is (i.wmode cfg w) := rfl
@[simp] theorem walkWmode_append (cfg : Cfg) (is js : List WireItem) (w : Bool) :
    walkWmode cfg (is ++ js) w = walkWmode cfg js (walkWmode cfg is w) := by simp [walkWmode]
@[simp] theorem walkDc_nil (dc : Latch) : walkDc [] dc = dc := rfl
@[simp] theorem walkDc_cons (i : WireItem) (is : List WireItem) (dc : Latch) : walkDc (i :: is) dc = walkDc is (i.dc dc) := rfl
@[simp] theorem walkDc_append (is js : List WireItem) (dc : Latch) : walkDc (is ++ js) dc = walkDc js (walkDc is dc) := by
  simp [walkDc]

/-- `DC` is high after a walk that finds it high. -/
@[simp] theorem walkDc_high (is : List WireItem) : walkDc is (.driven .high) = .driven .high := by
  induction is with
  | nil => rfl
  | cons i is ih => cases i <;> simpa [WireItem.dc] using ih

/-- Answers for `m + n` exchanges are answers for `m`, and for `n` after them. -/
theorem answers_add {s t : State} {m n : Nat} (h : Answers s (m + n)) (ht : t.xfers = s.xfers.drop m) :
    Answers s m ∧ Answers t n := by
  obtain ⟨h1, h2⟩ := h
  have e : s.xfers.take (m + n) = s.xfers.take m ++ (s.xfers.drop m).take n := List.take_add
  rw [e, List.all_append, Bool.and_eq_true] at h2
  refine ⟨⟨by omega, h2.1⟩, ?_, ?_⟩
  · rw [ht, List.length_drop]; omega
  · rw [ht]; exact h2.2

theorem answers_one {s : State} (h : Answers s 1) : ∃ r rest, s.xfers = some r :: rest := by
  obtain ⟨h1, h2⟩ := h
  rcases hx : s.xfers with _ | ⟨_ | r, rest⟩
  · simp [hx] at h1
  · simp [hx] at h2
  · exact ⟨r, rest, rfl⟩

@[simp] theorem sent_emit (s : State) (e : Event) : (s.emit e).sent = s.sent ++ [e.sent] := by simp [State.sent]
@[simp] theorem sent_driveDc (s : State) (v : Level) : (s.drive .dc v).sent = s.sent ++ [.line .dc v] := sent_emit _ _
@[simp] theorem sent_driveCs (s : State) (v : Level) : (s.drive .cs v).sent = s.sent ++ [.line .cs v] := sent_emit _ _
@[simp] theorem sent_driveReset (s : State) (v : Level) : (s.drive .reset v).sent = s.sent ++ [.line .reset v] := sent_emit _ _

/-- An exchange the script answers with a byte. -/
theorem xferByte_script {s : State} {r : Byte} {rest : List (Option Byte)} (hs : s.session = .opened)
    (hx : s.xfers = some r :: rest) (b : Byte) :
    xferByte b s = (.ok r, (s.setXfers rest).emit (.xfer b r)) := by simp [xferByte, hs, drawXfer, hx]

/-- An exchange the script answers with a failure. -/
theorem xferByte_script_fails {s : State} {rest : List (Option Byte)} (hs : s.session = .opened)
    (hx : s.xfers = none :: rest) (b : Byte) :
    xferByte b s = (.error .transferFailure, ((s.setXfers rest).emit (.xferFail b)).setWmode false) := by
  simp [xferByte, hs, drawXfer, hx]

/-- What a procedure does when its `n` exchanges succeed. -/
structure Sends (s t : State) (n : Nat) (evs : List Event) (w : Bool) (dc : Latch) : Prop where
  sent : t.sent = s.sent ++ evs
  xfers : t.xfers = s.xfers.drop n
  wmode : t.wmode = w
  dcLine : t.dcLine = dc
  frame : OnWire s t

theorem Sends.trans {s t u : State} {m n : Nat} {e1 e2 : List Event} {w1 w2 : Bool} {d1 d2 : Latch}
    (h : Sends s t m e1 w1 d1) (g : Sends t u n e2 w2 d2) : Sends s u (m + n) (e1 ++ e2) w2 d2 where
  sent := by rw [g.sent, h.sent, List.append_assoc]
  xfers := by rw [g.xfers, h.xfers, List.drop_drop]
  wmode := g.wmode
  dcLine := g.dcLine
  frame := h.frame.trans g.frame

theorem data8_sends {s : State} (hs : s.session = .opened) (h : Answers s 1) (b : Byte) :
    ∃ t, data8 b s = (none, t) ∧ Sends s t 1 (byteEvents [b]) s.wmode s.dcLine := by
  obtain ⟨r, rest, hx⟩ := answers_one h
  refine ⟨(s.setXfers rest).emit (.xfer b r), by simp only [data8, xferByte_script hs hx], ?_⟩
  refine ⟨by simp [State.sent, byteEvents, Event.sent], by simp [hx], by simp, by simp, by constructor <;> simp⟩

/-- Two procedures in a row that both succeed. -/
theorem andThen_sends {p q : Proc} {s : State} {m n : Nat} {e1 e2 : List Event} {w1 w2 : Bool} {d1 d2 : Latch}
    (hp : ∃ t, p s = (none, t) ∧ Sends s t m e1 w1 d1)
    (hq : ∀ t, Sends s t m e1 w1 d1 → ∃ u, q t = (none, u) ∧ Sends t u n e2 w2 d2) :
    ∃ u, p.andThen q s = (none, u) ∧ Sends s u (m + n) (e1 ++ e2) w2 d2 := by
  obtain ⟨t, ht, h1⟩ := hp
  obtain ⟨u, hu, h2⟩ := hq t h1
  exact ⟨u, by simp [Proc.andThen, ht, hu], h1.trans h2⟩

theorem data16_sends {s : State} (hs : s.session = .opened) (h : Answers s 2) (v : Half) :
    ∃ t, data16 v s = (none, t) ∧ Sends s t 2 (byteEvents (halfBytes v)) s.wmode s.dcLine := by
  have h2 : Answers s (1 + 1) := h
  refine andThen_sends (m := 1) (n := 1) (e1 := byteEvents [hi8 v]) (e2 := byteEvents [lo8 v])
    (data8_sends hs (answers_add h2 (t := s.setXfers (s.xfers.drop 1)) rfl).1 _) ?_
  intro t ht
  have := data8_sends (ht.frame.session.trans hs) (answers_add h2 ht.xfers).2 (lo8 v)
  rwa [ht.wmode, ht.dcLine] at this

theorem writeCommand_sends {s : State} (hs : s.session = .opened) (h : Answers s 1) (c : Byte) :
    ∃ t, writeCommand c s = (none, t) ∧ Sends s t 1 (frameEvents c []) (wmodeAfter s.cfg c) (.driven .high) := by
  obtain ⟨r, rest, hx⟩ := answers_one h
  have hx' : (s.drive .dc .low).xfers = some r :: rest := by simp [hx]
  refine ⟨((((s.drive .dc .low).setXfers rest).emit (.xfer c r)).drive .dc .high).setWmode (wmodeAfter s.cfg c),
    by simp [writeCommand, xferByte_script (s := s.drive .dc .low) (by simpa using hs) hx'], ?_⟩
  refine ⟨?_, by simp [hx], by simp, by simp, by constructor <;> simp⟩
  simp [State.sent, frameEvents, byteEvents, Event.sent]

theorem writePixel_sends {s : State} (hs : s.session = .opened) (h : Answers s 2) (c : Colour) :
    ∃ t, writePixel c s = (none, t) ∧ Sends s t 2 (pixelEvents [c]) s.wmode s.dcLine := by
  obtain ⟨t, ht, h1⟩ := data16_sends (s := s.streamHazard) (by simpa using hs) (by simpa [Answers] using h) c
  refine ⟨t, ht, ?_⟩
  refine ⟨?_, by simpa using h1.xfers, by simpa using h1.wmode, by simpa using h1.dcLine,
    (streamHazard_onWire s).trans h1.frame⟩
  simpa [State.sent, pixelEvents] using h1.sent

theorem runItem_sends {s : State} (hs : s.session = .opened) (i : WireItem) (h : Answers s i.exchanges) :
    ∃ t, runItem i s = (none, t) ∧ Sends s t i.exchanges i.events (i.wmode s.cfg s.wmode) (i.dc s.dcLine) := by
  cases i with
  | command c => exact writeCommand_sends hs h c
  | data b => exact data8_sends hs h b
  | pixel c => exact writePixel_sends hs h c
  | delay ms =>
    exact ⟨_, rfl, by simp [WireItem.events, State.wait, Event.sent], by simp [State.wait, WireItem.exchanges],
      by simp [State.wait, WireItem.wmode], by simp [State.wait, WireItem.dc], emit_onWire s _⟩

/-- What a walk does when the environment answers all its exchanges with success (30_encoding.md R80, R81). -/
theorem runItems_sends (is : List WireItem) {s : State} (hs : s.session = .opened) (h : Answers s (walkExchanges is)) :
    ∃ t, runItems is s = (none, t) ∧
      Sends s t (walkExchanges is) (walkEvents is) (walkWmode s.cfg is s.wmode) (walkDc is s.dcLine) := by
  induction is generalizing s with
  | nil => exact ⟨s, rfl, by simp, by simp, rfl, rfl, .refl s⟩
  | cons i is ih =>
    rw [walkExchanges_cons] at h ⊢
    refine andThen_sends (runItem_sends hs i (answers_add h (t := s.setXfers (s.xfers.drop i.exchanges)) rfl).1) ?_
    intro t ht
    have := ih (ht.frame.session.trans hs) (answers_add h ht.xfers).2
    rwa [ht.wmode, ht.dcLine, ht.frame.cfg] at this

/-! What a walk does when an exchange fails (60_exceptions.md R248). -/

/-- The number of exchanges among events. -/
def xferCount (es : List Event) : Nat := es.countP fun e => match e with | .xfer _ _ => true | _ => false

@[simp] theorem xferCount_nil : xferCount [] = 0 := rfl
@[simp] theorem xferCount_xfer (b r : Byte) (es : List Event) : xferCount (.xfer b r :: es) = xferCount es + 1 := by
  simp [xferCount]
@[simp] theorem xferCount_line (l : Line) (v : Level) (es : List Event) : xferCount (.line l v :: es) = xferCount es := by
  simp [xferCount]
@[simp] theorem xferCount_delay (ms : Nat) (es : List Event) : xferCount (.delay ms :: es) = xferCount es := by
  simp [xferCount]

@[simp] theorem failAt_line (k : Nat) (l : Line) (v : Level) (es : List Event) :
    failAt k (.line l v :: es) = .line l v :: failAt k es := by cases k <;> simp [failAt]
@[simp] theorem failAt_delay (k ms : Nat) (es : List Event) : failAt k (.delay ms :: es) = .delay ms :: failAt k es := by
  cases k <;> simp [failAt]
@[simp] theorem failAt_xfer (k : Nat) (b r : Byte) (es : List Event) :
    failAt (k + 1) (.xfer b r :: es) = .xfer b r :: failAt k es := by simp [failAt]

/-- Events before the failing exchange go out as they are. -/
theorem failAt_item (i : WireItem) (k : Nat) (es : List Event) :
    failAt (i.exchanges + k) (i.events ++ es) = i.events ++ failAt k es := by
  cases i with
  | command c => simp [WireItem.exchanges, WireItem.events, frameEvents, byteEvents, Nat.add_comm 1 k]
  | data b => simp [WireItem.exchanges, WireItem.events, byteEvents, Nat.add_comm 1 k]
  | pixel c =>
    have : 2 + k = k + 1 + 1 := by omega
    simp [WireItem.exchanges, WireItem.events, pixelEvents, byteEvents, halfBytes, this]
  | delay ms => simp [WireItem.exchanges, WireItem.events]

/-- No step of a walk begins with `DC` driven high: only the end of a command byte drives it so. -/
theorem failAt_zero_xfer (b r : Byte) (is : List WireItem) :
    failAt 0 (.xfer b r :: walkEvents is) = [.xferFail b] := by
  induction is with
  | nil => rfl
  | cons i is ih =>
    cases i with
    | command c => simp [WireItem.events, frameEvents, failAt]
    | data c => simp [WireItem.events, byteEvents, failAt]
    | pixel c => simp [WireItem.events, pixelEvents, byteEvents, halfBytes, failAt]
    | delay ms => simp [WireItem.events, failAt]

/-- What a procedure does when it is ended by a failed exchange. -/
structure Breaks (s t : State) (n : Nat) (evs : List Event) : Prop where
  sent : t.sent = s.sent ++ evs
  xfers : t.xfers = s.xfers.drop n
  wmode : t.wmode = false
  dcLine : t.dcLine = .driven .high
  panel : t.panel.mode = .unknown
  frame : OnWire s t

theorem failsAt_add {s t : State} {m k : Nat} (h : FailsAt s (m + k)) (ht : t.xfers = s.xfers.drop m) :
    Answers s m ∧ FailsAt t k := by
  obtain ⟨h1, h2⟩ := answers_add h.1 ht
  refine ⟨h1, h2, ?_⟩
  rw [ht, List.getElem?_drop]; exact h.2

theorem failsAt_zero {s : State} (h : FailsAt s 0) : ∃ rest, s.xfers = none :: rest := by
  have h2 := h.2
  rcases hx : s.xfers with _ | ⟨a, rest⟩ <;> rw [hx] at h2
  · simp at h2
  · exact ⟨rest, by simp at h2; rw [h2]⟩

theorem data8_breaks {s : State} (hs : s.session = .opened) (hd : s.dcLine = .driven .high) (h : FailsAt s 0) (b : Byte) :
    ∃ t, data8 b s = (some .transferFailure, t) ∧ Breaks s t 1 [.xferFail b] := by
  obtain ⟨rest, hx⟩ := failsAt_zero h
  refine ⟨((s.setXfers rest).emit (.xferFail b)).setWmode false, by simp only [data8, xferByte_script_fails hs hx], ?_⟩
  refine ⟨by simp [State.sent, Event.sent], by simp [hx], by simp, by simp [hd], ?_, by constructor <;> simp⟩
  simp [Panel.onEvent, Panel.lost]

theorem writeCommand_breaks {s : State} (hs : s.session = .opened) (h : FailsAt s 0) (c : Byte) :
    ∃ t, writeCommand c s = (some .transferFailure, t) ∧ Breaks s t 1 [.line .dc .low, .xferFail c, .line .dc .high] := by
  obtain ⟨rest, hx⟩ := failsAt_zero h
  have hx' : (s.drive .dc .low).xfers = none :: rest := by simp [hx]
  refine ⟨(((((s.drive .dc .low).setXfers rest).emit (.xferFail c)).setWmode false).drive .dc .high).setWmode false,
    by simp [writeCommand, xferByte_script_fails (s := s.drive .dc .low) (by simpa using hs) hx'], ?_⟩
  refine ⟨by simp [State.sent, Event.sent], by simp [hx], by simp, by simp, ?_, by constructor <;> simp⟩
  simp [Panel.onEvent, Panel.lost]

/-- A procedure that is ended by a failed exchange ends what comes after it. -/
theorem andThen_breaks {p q : Proc} {s : State} {n : Nat} {e : List Event}
    (hp : ∃ t, p s = (some .transferFailure, t) ∧ Breaks s t n e) :
    ∃ u, p.andThen q s = (some .transferFailure, u) ∧ Breaks s u n e := by
  obtain ⟨t, ht, h⟩ := hp
  exact ⟨t, by simp [Proc.andThen, ht], h⟩

/-- A failed exchange after a procedure that succeeded. -/
theorem andThen_sends_breaks {p q : Proc} {s : State} {m n : Nat} {e1 e2 : List Event} {w1 : Bool} {d1 : Latch}
    (hp : ∃ t, p s = (none, t) ∧ Sends s t m e1 w1 d1)
    (hq : ∀ t, Sends s t m e1 w1 d1 → ∃ u, q t = (some .transferFailure, u) ∧ Breaks t u n e2) :
    ∃ u, p.andThen q s = (some .transferFailure, u) ∧ Breaks s u (m + n) (e1 ++ e2) := by
  obtain ⟨t, ht, h1⟩ := hp
  obtain ⟨u, hu, h2⟩ := hq t h1
  refine ⟨u, by simp [Proc.andThen, ht, hu], ?_⟩
  exact ⟨by rw [h2.sent, h1.sent, List.append_assoc], by rw [h2.xfers, h1.xfers, List.drop_drop], h2.wmode, h2.dcLine,
    h2.panel, h1.frame.trans h2.frame⟩

theorem data16_breaks {s : State} (hs : s.session = .opened) (hd : s.dcLine = .driven .high) (v : Half) (k : Nat) (hk : k < 2)
    (h : FailsAt s k) :
    ∃ t, data16 v s = (some .transferFailure, t) ∧
      Breaks s t (k + 1) (if k = 0 then [.xferFail (hi8 v)] else [.xfer (hi8 v) 0, .xferFail (lo8 v)]) := by
  rcases k with _ | _ | k
  · exact andThen_breaks (data8_breaks hs hd h _)
  · have h' : FailsAt s (1 + 0) := h
    refine andThen_sends_breaks (m := 1) (n := 1) (e1 := byteEvents [hi8 v]) (e2 := [.xferFail (lo8 v)])
      (data8_sends hs (failsAt_add h' (t := s.setXfers (s.xfers.drop 1)) rfl).1 _) ?_
    intro t ht
    exact data8_breaks (ht.frame.session.trans hs) (ht.dcLine.trans hd) (failsAt_add h' ht.xfers).2 _
  · omega

theorem writePixel_breaks {s : State} (hs : s.session = .opened) (hd : s.dcLine = .driven .high) (c : Colour) (k : Nat)
    (hk : k < 2) (h : FailsAt s k) :
    ∃ t, writePixel c s = (some .transferFailure, t) ∧
      Breaks s t (k + 1) (if k = 0 then [.xferFail (hi8 c)] else [.xfer (hi8 c) 0, .xferFail (lo8 c)]) := by
  obtain ⟨t, ht, h1⟩ := data16_breaks (s := s.streamHazard) (by simpa using hs) (by simpa using hd) c k hk
    (by simpa [FailsAt, Answers] using h)
  refine ⟨t, ht, ?_⟩
  refine ⟨by simpa [State.sent] using h1.sent, by simpa using h1.xfers, h1.wmode, h1.dcLine, h1.panel,
    (streamHazard_onWire s).trans h1.frame⟩

/-- What a walk does when its exchange numbered `k` fails (60_exceptions.md R248). -/
theorem runItems_breaks (is : List WireItem) {s : State} (hs : s.session = .opened) (hd : s.dcLine = .driven .high) (k : Nat)
    (hk : k < walkExchanges is) (h : FailsAt s k) :
    ∃ t, runItems is s = (some .transferFailure, t) ∧ Breaks s t (k + 1) (failAt k (walkEvents is)) := by
  induction is generalizing s k with
  | nil => simp at hk
  | cons i is ih =>
    rw [walkExchanges_cons] at hk
    rw [walkEvents_cons]
    by_cases hki : k < i.exchanges
    · refine andThen_breaks ?_
      cases i with
      | command c =>
        obtain rfl : k = 0 := by simp [WireItem.exchanges] at hki; omega
        simpa [WireItem.events, frameEvents, byteEvents, failAt, runItem] using writeCommand_breaks hs h c
      | data b =>
        obtain rfl : k = 0 := by simp [WireItem.exchanges] at hki; omega
        simpa [WireItem.events, byteEvents, failAt_zero_xfer, runItem] using data8_breaks hs hd h b
      | pixel c =>
        have := writePixel_breaks hs hd c k hki h
        rcases k with _ | _ | k
        · simpa [WireItem.events, pixelEvents, byteEvents, halfBytes, failAt, runItem] using this
        · simpa [WireItem.events, pixelEvents, byteEvents, halfBytes, failAt_zero_xfer, runItem] using this
        · exact absurd hki (by simp only [WireItem.exchanges]; omega)
      | delay ms => simp [WireItem.exchanges] at hki
    · obtain ⟨k, rfl⟩ : ∃ k', k = i.exchanges + k' := ⟨k - i.exchanges, by omega⟩
      rw [failAt_item, Nat.add_assoc]
      refine andThen_sends_breaks (runItem_sends hs i (failsAt_add h (t := s.setXfers (s.xfers.drop i.exchanges)) rfl).1) ?_
      intro t ht
      exact ih (ht.frame.session.trans hs) (by rw [ht.dcLine, hd]; cases i <;> rfl) k (by omega) (failsAt_add h ht.xfers).2

end Sys2Proof.Machine
end

