-- ==== Sys2Proof/Laws/Rules.lean ====
section
/-! SUPPORT. What an operation's walk comes to inside and outside a bracket of its own, and what the walks of the operations
send: the lemmas the statements about single operations rest on. -/

namespace Sys2Proof.Machine

/-! A walk to its end, without and with a bracket around it. -/

/-- The part of `Between` that the wire needs: ready, the session open, the lines as 10_state.md R35 says. -/
abbrev OnBus (s : State) : Prop := Serving s ∧ LinesOk s

theorem Between.onBus {s : State} (h : Between s) : OnBus s := ⟨h.1, h.2.1⟩

theorem OnBus.dcHigh {s : State} (h : OnBus s) : s.dcLine = .driven .high := by
  have hl := h.2
  rw [LinesOk, if_neg (by rw [h.1.2]; simp)] at hl
  exact hl.2.1

theorem OnBus.csFollows {s : State} (h : OnBus s) :
    s.csLine = (if s.depth = 0 then .driven .high else .driven .low) := by
  have hl := h.2
  rw [LinesOk, if_neg (by rw [h.1.2]; simp)] at hl
  exact hl.2.2

theorem walk_ends_ok (is : List WireItem) {s : State} (hs : s.session = .opened) (hd : s.dcLine = .driven .high)
    (h : Answers s (walkExchanges is)) :
    EndsOk s (conclude (runItems is s) 0) 0 (walkEvents is) (walkExchanges is) (walkWmode s.cfg is s.wmode) := by
  obtain ⟨t, ht, g⟩ := runItems_sends is hs h
  have gd := g.dcLine
  rw [hd, walkDc_high] at gd
  rw [ht]
  exact ⟨rfl, g.sent, g.xfers, g.wmode, g.frame.lifecycle, g.frame.width, g.frame.height, g.frame.rotation, g.frame.depth,
    g.frame.resetLine, gd.trans hd.symm, g.frame.csLine, g.frame.session, g.frame.cfg, g.frame.src, g.frame.opens,
    g.frame.requests, by simp [conclude, Status.isMisuse, g.frame.faultMark]⟩

theorem walk_ends_failed (is : List WireItem) {s : State} (hs : s.session = .opened) (hd : s.dcLine = .driven .high) (k : Nat)
    (hk : k < walkExchanges is) (h : FailsAt s k) :
    EndsFailed s (conclude (runItems is s) 0) (failAt k (walkEvents is)) k := by
  obtain ⟨t, ht, g⟩ := runItems_breaks is hs hd k hk h
  rw [ht]
  exact ⟨rfl, g.sent, g.xfers, g.wmode, g.panel, g.frame.lifecycle, g.frame.width, g.frame.height, g.frame.rotation,
    g.frame.depth, g.frame.resetLine, g.dcLine.trans hd.symm, g.frame.csLine, g.frame.session, g.frame.cfg, g.frame.src,
    g.frame.opens, g.frame.requests, by simp [conclude, State.raise, Status.isMisuse, g.frame.faultMark]⟩

section
variable (s : State)

@[simp] theorem startWrite_depth : (startWrite s).depth = s.depth + 1 := rfl
@[simp] theorem startWrite_lifecycle : (startWrite s).lifecycle = s.lifecycle := by unfold startWrite; split <;> rfl
@[simp] theorem startWrite_width : (startWrite s).width = s.width := by unfold startWrite; split <;> rfl
@[simp] theorem startWrite_height : (startWrite s).height = s.height := by unfold startWrite; split <;> rfl
@[simp] theorem startWrite_rotation : (startWrite s).rotation = s.rotation := by unfold startWrite; split <;> rfl
@[simp] theorem startWrite_resetLine : (startWrite s).resetLine = s.resetLine := by unfold startWrite; split <;> rfl
@[simp] theorem startWrite_dcLine : (startWrite s).dcLine = s.dcLine := by unfold startWrite; split <;> rfl
@[simp] theorem startWrite_csLine : (startWrite s).csLine = (if s.depth = 0 then .driven .low else s.csLine) := by
  unfold startWrite; split <;> rfl
@[simp] theorem startWrite_session : (startWrite s).session = s.session := by unfold startWrite; split <;> rfl
@[simp] theorem startWrite_wmode : (startWrite s).wmode = s.wmode := by unfold startWrite; split <;> rfl
@[simp] theorem startWrite_result : (startWrite s).result = s.result := by unfold startWrite; split <;> rfl
@[simp] theorem startWrite_panel : (startWrite s).panel = s.panel := by unfold startWrite; split <;> rfl
@[simp] theorem startWrite_cfg : (startWrite s).cfg = s.cfg := by unfold startWrite; split <;> rfl
@[simp] theorem startWrite_src : (startWrite s).src = s.src := by unfold startWrite; split <;> rfl
@[simp] theorem startWrite_opens : (startWrite s).opens = s.opens := by unfold startWrite; split <;> rfl
@[simp] theorem startWrite_xfers : (startWrite s).xfers = s.xfers := by unfold startWrite; split <;> rfl
@[simp] theorem startWrite_requests : (startWrite s).requests = s.requests := by unfold startWrite; split <;> rfl
@[simp] theorem startWrite_faultMark : (startWrite s).faultMark = s.faultMark := by unfold startWrite; split <;> rfl
@[simp] theorem startWrite_trace :
    (startWrite s).trace = s.trace ++ (if s.depth = 0 then [.line .cs .low] else []) := by unfold startWrite; split <;> simp

@[simp] theorem endWrite_depth : (endWrite s).depth = s.depth - 1 := by unfold endWrite; split <;> rfl
@[simp] theorem endWrite_lifecycle : (endWrite s).lifecycle = s.lifecycle := by unfold endWrite; split <;> rfl
@[simp] theorem endWrite_width : (endWrite s).width = s.width := by unfold endWrite; split <;> rfl
@[simp] theorem endWrite_height : (endWrite s).height = s.height := by unfold endWrite; split <;> rfl
@[simp] theorem endWrite_rotation : (endWrite s).rotation = s.rotation := by unfold endWrite; split <;> rfl
@[simp] theorem endWrite_resetLine : (endWrite s).resetLine = s.resetLine := by unfold endWrite; split <;> rfl
@[simp] theorem endWrite_dcLine : (endWrite s).dcLine = s.dcLine := by unfold endWrite; split <;> rfl
@[simp] theorem endWrite_csLine : (endWrite s).csLine = (if s.depth - 1 = 0 then .driven .high else s.csLine) := by
  unfold endWrite; split <;> rfl
@[simp] theorem endWrite_session : (endWrite s).session = s.session := by unfold endWrite; split <;> rfl
@[simp] theorem endWrite_wmode : (endWrite s).wmode = (if s.depth - 1 = 0 then false else s.wmode) := by
  unfold endWrite; split <;> rfl
@[simp] theorem endWrite_result : (endWrite s).result = s.result := by unfold endWrite; split <;> rfl
@[simp] theorem endWrite_panel :
    (endWrite s).panel = (if s.depth - 1 = 0 then s.panel.onDeselect s.draws else s.panel) := by
  unfold endWrite; split <;> rfl
@[simp] theorem endWrite_cfg : (endWrite s).cfg = s.cfg := by unfold endWrite; split <;> rfl
@[simp] theorem endWrite_src : (endWrite s).src = s.src := by unfold endWrite; split <;> rfl
@[simp] theorem endWrite_opens : (endWrite s).opens = s.opens := by unfold endWrite; split <;> rfl
@[simp] theorem endWrite_xfers : (endWrite s).xfers = s.xfers := by unfold endWrite; split <;> rfl
@[simp] theorem endWrite_requests : (endWrite s).requests = s.requests := by unfold endWrite; split <;> rfl
@[simp] theorem endWrite_faultMark : (endWrite s).faultMark = s.faultMark := by unfold endWrite; split <;> rfl
@[simp] theorem endWrite_trace :
    (endWrite s).trace = s.trace ++ (if s.depth - 1 = 0 then [.line .cs .high] else []) := by
  unfold endWrite; split <;> simp

end

/-- What a bracket puts around a procedure that sends (10_state.md R29). -/
theorem bracket_ok {s t : State} {n : Nat} {evs : List Event} {w : Bool} {d : Latch} (hb : OnBus s)
    (g : Sends (startWrite s) t n evs w d) (hd : d = .driven .high) (v : Half) :
    EndsOk s ((endWrite t).complete .ok v) v (bracketEvents s.depth evs) n (decide (s.depth ≠ 0) && w) := by
  have gd : t.depth = s.depth + 1 := g.frame.depth
  have gs := g.sent
  have gc := g.frame.csLine
  refine ⟨rfl, ?_, by simp [g.xfers], ?_, ?_⟩
  · simp only [State.sent, State.complete_trace, endWrite_trace, List.map_append] at gs ⊢
    rw [gs, gd]
    by_cases h0 : s.depth = 0 <;> simp [bracketEvents, h0, Event.sent]
  · simp [gd, g.wmode]
  · rw [startWrite_csLine] at gc
    have hcs := hb.csFollows
    refine ⟨by simp [g.frame.lifecycle], by simp [g.frame.width], by simp [g.frame.height], by simp [g.frame.rotation],
      by simp [gd], by simp [g.frame.resetLine], by simp [g.dcLine, hd, hb.dcHigh], ?_, by simp [g.frame.session],
      by simp [g.frame.cfg], by simp [g.frame.src], by simp [g.frame.opens], by simp [g.frame.requests],
      by simp [g.frame.faultMark, Status.isMisuse]⟩
    by_cases h0 : s.depth = 0 <;> simp [gd, gc, hcs, h0]

/-- What a bracket puts around a procedure that is ended by a failed exchange (41_lifecycle.md R133). -/
theorem bracket_failed {s t : State} {k : Nat} {evs : List Event} (hb : OnBus s)
    (g : Breaks (startWrite s) t (k + 1) evs) : EndsFailed s ((endWrite t).raise .transferFailure) (bracketEvents s.depth evs) k := by
  have gd : t.depth = s.depth + 1 := g.frame.depth
  have gs := g.sent
  have gc := g.frame.csLine
  refine ⟨rfl, ?_, by simp [State.raise, g.xfers], by simp [State.raise, g.wmode], ?_, ?_⟩
  · simp only [State.raise, State.sent, State.complete_trace, endWrite_trace, List.map_append] at gs ⊢
    rw [gs, gd]
    by_cases h0 : s.depth = 0 <;> simp [bracketEvents, h0, Event.sent]
  · by_cases h0 : s.depth = 0 <;> simp [State.raise, gd, h0, g.panel, Panel.onDeselect]
  · rw [startWrite_csLine] at gc
    have hcs := hb.csFollows
    refine ⟨by simp [State.raise, g.frame.lifecycle], by simp [State.raise, g.frame.width],
      by simp [State.raise, g.frame.height], by simp [State.raise, g.frame.rotation], by simp [State.raise, gd],
      by simp [State.raise, g.frame.resetLine], by simp [State.raise, g.dcLine, hb.dcHigh], ?_,
      by simp [State.raise, g.frame.session], by simp [State.raise, g.frame.cfg], by simp [State.raise, g.frame.src],
      by simp [State.raise, g.frame.opens], by simp [State.raise, g.frame.requests],
      by simp [State.raise, g.frame.faultMark, Status.isMisuse]⟩
    by_cases h0 : s.depth = 0 <;> simp [State.raise, gd, gc, hcs, h0]

theorem bracketed_ends_ok (is : List WireItem) {s : State} (hb : OnBus s) (h : Answers s (walkExchanges is)) :
    EndsOk s (conclude (bracketed (runItems is) s) 0) 0 (bracketEvents s.depth (walkEvents is)) (walkExchanges is)
      (decide (s.depth ≠ 0) && walkWmode s.cfg is s.wmode) := by
  obtain ⟨t, ht, g⟩ := runItems_sends is (s := startWrite s) (by simpa using hb.1.2) (by simpa [Answers] using h)
  have := bracket_ok hb g (by simp [hb.dcHigh]) 0
  simpa [bracketed, ht, conclude] using this

theorem bracketed_ends_failed (is : List WireItem) {s : State} (hb : OnBus s) (k : Nat) (hk : k < walkExchanges is)
    (h : FailsAt s k) :
    EndsFailed s (conclude (bracketed (runItems is) s) 0) (bracketEvents s.depth (failAt k (walkEvents is))) k := by
  obtain ⟨t, ht, g⟩ := runItems_breaks is (s := startWrite s) (by simpa using hb.1.2) (by simp [hb.dcHigh]) k hk
    (by simpa [FailsAt, Answers] using h)
  have := bracket_failed hb g
  simpa [bracketed, ht, conclude] using this

/-! A refused operation. -/

/-- The state a refused operation leaves (60_exceptions.md R250, R253). -/
def State.refusedWith (s : State) (e : Status) : State := { s with result := some ⟨e, 0⟩, faultMark := true }

theorem refused_eq (s : State) (e : Status) (h : e.isMisuse = true) : s.raise e = s.refusedWith e := by
  simp [State.raise, State.complete, State.refusedWith, h]

theorem firstFailing_pass {b : Bool} {e : Status} {cs : List (Bool × Status)} (h : b = true) :
    firstFailing ((b, e) :: cs) = firstFailing cs := by simp [firstFailing, h]

theorem firstFailing_fail {b : Bool} {e : Status} {cs : List (Bool × Status)} (h : b = false) :
    firstFailing ((b, e) :: cs) = some e := by simp [firstFailing, h]

theorem guarded_nil (body : State → State) (s : State) : guarded [] body s = .next (body s) := rfl

theorem guarded_pass {b : Bool} {e : Status} {cs : List (Bool × Status)} {body : State → State} {s : State} (h : b = true) :
    guarded ((b, e) :: cs) body s = guarded cs body s := by simp [guarded, firstFailing, h]

theorem guarded_fail {b : Bool} {e : Status} {cs : List (Bool × Status)} {body : State → State} {s : State} (h : b = false)
    (he : e.isMisuse = true) : guarded ((b, e) :: cs) body s = .next (s.refusedWith e) := by
  simp [guarded, firstFailing, h, refused_eq s e he]

theorem refuses_of {i : Instr} {s : State} {e : Status} (h : exec i s = .next (s.refusedWith e)) : Refuses i s e := ⟨true, h⟩

/-! The two shapes of operation. -/

/-- An unbracketed operation follows its rule when its operand checks fail exactly on the operands its rule refuses, and its
walk sends what its rule says. -/
theorem unbracketed_rule {i : Instr} {bad : State → Prop} {evs : State → List Event} {n : State → Nat} {w : State → Bool}
    (checks : State → List (Bool × Status)) (items : State → List WireItem)
    (he : ∀ s, exec i s =
      guarded (readyCheck s :: bracketCheck s :: checks s) (fun s => conclude (runItems (items s) s) 0) s)
    (hb : ∀ s, bad s → firstFailing (checks s) = some .badOperand)
    (hg : ∀ s, Between s → ¬ bad s → firstFailing (checks s) = none ∧ walkEvents (items s) = evs s ∧
      walkExchanges (items s) = n s ∧ walkWmode s.cfg (items s) s.wmode = w s) : UnbracketedRule i bad evs n w := by
  intro s
  refine ⟨?_, ?_, ?_, ?_, ?_⟩
  · intro h1
    exact refuses_of (by rw [he, readyCheck, guarded_fail (by simp [h1]) rfl])
  · intro h1 h2
    exact refuses_of (by rw [he, readyCheck, guarded_pass (by simp [h1]), bracketCheck, guarded_fail (by simp [h2]) rfl])
  · intro h1 h2 h3
    refine refuses_of ?_
    rw [he, readyCheck, guarded_pass (by simp [h1]), bracketCheck, guarded_pass (by simp [h2])]
    simp only [guarded, hb s h3, refused_eq s .badOperand rfl]
  · intro h1 h2 h3 h4
    obtain ⟨g1, g2, g3, g4⟩ := hg s h1 h3
    rw [he, readyCheck, guarded_pass (by simp [h1.1.1]), bracketCheck, guarded_pass (by simp [h2])]
    simp only [guarded, g1]
    refine ⟨_, rfl, ?_⟩
    rw [← g2, ← g3, ← g4]
    exact walk_ends_ok _ h1.1.2 h1.onBus.dcHigh (by rw [g3]; exact h4)
  · intro h1 h2 h3 k hk h4
    obtain ⟨g1, g2, g3, _⟩ := hg s h1 h3
    rw [he, readyCheck, guarded_pass (by simp [h1.1.1]), bracketCheck, guarded_pass (by simp [h2])]
    simp only [guarded, g1]
    refine ⟨_, rfl, ?_⟩
    rw [← g2]
    exact walk_ends_failed _ h1.1.2 h1.onBus.dcHigh k (by rw [g3]; exact hk) h4

/-- The same for a bracketed operation; `before` is what it writes before it sends. -/
theorem bracketed_rule {i : Instr} {bad : State → Prop} {before : State → State} {evs : State → List Event} {n : State → Nat}
    {w : State → Bool} (checks : State → List (Bool × Status)) (items : State → List WireItem)
    (he : ∀ s, exec i s =
      guarded (readyCheck s :: checks s) (fun s => conclude (bracketed (runItems (items s)) (before s)) 0) s)
    (hb : ∀ s, bad s → firstFailing (checks s) = some .badOperand)
    (hk : ∀ s, (before s).depth = s.depth ∧ (before s).cfg = s.cfg ∧ (before s).wmode = s.wmode ∧ (before s).xfers = s.xfers)
    (hg : ∀ s, Between s → ¬ bad s → OnBus (before s) ∧ firstFailing (checks s) = none ∧ walkEvents (items s) = evs s ∧
      walkExchanges (items s) = n s ∧ walkWmode s.cfg (items s) s.wmode = w s) :
    BracketedRule i bad before (fun _ => 0) evs n w := by
  intro s
  obtain ⟨k1, k2, k3, k4⟩ := hk s
  refine ⟨?_, ?_, ?_, ?_⟩
  · intro h1
    exact refuses_of (by rw [he, readyCheck, guarded_fail (by simp [h1]) rfl])
  · intro h1 h3
    refine refuses_of ?_
    rw [he, readyCheck, guarded_pass (by simp [h1])]
    simp only [guarded, hb s h3, refused_eq s .badOperand rfl]
  · intro h1 h3 h4
    obtain ⟨g0, g1, g2, g3, g4⟩ := hg s h1 h3
    rw [he, readyCheck, guarded_pass (by simp [h1.1.1])]
    simp only [guarded, g1]
    refine ⟨_, rfl, ?_⟩
    have := bracketed_ends_ok (items s) g0 (by rw [g3]; simpa [Answers, k4] using h4)
    rwa [k1, k2, k3, g2, g3, g4] at this
  · intro h1 h3 k hk h4
    obtain ⟨g0, g1, g2, g3, _⟩ := hg s h1 h3
    rw [he, readyCheck, guarded_pass (by simp [h1.1.1])]
    simp only [guarded, g1]
    refine ⟨_, rfl, ?_⟩
    have := bracketed_ends_failed (items s) g0 k (by rw [g3]; exact hk) (by simpa [FailsAt, Answers, k4] using h4)
    rwa [k1, g2] at this

/-! What the walks send. -/

@[simp] theorem walkEvents_pixels (cs : List Colour) : walkEvents (cs.map .pixel) = pixelEvents cs := by
  induction cs with
  | nil => rfl
  | cons c cs ih => simp [ih, WireItem.events, pixelEvents, byteEvents]

@[simp] theorem walkExchanges_pixels (cs : List Colour) : walkExchanges (cs.map .pixel) = 2 * cs.length := by
  induction cs with
  | nil => rfl
  | cons c cs ih => simp [ih, WireItem.exchanges]; omega

@[simp] theorem walkWmode_pixels (cfg : Cfg) (cs : List Colour) (w : Bool) : walkWmode cfg (cs.map .pixel) w = w := by
  induction cs with
  | nil => rfl
  | cons c cs ih => simp [ih, WireItem.wmode]

theorem replicate_pixels (n : Nat) (c : Colour) :
    List.replicate n (WireItem.pixel c) = (List.replicate n c).map WireItem.pixel := by simp

@[simp] theorem walkEvents_bytes (bs : List Byte) : walkEvents (bs.map .data) = byteEvents bs := by
  induction bs with
  | nil => rfl
  | cons b bs ih => simp [ih, WireItem.events, byteEvents]

@[simp] theorem walkExchanges_bytes (bs : List Byte) : walkExchanges (bs.map .data) = bs.length := by
  induction bs with
  | nil => rfl
  | cons b bs ih => simp [ih, WireItem.exchanges]; omega

@[simp] theorem walkWmode_bytes (cfg : Cfg) (bs : List Byte) (w : Bool) : walkWmode cfg (bs.map .data) w = w := by
  induction bs with
  | nil => rfl
  | cons b bs ih => simp [ih, WireItem.wmode]

@[simp] theorem walkDc_bytes (bs : List Byte) (d : Latch) : walkDc (bs.map .data) d = d := by
  induction bs with
  | nil => rfl
  | cons b bs ih => simpa [walkDc, WireItem.dc] using ih

/-- Bytes alone, ended by a failed exchange: no line is touched, whatever level `DC` has (40_transport.md R114). -/
theorem runBytes_breaks (bs : List Byte) {s : State} (hs : s.session = .opened) (k : Nat) (hk : k < bs.length)
    (h : FailsAt s k) :
    ∃ t, runItems (bs.map .data) s = (some .transferFailure, t) ∧
      t.sent = s.sent ++ (byteEvents (bs.take k) ++ (bs[k]?.toList.map fun b => .xferFail b)) ∧
      t.xfers = s.xfers.drop (k + 1) ∧ t.wmode = false ∧ t.dcLine = s.dcLine ∧ t.panel.mode = .unknown ∧ OnWire s t := by
  induction bs generalizing s k with
  | nil => simp at hk
  | cons b bs ih =>
    rcases k with _ | k
    · obtain ⟨rest, hx⟩ := failsAt_zero h
      refine ⟨((s.setXfers rest).emit (.xferFail b)).setWmode false,
        by simp [runItems, runItem, Proc.andThen, data8, xferByte_script_fails hs hx],
        by simp [State.sent, Event.sent, byteEvents], by simp [hx], by simp, by simp, ?_, by constructor <;> simp⟩
      simp [Panel.onEvent, Panel.lost]
    · have h' : FailsAt s (1 + k) := by rwa [Nat.add_comm]
      obtain ⟨t, ht, g⟩ := data8_sends hs (failsAt_add h' (t := s.setXfers (s.xfers.drop 1)) rfl).1 b
      obtain ⟨u, hu, u1, u2, u3, u4, u5, u6⟩ := ih (g.frame.session.trans hs) k (by simpa using hk) (failsAt_add h' g.xfers).2
      refine ⟨u, by simp [runItems, runItem, Proc.andThen, ht, hu], by rw [u1, g.sent]; simp [byteEvents],
        by rw [u2, g.xfers, List.drop_drop]; congr 1; omega, u3, u4.trans g.dcLine, u5, g.frame.trans u6⟩

/-- The three frames of a window (42_protocol.md R162). -/
theorem walkEvents_window (cfg : Cfg) (x y w h : Nat) :
    walkEvents (windowItems cfg x y w h) =
      windowEvents cfg (BitVec.ofNat 16 x) (BitVec.ofNat 16 (x + w - 1)) (BitVec.ofNat 16 y) (BitVec.ofNat 16 (y + h - 1)) := by
  simp [windowItems, windowEvents, halfItems, WireItem.events, frameEvents, byteEvents, halfBytes]

@[simp] theorem walkExchanges_window (cfg : Cfg) (x y w h : Nat) : walkExchanges (windowItems cfg x y w h) = 11 := by
  simp [windowItems, halfItems, WireItem.exchanges]

@[simp] theorem walkWmode_window (cfg : Cfg) (x y w h : Nat) (b : Bool) :
    walkWmode cfg (windowItems cfg x y w h) b = true := by
  simp [windowItems, halfItems, WireItem.wmode, wmodeAfter]

end Sys2Proof.Machine
end

