-- ==== Sys2Proof/Laws/Clip.lean ====
section
/-! SUPPORT. The clipper as the intersection it computes (spec 43_drawing.md R182), and the walks of the drawing operations
over it. -/

namespace Sys2Proof.Machine

/-- Laws 1 and 2 of R182 in one equation. -/
theorem clip_eq {W H : Int} (hW : 1 ≤ W) (hH : 1 ≤ H) (x y : Int) {w h : Int} (hw : 1 ≤ w) (hh : 1 ≤ h) :
    clip W H x y w h =
      if spanLo x ≤ spanHi x w W ∧ spanLo y ≤ spanHi y h H then
        .window (spanLo x) (spanLo y) (spanHi x w W - spanLo x + 1) (spanHi y h H - spanLo y + 1) (spanLo x - x) (spanLo y - y)
      else .dropped := by
  unfold clip spanLo spanHi
  by_cases hd : W ≤ x ∨ H ≤ y ∨ x + w - 1 < 0 ∨ y + h - 1 < 0
  · rw [if_pos hd, if_neg (by omega)]
  · have hv : max x 0 ≤ min (x + w - 1) (W - 1) ∧ max y 0 ≤ min (y + h - 1) (H - 1) := by omega
    rw [if_neg hd, if_pos hv]
    simp only [ClipResult.window.injEq]
    refine ⟨?_, ?_, ?_, ?_, ?_, ?_⟩ <;> split <;> (try split) <;> omega

theorem State.clip_eq {s : State} (hW : 1 ≤ s.width.toNat) (hH : 1 ≤ s.height.toNat) (x y : Int) {w h : Int} (hw : 1 ≤ w)
    (hh : 1 ≤ h) :
    s.clip x y w h =
      if Visible s x y w h then
        .window (spanLo x) (spanLo y) (spanHi x w s.width.toNat - spanLo x + 1) (spanHi y h s.height.toNat - spanLo y + 1)
          (spanLo x - x) (spanLo y - y)
      else .dropped :=
  Machine.clip_eq (by omega) (by omega) x y hw hh

/-- The window of the visible part of a rectangle. -/
def visibleWindow (s : State) (x y w h : Int) : List WireItem :=
  windowItems s.cfg (spanLo x).toNat (spanLo y).toNat (spanLen x w s.width.toNat) (spanLen y h s.height.toNat)

theorem toNat_spanLen (a n bound : Int) : (spanHi a n bound - spanLo a + 1).toNat = spanLen a n bound := rfl

theorem rectItems_eq {s : State} (hW : 1 ≤ s.width.toNat) (hH : 1 ≤ s.height.toNat) (x y : Int) {w h : Int} (hw : 1 ≤ w)
    (hh : 1 ≤ h) (c : Colour) :
    rectItems s x y w h c =
      if Visible s x y w h then
        visibleWindow s x y w h ++ (List.replicate (visibleCount s x y w h) c).map .pixel
      else [] := by
  unfold rectItems
  rw [State.clip_eq hW hH x y hw hh]
  by_cases hv : Visible s x y w h
  · simp only [if_pos hv, visibleWindow, visibleCount, toNat_spanLen, replicate_pixels]
  · simp only [if_neg hv]

theorem pixelItems_eq (s : State) (x y : Int) (c : Colour) :
    pixelItems s x y c =
      if Visible s x y 1 1 then visibleWindow s x y 1 1 ++ [c].map .pixel else [] := by
  unfold pixelItems
  have e : (0 ≤ x ∧ x < s.width.toNat ∧ 0 ≤ y ∧ y < s.height.toNat) ↔ Visible s x y 1 1 := by
    unfold Visible spanLo spanHi; omega
  by_cases hv : Visible s x y 1 1
  · rw [if_pos (e.mpr hv), if_pos hv]
    have h := e.mpr hv
    have h1 : spanLen x 1 s.width.toNat = 1 := by unfold spanLen spanLo spanHi; omega
    have h2 : spanLen y 1 s.height.toNat = 1 := by unfold spanLen spanLo spanHi; omega
    have h3 : spanLo x = x := by unfold spanLo; omega
    have h4 : spanLo y = y := by unfold spanLo; omega
    simp [visibleWindow, h1, h2, h3, h4]
  · rw [if_neg (fun h => hv (e.mp h)), if_neg hv]

theorem ofNat_toNat_ofInt {a : Int} (h : 0 ≤ a) : BitVec.ofNat 16 a.toNat = BitVec.ofInt 16 a := by
  obtain ⟨n, rfl⟩ := Int.eq_ofNat_of_zero_le h
  simp

/-- What the walk over the visible part of a rectangle sends. -/
theorem visible_events {s : State} {x y w h : Int} (cs : List Colour) :
    walkEvents (if Visible s x y w h then visibleWindow s x y w h ++ cs.map .pixel else []) = drawEvents s x y w h cs := by
  by_cases hv : Visible s x y w h
  · have hv' := hv
    unfold Visible at hv'
    have e1 : (spanLo x).toNat + spanLen x w s.width.toNat - 1 = (spanHi x w s.width.toNat).toNat := by
      unfold spanLen; unfold spanLo at *; omega
    have e2 : (spanLo y).toNat + spanLen y h s.height.toNat - 1 = (spanHi y h s.height.toNat).toNat := by
      unfold spanLen; unfold spanLo at *; omega
    have p1 : 0 ≤ spanLo x := by unfold spanLo; omega
    have p2 : 0 ≤ spanLo y := by unfold spanLo; omega
    rw [if_pos hv, drawEvents, if_pos hv]
    simp [visibleWindow, walkEvents_window, e1, e2, ofNat_toNat_ofInt p1, ofNat_toNat_ofInt p2,
      ofNat_toNat_ofInt (Int.le_trans p1 hv'.1), ofNat_toNat_ofInt (Int.le_trans p2 hv'.2)]
  · rw [if_neg hv, drawEvents, if_neg hv]; rfl

theorem visible_exchanges {s : State} {x y w h : Int} (cs : List Colour) (hc : cs.length = visibleCount s x y w h) :
    walkExchanges (if Visible s x y w h then visibleWindow s x y w h ++ cs.map .pixel else []) = drawExchanges s x y w h := by
  unfold drawExchanges
  split
  · simp [visibleWindow, hc]
  · rfl

theorem visible_wmode {s : State} {x y w h : Int} (cs : List Colour) :
    walkWmode s.cfg (if Visible s x y w h then visibleWindow s x y w h ++ cs.map .pixel else []) s.wmode =
      drawWmode s x y w h := by
  unfold drawWmode
  by_cases hv : Visible s x y w h
  · simp only [if_pos hv]; simp [hv, visibleWindow]
  · simp only [if_neg hv]; simp [hv]

/-! The source buffer of a blit. -/

theorem gather_isSome (m : Memory) (is : List Nat) :
    (m.gather is).isSome = true ↔ ∀ i ∈ is, i < 2 ^ 32 ∧ m.read i ≠ none := by
  induction is with
  | nil => simp [Memory.gather]
  | cons i is ih =>
    have e : m.srcAt i ≠ none ↔ i < 2 ^ 32 ∧ m.read i ≠ none := by
      unfold Memory.srcAt
      by_cases hi : i < 2 ^ 32
      · rw [if_pos hi]; exact ⟨fun h => ⟨hi, h⟩, fun h => h.2⟩
      · rw [if_neg hi]; exact ⟨fun h => absurd rfl h, fun h => absurd h.1 hi⟩
    unfold Memory.gather
    rcases hs : m.srcAt i with _ | c
    · have h2 : ¬ (i < 2 ^ 32 ∧ m.read i ≠ none) := fun h => e.mpr h hs
      simp only [Option.isSome_none, Bool.false_eq_true, false_iff]
      exact fun h => h2 (h i (by simp))
    · have h1 : m.srcAt i ≠ none := by simp [hs]
      have h2 := e.mp h1
      rcases hg : m.gather is with _ | cs
      · rw [hg] at ih
        simp only [Option.isSome_none, Bool.false_eq_true, false_iff] at ih ⊢
        exact fun h => ih fun j hj => h j (by simp [hj])
      · rw [hg] at ih
        simp only [Option.isSome_some, true_iff] at ih ⊢
        intro j hj
        rcases List.mem_cons.mp hj with rfl | hj
        · exact h2
        · exact ih j hj

theorem gather_eq {m : Memory} {is : List Nat} (h : ∀ i ∈ is, i < 2 ^ 32 ∧ m.read i ≠ none) :
    m.gather is = some (is.map fun i => (m.read i).getD 0) := by
  induction is with
  | nil => rfl
  | cons i is ih =>
    have hi := h i (by simp)
    have hr := ih fun j hj => h j (by simp [hj])
    obtain ⟨c, hc⟩ := Option.ne_none_iff_exists'.mp hi.2
    have hs : m.srcAt i = some c := by rw [Memory.srcAt, if_pos hi.1, hc]
    simp only [Memory.gather, hs, hr]
    simp [hc]

theorem blitIndexes_visible (s : State) (x y : Int) (p : Nat) (w h : Int) :
    blitIndexes p w.toNat (spanLo x - x).toNat (spanLo y - y).toNat (spanLen x w s.width.toNat) (spanLen y h s.height.toNat) =
      (List.range (spanLen y h s.height.toNat)).flatMap fun j =>
        (List.range (spanLen x w s.width.toNat)).map fun i => blitIndex p x y w i j := rfl

theorem bitmap_defined_iff (s : State) (x y : Int) (p : Nat) (w h : Int) (hv : Visible s x y w h) :
    (∀ k ∈ (List.range (spanLen y h s.height.toNat)).flatMap fun j =>
        (List.range (spanLen x w s.width.toNat)).map fun i => blitIndex p x y w i j,
      k < 2 ^ 32 ∧ s.src.read k ≠ none) ↔ ¬ BlitUndefined s x y p w h := by
  constructor
  · rintro h1 ⟨_, j, hj, i, hi, h2⟩
    have := h1 (blitIndex p x y w i j) (by simp only [List.mem_flatMap, List.mem_map, List.mem_range]; exact ⟨j, hj, i, hi, rfl⟩)
    rcases h2 with h2 | h2
    · omega
    · exact this.2 h2
  · intro h1 k hk
    simp only [List.mem_flatMap, List.mem_map, List.mem_range] at hk
    obtain ⟨j, hj, i, hi, rfl⟩ := hk
    constructor
    · refine Nat.lt_of_not_le fun h2 => h1 ⟨hv, j, hj, i, hi, .inl h2⟩
    · exact fun h2 => h1 ⟨hv, j, hj, i, hi, .inr h2⟩

theorem flatMap_map {α β γ : Type} (l : List α) (f : α → List β) (g : β → γ) :
    (l.flatMap f).map g = l.flatMap fun a => (f a).map g := by
  induction l with
  | nil => rfl
  | cons a l ih => simp [ih]

theorem blitColours_eq (s : State) (x y : Int) (p : Nat) (w h : Int) :
    ((List.range (spanLen y h s.height.toNat)).flatMap fun j =>
      (List.range (spanLen x w s.width.toNat)).map fun i => blitIndex p x y w i j).map (fun k => (s.src.read k).getD 0) =
      blitColours s x y p w h := by
  rw [flatMap_map]
  simp only [blitColours, List.map_map]
  rfl

theorem length_flatMap_range (n m : Nat) {α : Type} (f : Nat → Nat → α) :
    ((List.range n).flatMap fun j => (List.range m).map fun i => f i j).length = m * n := by
  induction n with
  | zero => rfl
  | succ n ih => rw [List.range_succ, List.flatMap_append, List.length_append, ih]; simp [Nat.mul_succ]

theorem blitColours_length {s : State} {x y : Int} {p : Nat} {w h : Int} (hv : Visible s x y w h) :
    (blitColours s x y p w h).length = visibleCount s x y w h := by
  rw [visibleCount, if_pos hv]
  exact length_flatMap_range _ _ _

theorem bitmapItems_eq {s : State} (hW : 1 ≤ s.width.toNat) (hH : 1 ≤ s.height.toNat) (x y : Int) (p : Nat) {w h : Int}
    (hw : 1 ≤ w) (hh : 1 ≤ h) :
    bitmapItems s x y p w h =
      if BlitUndefined s x y p w h then none
      else some (if Visible s x y w h then visibleWindow s x y w h ++ (blitColours s x y p w h).map .pixel else []) := by
  unfold bitmapItems
  rw [State.clip_eq hW hH x y hw hh]
  by_cases hv : Visible s x y w h
  · rw [if_pos hv]
    simp only [toNat_spanLen, blitIndexes_visible]
    by_cases hu : BlitUndefined s x y p w h
    · rw [if_pos hu]
      have h1 := (not_congr (bitmap_defined_iff s x y p w h hv)).mpr (fun h => h hu)
      rw [← gather_isSome] at h1
      rcases hg : Memory.gather s.src _ with _ | cs
      · rfl
      · rw [hg] at h1; simp at h1
    · rw [if_neg hu, gather_eq ((bitmap_defined_iff s x y p w h hv).mpr hu), if_pos hv]
      simp only [blitColours_eq, visibleWindow]
  · rw [if_neg hv, if_neg (fun h => hv h.1), if_neg hv]

end Sys2Proof.Machine
end

