-- ==== Sys2Proof/Laws/Decode.lean ====
section
/-! SUPPORT. The descriptor as bytes and as bits loses nothing, opcodes and their codes correspond, and byte and Boolean
operands survive their 16-bit fields (spec 30_encoding.md R90 to R92). -/

namespace Sys2Proof

@[simp] theorem hi8_lo8 (v : Half) : hi8 v ++ lo8 v = v := by
  apply BitVec.eq_of_getLsbD_eq
  intro i hi
  simp only [hi8, lo8, BitVec.getLsbD_append, BitVec.getLsbD_extractLsb']
  by_cases h : i < 8
  · simp [h]
  · have h1 : i - 8 < 8 := by omega
    have h2 : 8 + (i - 8) = i := by omega
    simp [h, h1, h2]

@[simp] theorem hi16_lo16 (v : Word32) : hi16 v ++ lo16 v = v := by
  apply BitVec.eq_of_getLsbD_eq
  intro i hi
  simp only [hi16, lo16, BitVec.getLsbD_append, BitVec.getLsbD_extractLsb']
  by_cases h : i < 16
  · simp [h]
  · have h1 : i - 16 < 16 := by omega
    have h2 : 16 + (i - 16) = i := by omega
    simp [h, h1, h2]

@[simp] theorem hi8_append (a b : Byte) : hi8 (a ++ b) = a := by
  apply BitVec.eq_of_getLsbD_eq
  intro i hi
  have h := BitVec.getLsbD_append (x := a) (y := b) (i := 8 + i)
  simp only [hi8, BitVec.getLsbD_extractLsb', hi, decide_true, Bool.true_and]
  refine h.trans ?_
  simp [hi]

@[simp] theorem lo8_append (a b : Byte) : lo8 (a ++ b) = b := by
  apply BitVec.eq_of_getLsbD_eq
  intro i hi
  have h := BitVec.getLsbD_append (x := a) (y := b) (i := i)
  simp only [lo8, BitVec.getLsbD_extractLsb', hi, decide_true, Bool.true_and, Nat.zero_add]
  refine h.trans ?_
  simp [hi]

@[simp] theorem hi16_append (a b : Half) : hi16 (a ++ b) = a := by
  apply BitVec.eq_of_getLsbD_eq
  intro i hi
  have h := BitVec.getLsbD_append (x := a) (y := b) (i := 16 + i)
  simp only [hi16, BitVec.getLsbD_extractLsb', hi, decide_true, Bool.true_and]
  refine h.trans ?_
  simp [hi]

@[simp] theorem lo16_append (a b : Half) : lo16 (a ++ b) = b := by
  apply BitVec.eq_of_getLsbD_eq
  intro i hi
  have h := BitVec.getLsbD_append (x := a) (y := b) (i := i)
  simp only [lo16, BitVec.getLsbD_extractLsb', hi, decide_true, Bool.true_and, Nat.zero_add]
  refine h.trans ?_
  simp [hi]

/-- The bytes of a descriptor are read back, whatever follows them (R90). -/
@[simp] theorem ofBytes_toBytes (f : Descriptor) (rest : List Byte) :
    Descriptor.ofBytes? (f.toBytes ++ rest) = some (f, rest) := by
  simp [Descriptor.toBytes, Descriptor.ofBytes?, word32]

/-- Bytes that are a descriptor are its bytes and what follows them (R90). -/
theorem toBytes_ofBytes {bytes rest : List Byte} {f : Descriptor} (h : Descriptor.ofBytes? bytes = some (f, rest)) :
    f.toBytes ++ rest = bytes := by
  unfold Descriptor.ofBytes? at h
  split at h
  · injection h with h
    injection h with h1 h2
    subst h1; subst h2
    simp [Descriptor.toBytes, word32]
  · cases h

@[simp] theorem ofByte_code (o : Opcode) : Opcode.ofByte? o.code = some o := by cases o <;> rfl

/-- Only its own code is assigned to an opcode (R92). -/
theorem code_of_ofByte {b : Byte} {o : Opcode} (h : Opcode.ofByte? b = some o) : o.code = b := by
  apply BitVec.eq_of_toNat_eq
  unfold Opcode.ofByte? at h
  split at h <;> first | (injection h with h; subst h; simp [Opcode.code, *]) | cases h

@[simp] theorem lo8_ofByte (b : Byte) : lo8 (ofByte b) = b := by
  apply BitVec.eq_of_getLsbD_eq
  intro i hi
  simp [lo8, ofByte, hi]; omega

@[simp] theorem hi8_ofByte (b : Byte) : hi8 (ofByte b) = 0 := by
  apply BitVec.eq_of_getLsbD_eq
  intro i hi
  simp [hi8, ofByte]

/-- A 16-bit field with a zero high byte is its low byte (R91). -/
theorem ofByte_lo8 {v : Half} (h : hi8 v = 0) : ofByte (lo8 v) = v := by
  have e : v = (0 : Byte) ++ lo8 v := by rw [← h, hi8_lo8]
  rw [e, lo8_append]
  apply BitVec.eq_of_getLsbD_eq
  intro i hi
  have h := BitVec.getLsbD_append (x := (0 : Byte)) (y := lo8 v) (i := i)
  refine Eq.trans ?_ h.symm
  by_cases h8 : i < 8
  · simp [ofByte, h8, hi]
  · simp [ofByte, h8, BitVec.getLsbD_of_ge (lo8 v) i (by omega)]

@[simp] theorem getLsbD_ofFlag (b : Bool) : (ofFlag b).getLsbD 0 = b := by cases b <;> rfl

@[simp] theorem getElem_ofFlag (b : Bool) : (ofFlag b)[0] = b := by cases b <;> rfl

@[simp] theorem high_ofFlag (b : Bool) : (ofFlag b).extractLsb' 1 15 = 0 := by cases b <;> rfl

/-- A 16-bit field with nothing above bit 0 is its bit 0 (R91). -/
theorem ofFlag_getLsbD {v : Half} (h : v.extractLsb' 1 15 = 0) : ofFlag (v.getLsbD 0) = v := by
  apply BitVec.eq_of_getLsbD_eq
  intro i hi
  rcases i with _ | i
  · exact getLsbD_ofFlag _
  · have h1 := congrArg (fun u => u.getLsbD i) h
    simp only [BitVec.getLsbD_extractLsb', show i < 15 by omega, decide_true, Bool.true_and, Nat.add_comm 1 i] at h1
    rw [h1]
    cases v.getLsbD 0 <;> simp [ofFlag] <;> omega

/-! What the check of a layout admits. -/

theorem check_none {l : Layout} {f : Descriptor} :
    l.check f = none ↔ f.z = 0 ∧
      (l.a.unusedZero f.a && l.b.unusedZero f.b && l.c.unusedZero f.c && l.d.unusedZero f.d && l.e.unusedZero f.e &&
        (l.n || decide (f.n = 0)) && (l.p || decide (f.p = 0))) = true ∧
      (l.a.highZero f.a && l.b.highZero f.b && l.c.highZero f.c && l.d.highZero f.d && l.e.highZero f.e) = true := by
  unfold Layout.check
  by_cases hz : f.z = 0
  · rw [if_neg (fun h => h hz)]
    generalize (l.a.unusedZero f.a && l.b.unusedZero f.b && l.c.unusedZero f.c && l.d.unusedZero f.d && l.e.unusedZero f.e &&
      (l.n || decide (f.n = 0)) && (l.p || decide (f.p = 0))) = u
    generalize (l.a.highZero f.a && l.b.highZero f.b && l.c.highZero f.c && l.d.highZero f.d && l.e.highZero f.e) = v
    cases u <;> cases v <;> simp [hz]
  · rw [if_pos hz]
    exact ⟨(nomatch ·), fun h => absurd h.1 hz⟩

/-- A descriptor that decodes, in terms of its fields (R94). -/
theorem decodeFields_ok {port : Port} {f : Descriptor} {payload : List Byte} {i : Instr} :
    decodeFields port f payload = .ok i ↔
      ∃ o : Opcode, o.code = f.op ∧ o.port = port ∧ o.layout.check f = none ∧ payload.length = o.payloadLength f ∧
        o.build f payload = i := by
  unfold decodeFields
  rcases h : Opcode.ofByte? f.op with _ | o
  · simp only [reduceCtorEq, false_iff]
    rintro ⟨o, ho, _⟩
    rw [← ho, ofByte_code] at h
    cases h
  · have ho := code_of_ofByte h
    constructor
    · intro g
      refine ⟨o, ho, ?_⟩
      by_cases hp : o.port = port
      · rcases hc : o.layout.check f with _ | e
        · by_cases hl : payload.length = o.payloadLength f
          · simp [hp, hc, hl] at g; exact ⟨hp, rfl, hl, g⟩
          · simp [hp, hc, hl] at g
        · simp [hp, hc] at g
      · simp [hp] at g
    · rintro ⟨o', ho', hp, hc, hl, hb⟩
      have e : o' = o := by rw [← ho', ofByte_code] at h; injection h
      subst e
      simp [hp, hc, hl, hb]

end Sys2Proof
end

