-- ==== Sys2Proof/Laws/Memory.lean ====
section
/-! SUPPORT. The sparse memories: a write is read back, leaves other indexes alone, and keeps the canonical form; equal
memories are equal lists (spec 20_memory.md R57, R62). -/

namespace Sys2Proof.Machine

theorem Memory.wf_cons (a : Nat) (v : Colour) (m : Memory) :
    Memory.wf ((a, v) :: m) = true ↔ (∀ e ∈ m, a < e.1) ∧ Memory.wf m = true := by
  induction m generalizing a v with
  | nil => simp [Memory.wf]
  | cons e m ih =>
    obtain ⟨b, u⟩ := e
    have h := ih b u
    simp only [Memory.wf, Bool.and_eq_true, decide_eq_true_eq, List.mem_cons, forall_eq_or_imp]
    constructor
    · rintro ⟨h1, h2⟩
      exact ⟨⟨h1, fun e he => Nat.lt_trans h1 ((h.mp h2).1 e he)⟩, h2⟩
    · rintro ⟨⟨h1, _⟩, h2⟩
      exact ⟨h1, h2⟩

@[simp] theorem Memory.wf_nil : Memory.wf [] = true := rfl
@[simp] theorem Memory.read_nil (a : Nat) : Memory.read [] a = none := rfl

/-- An index below every listed one has no value. -/
theorem Memory.read_none {m : Memory} {a : Nat} (h : ∀ e ∈ m, a < e.1) : m.read a = none := by
  induction m with
  | nil => rfl
  | cons e m ih =>
    obtain ⟨b, u⟩ := e
    have hb : a < b := h (b, u) (by simp)
    simp only [Memory.read, if_neg (Nat.ne_of_lt hb)]
    exact ih fun e he => h e (by simp [he])

/-- The indexes a write lists. -/
theorem Memory.mem_write {m : Memory} {a : Nat} {c : Colour} {e : Nat × Colour} (h : e ∈ m.write a c) : e.1 = a ∨ e ∈ m := by
  induction m with
  | nil => simp [Memory.write] at h; simp [h]
  | cons f m ih =>
    obtain ⟨b, u⟩ := f
    unfold Memory.write at h
    split at h
    · rcases List.mem_cons.mp h with rfl | h
      · exact .inl rfl
      · exact .inr h
    · split at h
      · rcases List.mem_cons.mp h with rfl | h
        · exact .inl rfl
        · exact .inr (by simp [h])
      · rcases List.mem_cons.mp h with rfl | h
        · exact .inr (by simp)
        · rcases ih h with h | h
          · exact .inl h
          · exact .inr (by simp [h])

/-- A write keeps the canonical form. -/
theorem Memory.write_wf {m : Memory} (h : m.wf = true) (a : Nat) (c : Colour) : (m.write a c).wf = true := by
  induction m with
  | nil => rfl
  | cons f m ih =>
    obtain ⟨b, u⟩ := f
    have hf := (Memory.wf_cons b u m).mp h
    unfold Memory.write
    split
    · rename_i hab
      refine (Memory.wf_cons a c _).mpr ⟨fun e he => ?_, h⟩
      rcases List.mem_cons.mp he with rfl | he
      · exact hab
      · exact Nat.lt_trans hab (hf.1 e he)
    · split
      · rename_i hab
        exact (Memory.wf_cons a c m).mpr ⟨fun e he => by rw [hab]; exact hf.1 e he, hf.2⟩
      · refine (Memory.wf_cons b u _).mpr ⟨fun e he => ?_, ih hf.2⟩
        rcases Memory.mem_write he with he | he
        · omega
        · exact hf.1 e he

/-- What a read finds after a write. -/
theorem Memory.read_write {m : Memory} (h : m.wf = true) (a b : Nat) (c : Colour) :
    (m.write a c).read b = if b = a then some c else m.read b := by
  induction m with
  | nil => simp [Memory.write, Memory.read]
  | cons f m ih =>
    obtain ⟨d, u⟩ := f
    have hf := (Memory.wf_cons d u m).mp h
    unfold Memory.write
    split
    · simp [Memory.read]
    · split
      · rename_i had
        subst had
        simp only [Memory.read]
        split <;> rfl
      · rename_i h1 h2
        simp only [Memory.read, ih hf.2]
        by_cases hbd : b = d
        · have : b ≠ a := by omega
          simp [hbd]; omega
        · simp [hbd]

/-- Equal memories are equal lists. -/
theorem Memory.ext_read {m n : Memory} (hm : m.wf = true) (hn : n.wf = true) (h : ∀ a, m.read a = n.read a) : m = n := by
  induction m generalizing n with
  | nil =>
    rcases n with _ | ⟨⟨b, u⟩, n⟩
    · rfl
    · have := h b; simp [Memory.read] at this
  | cons e m ih =>
    obtain ⟨a, v⟩ := e
    have hm' := (Memory.wf_cons a v m).mp hm
    rcases n with _ | ⟨⟨b, u⟩, n⟩
    · have := h a; simp [Memory.read] at this
    · have hn' := (Memory.wf_cons b u n).mp hn
      have hab : a = b := by
        rcases Nat.lt_trichotomy a b with hlt | heq | hgt
        · have := h a
          rw [Memory.read_none (m := (b, u) :: n) (a := a)] at this
          · simp [Memory.read] at this
          · intro e he
            rcases List.mem_cons.mp he with rfl | he
            · exact hlt
            · exact Nat.lt_trans hlt (hn'.1 e he)
        · exact heq
        · have := h b
          rw [Memory.read_none (m := (a, v) :: m) (a := b)] at this
          · simp [Memory.read] at this
          · intro e he
            rcases List.mem_cons.mp he with rfl | he
            · exact hgt
            · exact Nat.lt_trans hgt (hm'.1 e he)
      subst hab
      have hvu : v = u := by have := h a; simpa [Memory.read] using this
      subst hvu
      congr 1
      refine ih hm'.2 hn'.2 fun c => ?_
      by_cases hc : c = a
      · subst hc; rw [Memory.read_none hm'.1, Memory.read_none hn'.1]
      · have := h c; simpa [Memory.read, hc] using this

/-- Distinct cells have distinct indexes. -/
theorem fbIndex_inj {col row col' row' : Half} (h : fbIndex col row = fbIndex col' row') : col = col' ∧ row = row' := by
  have h1 := col.isLt
  have h2 := col'.isLt
  unfold fbIndex at h
  constructor <;> apply BitVec.eq_of_toNat_eq <;> omega

@[simp] theorem reset_memories : MemoriesOk State.reset := ⟨rfl, rfl⟩

end Sys2Proof.Machine
end

