-- ==== Sys2Proof/Laws/Nest.lean ====
section
/-! SUPPORT. A walk looks neither at `DEPTH` nor at the last result, so a bracket inside another bracket leaves nothing
behind (spec 10_state.md R29, 43_drawing.md R189, R196); and what the walk of `BEGIN` sends. -/

namespace Sys2Proof.Machine

/-- The last result is another. -/
def State.setResult (s : State) (r : Option Result) : State := { s with result := r }

/-- A change of the state that a procedure neither sees nor undoes. -/
def Blind (u : State → State) (p : Proc) : Prop := ∀ s, p (u s) = ((p s).1, u (p s).2)

/-- A change of the state that the wire does not see. -/
structure OffWire (u : State → State) : Prop where
  session : ∀ s, (u s).session = s.session
  wmode : ∀ s, (u s).wmode = s.wmode
  draw : ∀ s, drawXfer (u s) = ((drawXfer s).1, u (drawXfer s).2)
  emit : ∀ s e, (u s).emit e = u (s.emit e)
  drive : ∀ s v, (u s).drive .dc v = u (s.drive .dc v)
  setWmode : ∀ s w, (u s).setWmode w = u (s.setWmode w)
  cfg : ∀ s, (u s).cfg = s.cfg
  lose : ∀ s, ((u s).setPanel (.lost (u s).draws)).tick = u ((s.setPanel (.lost s.draws)).tick)

theorem offWire_setDepth (d : Nat) : OffWire (fun s => s.setDepth d) where
  session _ := rfl
  wmode _ := rfl
  draw s := by
    unfold drawXfer
    rw [State.setDepth_xfers]
    rcases s.xfers with _ | ⟨a, r⟩ <;> rfl
  emit _ _ := rfl
  drive _ _ := rfl
  setWmode _ _ := rfl
  cfg _ := rfl
  lose _ := rfl

theorem offWire_setResult (r : Option Result) : OffWire (fun s => s.setResult r) where
  session _ := rfl
  wmode _ := rfl
  draw s := by
    unfold drawXfer
    rw [show (s.setResult r).xfers = s.xfers from rfl]
    rcases s.xfers with _ | ⟨a, r⟩ <;> rfl
  emit _ _ := rfl
  drive _ _ := rfl
  setWmode _ _ := rfl
  cfg _ := rfl
  lose _ := rfl

variable {u : State → State}

theorem xferByte_blind (hu : OffWire u) (b : Byte) (s : State) :
    xferByte b (u s) = ((xferByte b s).1, u (xferByte b s).2) := by
  unfold xferByte
  rw [hu.session, hu.draw]
  by_cases h : s.session = .opened
  · simp only [if_pos h]
    rcases drawXfer s with ⟨_ | r, t⟩ <;> simp [hu.emit, hu.setWmode]
  · simp only [if_neg h]

theorem data8_blind (hu : OffWire u) (b : Byte) : Blind u (data8 b) := by
  intro s
  unfold data8
  rw [xferByte_blind hu]
  rcases xferByte b s with ⟨_ | _, _⟩ <;> rfl

theorem andThen_blind {p q : Proc} (hp : Blind u p) (hq : Blind u q) : Blind u (p.andThen q) := by
  intro s
  unfold Proc.andThen
  rw [hp]
  rcases p s with ⟨_ | _, t⟩
  · exact hq t
  · rfl

theorem runItem_blind (hu : OffWire u) (i : WireItem) : Blind u (runItem i) := by
  cases i with
  | command c =>
    intro s
    show writeCommand c (u s) = ((writeCommand c s).1, u (writeCommand c s).2)
    unfold writeCommand
    rw [hu.drive, xferByte_blind hu]
    rcases xferByte c (s.drive .dc .low) with ⟨_ | _, _⟩ <;> simp [hu.drive, hu.setWmode, hu.cfg]
  | data b => exact data8_blind hu b
  | pixel c =>
    intro s
    have e : (u s).streamHazard = u s.streamHazard := by
      unfold State.streamHazard
      rw [hu.wmode]
      by_cases h : s.wmode = true
      · simp only [if_pos h]
      · simp only [if_neg h]; exact hu.lose s
    show data16 c (u s).streamHazard = ((data16 c s.streamHazard).1, u (data16 c s.streamHazard).2)
    rw [e]
    exact andThen_blind (data8_blind hu _) (data8_blind hu _) _
  | delay ms =>
    intro s
    show (none, (u s).wait ms) = (none, u (s.wait ms))
    simp [State.wait, hu.emit]

theorem runItems_blind (hu : OffWire u) (is : List WireItem) : Blind u (runItems is) := by
  induction is with
  | nil => intro s; rfl
  | cons i is ih => exact andThen_blind (runItem_blind hu i) ih

/-- A bracket inside another bracket sends nothing of its own. -/
theorem bracketed_inner (is : List WireItem) {s : State} (hd : 1 ≤ s.depth) : bracketed (runItems is) s = runItems is s := by
  have h := (runItems_onWire is s).depth
  unfold bracketed startWrite
  rw [if_neg (by omega), runItems_blind (offWire_setDepth _)]
  rcases hx : runItems is s with ⟨e, t⟩
  rw [hx] at h
  simp only at h ⊢
  unfold endWrite
  rw [if_neg (show ¬ ((t.setDepth (s.depth + 1)).depth - 1 = 0) by simp only [State.setDepth_depth]; omega)]
  have e : (t.setDepth (s.depth + 1)).setDepth ((t.setDepth (s.depth + 1)).depth - 1) = t := by
    rcases t; simp only [State.setDepth] at *; simp [h]
  rw [e]

/-! The walk of `BEGIN` (41_lifecycle.md R130). -/

theorem walkEvents_init (cfg : Cfg) : walkEvents (initItems cfg) = cfg.initSeq.flatMap (fun e => frameEvents e.1 e.2) := by
  unfold initItems
  generalize cfg.initSeq = l
  induction l with
  | nil => rfl
  | cons e l ih => simp [ih, WireItem.events, frameEvents, byteEvents]

theorem walkExchanges_init (cfg : Cfg) :
    walkExchanges (initItems cfg) = (cfg.initSeq.map fun e => 1 + e.2.length).sum := by
  unfold initItems
  generalize cfg.initSeq = l
  induction l with
  | nil => rfl
  | cons e l ih => simp [ih, WireItem.exchanges]; omega

theorem walkEvents_begin (cfg : Cfg) : walkEvents (beginItems cfg) = beginFrames cfg := by
  simp [beginItems, beginFrames, walkEvents_init, WireItem.events, Config.tSlpoutMs, Config.tDisponMs]

theorem walkExchanges_begin (cfg : Cfg) : walkExchanges (beginItems cfg) = beginExchanges cfg := by
  simp [beginItems, beginExchanges, walkExchanges_init, WireItem.exchanges]

end Sys2Proof.Machine
end

