-- ==== Sys2Proof/Laws/Outcome.lean ====
section
/-! SUPPORT. Everything a walk can do, whatever the environment answers: which statuses it raises, what it puts on the wire,
and what a failed exchange leaves (spec 60_exceptions.md R248, 30_encoding.md R80). -/

namespace Sys2Proof.Machine

/-- Events after which the framing stands where it stood: `CS` low, `DC` high (30_encoding.md R80). -/
def Framing (evs : List Event) : Prop := ∀ es, framed .low .high false (evs ++ es) = framed .low .high false es

theorem Framing.nil : Framing [] := fun _ => rfl

theorem Framing.append {a b : List Event} (ha : Framing a) (hb : Framing b) : Framing (a ++ b) := by
  intro es; rw [List.append_assoc, ha, hb]

/-- No exchange failed among these events. -/
def NoFailure (evs : List Event) : Prop := ∀ e ∈ evs, ∀ out, e ≠ .xferFail out

theorem NoFailure.append {a b : List Event} (ha : NoFailure a) (hb : NoFailure b) : NoFailure (a ++ b) := by
  intro e he
  rcases List.mem_append.mp he with he | he
  · exact ha e he
  · exact hb e he

/-- The last exchange of these events failed, and at most `DC` was driven high after it. -/
def EndsInFailure (evs : List Event) : Prop :=
  ∃ (before after : List Event) (b : Byte), evs = before ++ [.xferFail b] ++ after ∧ NoFailure before ∧
    ∀ e ∈ after, e = .line .dc .high

theorem EndsInFailure.prepend {a b : List Event} (ha : NoFailure a) (hb : EndsInFailure b) : EndsInFailure (a ++ b) := by
  obtain ⟨p, q, x, rfl, h1, h2⟩ := hb
  exact ⟨a ++ p, q, x, by simp, ha.append h1, h2⟩

/-- What a procedure that found the session open leaves: it returned or a transfer failed, and the frame, the framing and
the trace are as they must be. -/
structure Ran (s : State) (r : Option Status × State) (evs : List Event) : Prop where
  frame : OnWire s r.2
  trace : r.2.trace = s.trace ++ evs
  framing : Framing evs
  dc : s.dcLine = .driven .high → r.2.dcLine = .driven .high
  status : (r.1 = none ∧ NoFailure evs) ∨
    (r.1 = some .transferFailure ∧ EndsInFailure evs ∧ r.2.wmode = false ∧ r.2.panel.mode = .unknown)

theorem xferByte_ran (b : Byte) {s : State} (hs : s.session = .opened) :
    (∃ x, (xferByte b s).1 = .ok x ∧ (xferByte b s).2.trace = s.trace ++ [.xfer b x] ∧
      (xferByte b s).2.dcLine = s.dcLine) ∨
    ((xferByte b s).1 = .error .transferFailure ∧ (xferByte b s).2.trace = s.trace ++ [.xferFail b] ∧
      (xferByte b s).2.dcLine = s.dcLine ∧ (xferByte b s).2.wmode = false ∧ (xferByte b s).2.panel.mode = .unknown) := by
  rcases xferByte_cases b s with ⟨hc, _⟩ | ⟨_, r, hr, hx⟩ | ⟨_, hr, hx⟩
  · exact absurd hs hc
  · exact .inl ⟨r, by rw [hx], by rw [hx]; simp, by rw [hx]; simp⟩
  · exact .inr ⟨by rw [hx], by rw [hx]; simp, by rw [hx]; simp, by rw [hx]; simp, by rw [hx]; simp [Panel.onEvent, Panel.lost]⟩

theorem data8_ran (b : Byte) {s : State} (hs : s.session = .opened) : ∃ evs, Ran s (data8 b s) evs := by
  have hw := data8_onWire b s
  rcases xferByte_ran b hs with ⟨x, h1, h2, h3⟩ | ⟨h1, h2, h3, h4, h5⟩ <;>
    rcases hx : xferByte b s with ⟨_ | y, t⟩ <;> rw [hx] at h1 h2 h3 <;> simp only [data8, hx] at hw ⊢
  · cases h1
  · exact ⟨[.xfer b x], hw, h2, fun es => by simp [framed], fun h => h3.trans h, .inl ⟨rfl, by simp [NoFailure]⟩⟩
  · rw [hx] at h4 h5
    simp only [Except.error.injEq] at h1
    exact ⟨[.xferFail b], hw, h2, fun es => by simp [framed], fun h => h3.trans h,
      .inr ⟨by rw [h1], ⟨[], [], b, rfl, by simp [NoFailure], by simp⟩, h4, h5⟩⟩
  · cases h1

theorem writeCommand_ran (c : Byte) {s : State} (hs : s.session = .opened) : ∃ evs, Ran s (writeCommand c s) evs := by
  have hw := writeCommand_onWire c s
  have hs' : (s.drive .dc .low).session = .opened := by simpa using hs
  rcases xferByte_ran c hs' with ⟨x, h1, h2, h3⟩ | ⟨h1, h2, h3, h4, h5⟩ <;>
    rcases hx : xferByte c (s.drive .dc .low) with ⟨_ | y, t⟩ <;> rw [hx] at h1 h2 h3 <;> simp only [writeCommand, hx] at hw ⊢
  · cases h1
  · refine ⟨[.line .dc .low, .xfer c x, .line .dc .high], hw, ?_, fun es => by simp [framed], fun h => by simp,
      .inl ⟨rfl, by simp [NoFailure]⟩⟩
    simp only at h2
    simp [h2]
  · rw [hx] at h4 h5
    simp only [Except.error.injEq] at h1
    refine ⟨[.line .dc .low, .xferFail c, .line .dc .high], hw, ?_, fun es => by simp [framed], fun h => by simp,
      .inr ⟨by rw [h1], ⟨[.line .dc .low], [.line .dc .high], c, rfl, by simp [NoFailure], by simp⟩, by simp, ?_⟩⟩
    · simp only at h2
      simp [h2]
    · simpa [Panel.onEvent] using h5
  · cases h1

theorem andThen_ran {p q : Proc} (hp : ∀ {s : State}, s.session = .opened → ∃ evs, Ran s (p s) evs)
    (hq : ∀ {s : State}, s.session = .opened → ∃ evs, Ran s (q s) evs) {s : State} (hs : s.session = .opened) :
    ∃ evs, Ran s (p.andThen q s) evs := by
  obtain ⟨e1, g⟩ := hp hs
  rcases hps : p s with ⟨_ | e, t⟩ <;> rw [hps] at g <;> simp only [Proc.andThen, hps]
  · obtain ⟨e2, k⟩ := hq (g.frame.session.trans hs)
    have hn : NoFailure e1 := by
      rcases g.status with ⟨_, h⟩ | ⟨h, _⟩
      · exact h
      · cases h
    refine ⟨e1 ++ e2, g.frame.trans k.frame, by rw [k.trace, g.trace, List.append_assoc], g.framing.append k.framing,
      fun h => k.dc (g.dc h), ?_⟩
    rcases k.status with ⟨h1, h2⟩ | ⟨h1, h2, h3, h4⟩
    · exact .inl ⟨h1, hn.append h2⟩
    · exact .inr ⟨h1, h2.prepend hn, h3, h4⟩
  · exact ⟨e1, g⟩

theorem streamHazard_ran {p : Proc} (hp : ∀ {s : State}, s.session = .opened → ∃ evs, Ran s (p s) evs) {s : State}
    (hs : s.session = .opened) : ∃ evs, Ran s (p s.streamHazard) evs := by
  obtain ⟨evs, g⟩ := hp (s := s.streamHazard) (by simpa using hs)
  exact ⟨evs, (streamHazard_onWire s).trans g.frame, by simpa using g.trace, g.framing, fun h => g.dc (by simpa using h),
    g.status⟩

theorem runItem_ran (i : WireItem) {s : State} (hs : s.session = .opened) : ∃ evs, Ran s (runItem i s) evs := by
  cases i with
  | command c => exact writeCommand_ran c hs
  | data b => exact data8_ran b hs
  | pixel c => exact streamHazard_ran (andThen_ran (data8_ran _) (data8_ran _)) hs
  | delay ms =>
    exact ⟨[.delay ms], emit_onWire s _, by simp [runItem, State.wait], fun es => by simp [framed], fun h => h,
      .inl ⟨rfl, by simp [NoFailure]⟩⟩

/-- Everything a walk can do while the session is open. -/
theorem runItems_ran (is : List WireItem) {s : State} (hs : s.session = .opened) : ∃ evs, Ran s (runItems is s) evs := by
  induction is generalizing s with
  | nil => exact ⟨[], .refl s, by simp [runItems, Proc.skip], Framing.nil, fun h => h, .inl ⟨rfl, by simp [NoFailure]⟩⟩
  | cons i is ih => exact andThen_ran (runItem_ran i) ih hs

/-! Without a session. -/

theorem xferByte_trace (b : Byte) (s : State) : ∃ evs, (xferByte b s).2.trace = s.trace ++ evs := by
  rcases xferByte_cases b s with ⟨_, hx⟩ | ⟨_, r, _, hx⟩ | ⟨_, _, hx⟩ <;> rw [hx]
  · exact ⟨[], by simp⟩
  · exact ⟨[.xfer b r], by simp⟩
  · exact ⟨[.xferFail b], by simp⟩

theorem xferByte_status (b : Byte) (s : State) (e : Status) (h : (xferByte b s).1 = .error e) :
    e = .transferFailure ∨ (e = .notReady ∧ s.session ≠ .opened) := by
  rcases xferByte_cases b s with ⟨hc, hx⟩ | ⟨_, r, _, hx⟩ | ⟨_, _, hx⟩ <;> rw [hx] at h
  · injection h with h; exact .inr ⟨h.symm, hc⟩
  · cases h
  · injection h with h; exact .inl h.symm

/-- What every procedure of the block keeps: its trace grows, and it raises nothing else. -/
structure Tame (s : State) (r : Option Status × State) : Prop where
  frame : OnWire s r.2
  trace : ∃ evs, r.2.trace = s.trace ++ evs
  status : r.1 = none ∨ r.1 = some .transferFailure ∨ (r.1 = some .notReady ∧ s.session ≠ .opened)

theorem data8_tame (b : Byte) (s : State) : Tame s (data8 b s) := by
  refine ⟨data8_onWire b s, data8_snd b s ▸ xferByte_trace b s, ?_⟩
  have hs := xferByte_status b s
  unfold data8
  rcases hx : xferByte b s with ⟨e | x, t⟩
  · rcases hs e (by rw [hx]) with h | ⟨h, hc⟩
    · exact .inr (.inl (by rw [h]))
    · exact .inr (.inr ⟨by rw [h], hc⟩)
  · exact .inl rfl

theorem writeCommand_tame (c : Byte) (s : State) : Tame s (writeCommand c s) := by
  refine ⟨writeCommand_onWire c s, ?_, ?_⟩
  · obtain ⟨evs, h⟩ := xferByte_trace c (s.drive .dc .low)
    unfold writeCommand
    rcases hx : xferByte c (s.drive .dc .low) with ⟨e | x, t⟩ <;> rw [hx] at h <;> simp only at h
    · exact ⟨[.line .dc .low] ++ evs ++ [.line .dc .high], by simp [h]⟩
    · exact ⟨[.line .dc .low] ++ evs ++ [.line .dc .high], by simp [h]⟩
  · have hs := xferByte_status c (s.drive .dc .low)
    unfold writeCommand
    rcases hx : xferByte c (s.drive .dc .low) with ⟨e | x, t⟩
    · rcases hs e (by rw [hx]) with h | ⟨h, hc⟩
      · exact .inr (.inl (by rw [h]))
      · exact .inr (.inr ⟨by rw [h], by simpa using hc⟩)
    · exact .inl rfl

theorem andThen_tame {p q : Proc} (hp : ∀ s, Tame s (p s)) (hq : ∀ s, Tame s (q s)) (s : State) : Tame s (p.andThen q s) := by
  have g := hp s
  unfold Proc.andThen
  rcases hps : p s with ⟨_ | e, t⟩ <;> rw [hps] at g
  · have k := hq t
    obtain ⟨e1, h1⟩ := g.trace
    obtain ⟨e2, h2⟩ := k.trace
    refine ⟨g.frame.trans k.frame, ⟨e1 ++ e2, by rw [h2, h1, List.append_assoc]⟩, ?_⟩
    rcases k.status with h | h | ⟨h, hc⟩
    · exact .inl h
    · exact .inr (.inl h)
    · exact .inr (.inr ⟨h, by rw [← g.frame.session]; exact hc⟩)
  · exact g

theorem runItem_tame (i : WireItem) (s : State) : Tame s (runItem i s) := by
  cases i with
  | command c => exact writeCommand_tame c s
  | data b => exact data8_tame b s
  | pixel c =>
    have g := andThen_tame (data8_tame (hi8 c)) (data8_tame (lo8 c)) s.streamHazard
    obtain ⟨evs, h⟩ := g.trace
    have h' := g.status
    rw [State.streamHazard_trace] at h
    rw [State.streamHazard_session] at h'
    exact ⟨(streamHazard_onWire s).trans g.frame, ⟨evs, h⟩, h'⟩
  | delay ms => exact ⟨emit_onWire s _, ⟨[.delay ms], by simp [runItem, State.wait]⟩, .inl rfl⟩

theorem runItems_tame (is : List WireItem) (s : State) : Tame s (runItems is s) := by
  induction is generalizing s with
  | nil => exact ⟨.refl s, ⟨[], by simp [runItems, Proc.skip]⟩, .inl rfl⟩
  | cons i is ih => exact andThen_tame (runItem_tame i) ih s

end Sys2Proof.Machine
end

