-- ==== Sys2Proof/Laws/Panel.lean ====
section
/-! SUPPORT. What a walk inside a bracket keeps of the panel (spec 20_memory.md R62 to R67): the invariant of the wire, which
every step of a walk keeps whatever the environment answers. -/

namespace Sys2Proof.Machine

/-- What holds before a command byte inside a bracket. -/
structure Selected (s : State) : Prop where
  cfg : s.cfg.wf = true
  session : s.session = .opened
  dc : s.dcLine = .driven .high
  cs : s.csLine = .driven .low
  wf : s.panel.fb.wf = true
  half : s.panel.half.isSome = true → s.panel.mode = .write
  acc : ∀ k, s.panel.mode = .col k ∨ s.panel.mode = .row k → s.panel.acc.length = k.val

/-- What holds between the steps of a walk inside a bracket. -/
structure Wired (s : State) : Prop extends Selected s where
  stream : s.panel.mode = .write →
    windowInside s.panel.win s.width s.height = true ∧ CursorIn s.panel.win s.panel.cur ∧ s.wmode = true
  wmode : s.wmode = true → s.panel.mode = .write ∨ s.panel.mode = .unknown

/-- A lost panel with no stream in force meets the invariant whatever came before. -/
theorem Wired.lost {s t : State} (h : Selected s) (hw : OnWire s t) (hd : t.dcLine = .driven .high) {n : Nat}
    (hp : t.panel = .lost n) : Wired t where
  cfg := by rw [hw.cfg]; exact h.cfg
  session := hw.session.trans h.session
  dc := hd
  cs := hw.csLine.trans h.cs
  wf := by rw [hp]; rfl
  half := by rw [hp]; simp [Panel.lost]
  acc := by rw [hp]; simp [Panel.lost]
  stream := by rw [hp]; simp [Panel.lost]
  wmode := by rw [hp]; simp [Panel.lost]

/-- What a command byte leaves of a panel. -/
theorem onCommand_cases (cfg : Cfg) (width height : Half) (fr : Nat) (c : Byte) (p : Panel) :
    (Panel.onCommand cfg width height fr c p = p ∧ p.mode = .unknown) ∨
    Panel.onCommand cfg width height fr c p = .lost fr ∨
    (c = cfg.cmdCaset ∧ p.cutShort = false ∧ Panel.onCommand cfg width height fr c p = { p with mode := .col 0, acc := [] }) ∨
    (c = cfg.cmdPaset ∧ p.cutShort = false ∧ Panel.onCommand cfg width height fr c p = { p with mode := .row 0, acc := [] }) ∨
    (c = cfg.cmdRamwr ∧ p.cutShort = false ∧ windowInside p.win width height = true ∧
      Panel.onCommand cfg width height fr c p = { p with mode := .write, cur := ⟨p.win.xs, p.win.ys⟩, half := none }) ∨
    (c ≠ cfg.cmdRamwr ∧ p.cutShort = false ∧ ∃ w fb, (fb = p.fb ∨ fb = []) ∧
      Panel.onCommand cfg width height fr c p = { p with mode := .other, win := w, fb := fb }) := by
  unfold Panel.onCommand
  by_cases h0 : p.mode = .unknown
  · exact .inl ⟨by simp [h0], h0⟩
  rw [if_neg h0]
  by_cases h1 : p.cutShort = true
  · exact .inr (.inl (by simp [h1]))
  have h1' : p.cutShort = false := by simpa using h1
  rw [if_neg h1]
  by_cases h2 : c = cfg.cmdCaset
  · exact .inr (.inr (.inl ⟨h2, h1', by simp [h2]⟩))
  rw [if_neg h2]
  by_cases h3 : c = cfg.cmdPaset
  · exact .inr (.inr (.inr (.inl ⟨h3, h1', by simp [h3]⟩)))
  rw [if_neg h3]
  by_cases h4 : c = cfg.cmdRamwr
  · rw [if_pos h4]
    by_cases h5 : windowInside p.win width height = true
    · exact .inr (.inr (.inr (.inr (.inl ⟨h4, h1', h5, by simp [h5]⟩))))
    · exact .inr (.inl (by simp [h5]))
  rw [if_neg h4]
  by_cases h5 : c ∈ cfg.fbPreserving
  · exact .inr (.inr (.inr (.inr (.inr ⟨h4, h1', p.win, p.fb, .inl rfl, by simp [h5]⟩))))
  · exact .inr (.inr (.inr (.inr (.inr ⟨h4, h1', _, [], .inr rfl, by rw [if_neg h5]⟩))))

theorem cutShort_half {p : Panel} (h : p.cutShort = false) : p.half = none := by
  unfold Panel.cutShort at h
  rcases hh : p.half with _ | b
  · rfl
  · simp [hh] at h

theorem cursor_first {w : Window} {width height : Half} (h : windowInside w width height = true) :
    CursorIn w ⟨w.xs, w.ys⟩ := by
  simp [windowInside] at h
  exact ⟨Nat.le_refl _, h.1.1.1, Nat.le_refl _, h.1.2⟩

/-- The cursor stays in the window. -/
theorem nextCursor_in {w : Window} {width height : Half} {c : Cursor} (h : windowInside w width height = true)
    (hc : CursorIn w c) : CursorIn w (nextCursor w c) := by
  have h1 := cursor_first h
  have hx := w.xe.isLt
  have hy := w.ye.isLt
  unfold nextCursor CursorIn at *
  split
  · have : (c.cx + 1).toNat = c.cx.toNat + 1 := by rw [BitVec.toNat_add]; simp; omega
    simp only [this, if_pos hc.2.2.2]; omega
  · split
    · have : (c.cy + 1).toNat = c.cy.toNat + 1 := by rw [BitVec.toNat_add]; simp; omega
      simp only [this]; omega
    · exact h1

/-- The wire after a command byte, sent or failed. -/
theorem writeCommand_wired (c : Byte) {s : State} (h : Selected s) : Wired (writeCommand c s).2 := by
  have hs : (s.drive .dc .low).session = .opened := by simpa using h.session
  have hd := (driveDc_onWire s .low)
  rcases xferByte_cases c (s.drive .dc .low) with ⟨hc, _⟩ | ⟨_, r, hr, hx⟩ | ⟨_, hr, hx⟩
  · exact absurd hs hc
  · have hw := writeCommand_onWire c s
    simp only [writeCommand, hx] at hw ⊢
    have hg := drawXfer_onWire (s.drive .dc .low)
    generalize hu : (drawXfer (s.drive .dc .low)).2 = u at *
    have upanel : u.panel = s.panel := by rw [← hu]; simp [Panel.onEvent]
    have udc : u.dcLine = .driven .low := by rw [← hu]; simp
    have ucs : u.csLine = .driven .low := by rw [← hu]; simp [h.cs]
    have ucfg : u.cfg = s.cfg := by rw [hg.cfg]; simp
    have uw : u.width = s.width := by rw [hg.width]; simp
    have uh : u.height = s.height := by rw [hg.height]; simp
    have hp : (((u.emit (.xfer c r)).drive .dc .high).setWmode (wmodeAfter ((u.emit (.xfer c r))).cfg c)).panel =
        Panel.onCommand s.cfg s.width s.height u.draws c s.panel := by
      simp [Panel.onEvent, Panel.onXfer, upanel, udc, ucs, ucfg, uw, uh]
    have hwm : (((u.emit (.xfer c r)).drive .dc .high).setWmode (wmodeAfter ((u.emit (.xfer c r))).cfg c)).wmode =
        decide (c = s.cfg.cmdRamwr) := by simp [wmodeAfter, ucfg]
    generalize ht : ((u.emit (.xfer c r)).drive .dc .high).setWmode (wmodeAfter ((u.emit (.xfer c r))).cfg c) = t at *
    have tdc : t.dcLine = .driven .high := by rw [← ht]; simp
    have mk : ∀ p : Panel, t.panel = p → p.fb.wf = true → (p.half.isSome = true → p.mode = .write) →
        (∀ k, p.mode = .col k ∨ p.mode = .row k → p.acc.length = k.val) → Selected t := by
      rintro p rfl h1 h2 h3
      exact ⟨by rw [hw.cfg]; exact h.cfg, hw.session.trans h.session, tdc, hw.csLine.trans h.cs, h1, h2, h3⟩
    have hcfg := h.cfg
    simp only [Cfg.wf, Bool.and_eq_true, decide_eq_true_eq] at hcfg
    rcases onCommand_cases s.cfg s.width s.height u.draws c s.panel with
      ⟨he, hm⟩ | he | ⟨hc, hcut, he⟩ | ⟨hc, hcut, he⟩ | ⟨hc, hcut, hin, he⟩ | ⟨hc, hcut, w, fb, hfb, he⟩ <;> rw [he] at hp
    · exact ⟨mk _ hp h.wf h.half h.acc, by rw [hp, hm]; simp, by rw [hp, hm]; simp⟩
    · exact Wired.lost h hw tdc hp
    · have hn : c ≠ s.cfg.cmdRamwr := by rw [hc]; exact hcfg.1.2
      refine ⟨mk _ hp h.wf (by simp [cutShort_half hcut]) ?_, by rw [hp]; simp, by rw [hwm]; simp [hn]⟩
      rintro k (hk | hk) <;> simp at hk
      rw [← hk]; rfl
    · have hn : c ≠ s.cfg.cmdRamwr := by rw [hc]; exact hcfg.2
      refine ⟨mk _ hp h.wf (by simp [cutShort_half hcut]) ?_, by rw [hp]; simp, by rw [hwm]; simp [hn]⟩
      rintro k (hk | hk) <;> simp at hk
      rw [← hk]; rfl
    · refine ⟨mk _ hp h.wf (by simp) (by simp), fun _ => ?_, fun _ => by rw [hp]; simp⟩
      rw [hp, hw.width, hw.height, hwm]
      exact ⟨hin, cursor_first hin, by simp [hc]⟩
    · refine ⟨mk _ hp ?_ (by simp [cutShort_half hcut]) (by simp), by rw [hp]; simp, by rw [hwm]; simp [hc]⟩
      rcases hfb with rfl | rfl
      · exact h.wf
      · rfl
  · have hw := writeCommand_onWire c s
    simp only [writeCommand, hx] at hw ⊢
    exact Wired.lost h hw (by simp) (n := (drawXfer (s.drive .dc .low)).2.draws) (by simp [Panel.onEvent])

/-- The panel after a data byte. -/
theorem onData_wired {s t : State} (h : Wired s) (hw : OnWire s t) (hd : t.dcLine = s.dcLine) (hm : t.wmode = s.wmode) {b : Byte}
    {n : Nat} (hp : t.panel = s.panel.onData n b) : Wired t := by
  have mk : ∀ p : Panel, t.panel = p → p.fb.wf = true → (p.half.isSome = true → p.mode = .write) →
      (∀ k, p.mode = .col k ∨ p.mode = .row k → p.acc.length = k.val) → Selected t := by
    rintro p rfl h1 h2 h3
    exact ⟨by rw [hw.cfg]; exact h.cfg, hw.session.trans h.session, hd.trans h.dc, hw.csLine.trans h.cs, h1, h2, h3⟩
  have td := hd.trans h.dc
  rcases hmode : s.panel.mode with _ | k | k | _ | _ | _ <;> simp only [Panel.onData, hmode] at hp
  · exact Wired.lost h.toSelected hw td hp
  · have hnw : s.wmode ≠ true := fun e => by have := h.wmode e; simp [hmode] at this
    have hh : s.panel.half.isSome ≠ true := fun e => by have := h.half e; simp [hmode] at this
    have ha : s.panel.acc.length = k.val := h.acc k (.inl hmode)
    unfold Panel.onColByte at hp
    by_cases hk : k = 3
    · rw [if_pos hk] at hp
      split at hp
      · exact ⟨mk _ hp h.wf (by simpa using hh) (by simp), by rw [hp]; simp, by rw [hm]; exact fun e => absurd e hnw⟩
      · exact Wired.lost h.toSelected hw td hp
    · rw [if_neg hk] at hp
      refine ⟨mk _ hp h.wf (by simpa using hh) ?_, by rw [hp]; simp, by rw [hm]; exact fun e => absurd e hnw⟩
      rintro j (hj | hj) <;> simp at hj
      rw [← hj]; simp [ha]; omega
  · have hnw : s.wmode ≠ true := fun e => by have := h.wmode e; simp [hmode] at this
    have hh : s.panel.half.isSome ≠ true := fun e => by have := h.half e; simp [hmode] at this
    have ha : s.panel.acc.length = k.val := h.acc k (.inr hmode)
    unfold Panel.onRowByte at hp
    by_cases hk : k = 3
    · rw [if_pos hk] at hp
      split at hp
      · exact ⟨mk _ hp h.wf (by simpa using hh) (by simp), by rw [hp]; simp, by rw [hm]; exact fun e => absurd e hnw⟩
      · exact Wired.lost h.toSelected hw td hp
    · rw [if_neg hk] at hp
      refine ⟨mk _ hp h.wf (by simpa using hh) ?_, by rw [hp]; simp, by rw [hm]; exact fun e => absurd e hnw⟩
      rintro j (hj | hj) <;> simp at hj
      rw [← hj]; simp [ha]; omega
  · obtain ⟨h1, h2, h3⟩ := h.stream hmode
    unfold Panel.onPixelByte at hp
    split at hp
    · refine ⟨mk _ hp h.wf (by simp [hmode]) (by simp [hmode]), fun _ => ?_, fun _ => by rw [hp]; simp [hmode]⟩
      rw [hp, hw.width, hw.height, hm]
      exact ⟨h1, h2, h3⟩
    · refine ⟨mk _ hp (Memory.write_wf h.wf _ _) (by simp) (by simp [hmode]), fun _ => ?_, fun _ => by rw [hp]; simp [hmode]⟩
      rw [hp, hw.width, hw.height, hm]
      refine ⟨h1, nextCursor_in h1 h2, h3⟩
  · exact ⟨mk _ hp h.wf h.half h.acc, by rw [hp, hmode]; simp, by rw [hm, hp]; exact h.wmode⟩
  · exact ⟨mk _ hp h.wf h.half h.acc, by rw [hp, hmode]; simp, by rw [hm, hp]; exact h.wmode⟩

theorem xferByte_wired (b : Byte) {s : State} (h : Wired s) : Wired (xferByte b s).2 := by
  have hw := xferByte_onWire b s
  rcases xferByte_cases b s with ⟨hc, _⟩ | ⟨_, r, hr, hx⟩ | ⟨_, hr, hx⟩
  · exact absurd h.session hc
  · rw [hx] at hw ⊢
    refine onData_wired (b := b) (n := (drawXfer s).2.draws) h hw (by simp) (by simp) ?_
    simp [Panel.onEvent, Panel.onXfer, h.cs, h.dc]
  · rw [hx] at hw ⊢
    exact Wired.lost h.toSelected hw (by simp [h.dc]) (n := (drawXfer s).2.draws) (by simp [Panel.onEvent])

theorem data8_wired (b : Byte) {s : State} (h : Wired s) : Wired (data8 b s).2 := by
  rw [data8_snd]; exact xferByte_wired b h

theorem andThen_wired {p q : Proc} (hp : ∀ {s}, Wired s → Wired (p s).2) (hq : ∀ {s}, Wired s → Wired (q s).2) {s : State}
    (h : Wired s) : Wired (p.andThen q s).2 := by
  have h1 := hp h
  unfold Proc.andThen
  rcases hps : p s with ⟨_ | e, t⟩ <;> rw [hps] at h1
  · exact hq h1
  · exact h1

theorem streamHazard_wired {s : State} (h : Wired s) : Wired s.streamHazard := by
  by_cases hw : s.wmode = true
  · have : s.streamHazard = s := by simp [State.streamHazard, hw]
    rw [this]; exact h
  · exact Wired.lost h.toSelected (streamHazard_onWire s) (by simp [h.dc]) (n := s.draws) (by simp [hw])

theorem runItem_wired (i : WireItem) {s : State} (h : Wired s) : Wired (runItem i s).2 := by
  cases i with
  | command c => exact writeCommand_wired c h.toSelected
  | data b => exact data8_wired b h
  | pixel c => exact andThen_wired (data8_wired _) (data8_wired _) (streamHazard_wired h)
  | delay ms => exact ⟨⟨h.cfg, h.session, h.dc, h.cs, h.wf, h.half, h.acc⟩, h.stream, h.wmode⟩

theorem runItems_wired (is : List WireItem) {s : State} (h : Wired s) : Wired (runItems is s).2 := by
  induction is generalizing s with
  | nil => exact h
  | cons i is ih => exact andThen_wired (runItem_wired i) ih h

/-- A walk that begins with a command byte needs no more than a selected panel. -/
theorem runItems_wired_command (c : Byte) (is : List WireItem) {s : State} (h : Selected s) :
    Wired (runItems (.command c :: is) s).2 := by
  have h1 := writeCommand_wired c h
  simp only [runItems, runItem, Proc.andThen]
  rcases hps : writeCommand c s with ⟨_ | e, t⟩ <;> rw [hps] at h1
  · exact runItems_wired is h1
  · exact h1

end Sys2Proof.Machine
end

