-- ==== Sys2Proof/Laws/PerInstr.lean ====
section
/-! SUPPORT. The family `Fields` of statements made per operation: the fields of a well-formed operation's descriptor and the
bytes after it decode, on the port its opcode belongs to, to that operation (spec 30_encoding.md R91, R92, R94). -/

namespace Sys2Proof.Laws.Fields

/-- The fields and the payload of the operation decode to it. -/
def Statement (i : Instr) : Prop := i.wf = true → decodeFields i.opcode.port i.fields i.payload = .ok i

theorem beginOp : Statement (.beginOp) := by
  intro h
  refine decodeFields_ok.mpr ⟨.beginOp, rfl, rfl, ?_, ?_, ?_⟩ <;>
    simp [check_none, Opcode.layout, Instr.fields, Instr.payload, Descriptor.blank, Slot.unusedZero, Slot.highZero,
      Opcode.payloadLength, Opcode.build]

theorem endOp : Statement (.endOp) := by
  intro h
  refine decodeFields_ok.mpr ⟨.endOp, rfl, rfl, ?_, ?_, ?_⟩ <;>
    simp [check_none, Opcode.layout, Instr.fields, Instr.payload, Descriptor.blank, Slot.unusedZero, Slot.highZero,
      Opcode.payloadLength, Opcode.build]

theorem startWrite : Statement (.startWrite) := by
  intro h
  refine decodeFields_ok.mpr ⟨.startWrite, rfl, rfl, ?_, ?_, ?_⟩ <;>
    simp [check_none, Opcode.layout, Instr.fields, Instr.payload, Descriptor.blank, Slot.unusedZero, Slot.highZero,
      Opcode.payloadLength, Opcode.build]

theorem endWrite : Statement (.endWrite) := by
  intro h
  refine decodeFields_ok.mpr ⟨.endWrite, rfl, rfl, ?_, ?_, ?_⟩ <;>
    simp [check_none, Opcode.layout, Instr.fields, Instr.payload, Descriptor.blank, Slot.unusedZero, Slot.highZero,
      Opcode.payloadLength, Opcode.build]

theorem wrCmd (cmd : Byte) : Statement (.wrCmd cmd) := by
  intro h
  refine decodeFields_ok.mpr ⟨.wrCmd, rfl, rfl, ?_, ?_, ?_⟩ <;>
    simp [check_none, Opcode.layout, Instr.fields, Instr.payload, Descriptor.blank, Slot.unusedZero, Slot.highZero,
      Opcode.payloadLength, Opcode.build]

theorem setWin (x y w h : Half) : Statement (.setWin x y w h) := by
  intro h
  refine decodeFields_ok.mpr ⟨.setWin, rfl, rfl, ?_, ?_, ?_⟩ <;>
    simp [check_none, Opcode.layout, Instr.fields, Instr.payload, Descriptor.blank, Slot.unusedZero, Slot.highZero,
      Opcode.payloadLength, Opcode.build]

theorem wrPix (color : Colour) : Statement (.wrPix color) := by
  intro h
  refine decodeFields_ok.mpr ⟨.wrPix, rfl, rfl, ?_, ?_, ?_⟩ <;>
    simp [check_none, Opcode.layout, Instr.fields, Instr.payload, Descriptor.blank, Slot.unusedZero, Slot.highZero,
      Opcode.payloadLength, Opcode.build]

theorem wrPixs (p n : Word32) : Statement (.wrPixs p n) := by
  intro h
  refine decodeFields_ok.mpr ⟨.wrPixs, rfl, rfl, ?_, ?_, ?_⟩ <;>
    simp [check_none, Opcode.layout, Instr.fields, Instr.payload, Descriptor.blank, Slot.unusedZero, Slot.highZero,
      Opcode.payloadLength, Opcode.build]

theorem wrColor (color : Colour) (n : Word32) : Statement (.wrColor color n) := by
  intro h
  refine decodeFields_ok.mpr ⟨.wrColor, rfl, rfl, ?_, ?_, ?_⟩ <;>
    simp [check_none, Opcode.layout, Instr.fields, Instr.payload, Descriptor.blank, Slot.unusedZero, Slot.highZero,
      Opcode.payloadLength, Opcode.build]

theorem wPixel (x y : Half) (color : Colour) : Statement (.wPixel x y color) := by
  intro h
  refine decodeFields_ok.mpr ⟨.wPixel, rfl, rfl, ?_, ?_, ?_⟩ <;>
    simp [check_none, Opcode.layout, Instr.fields, Instr.payload, Descriptor.blank, Slot.unusedZero, Slot.highZero,
      Opcode.payloadLength, Opcode.build]

theorem wFillRect (x y w h : Half) (color : Colour) : Statement (.wFillRect x y w h color) := by
  intro h
  refine decodeFields_ok.mpr ⟨.wFillRect, rfl, rfl, ?_, ?_, ?_⟩ <;>
    simp [check_none, Opcode.layout, Instr.fields, Instr.payload, Descriptor.blank, Slot.unusedZero, Slot.highZero,
      Opcode.payloadLength, Opcode.build]

theorem wHLine (x y len : Half) (color : Colour) : Statement (.wHLine x y len color) := by
  intro h
  refine decodeFields_ok.mpr ⟨.wHLine, rfl, rfl, ?_, ?_, ?_⟩ <;>
    simp [check_none, Opcode.layout, Instr.fields, Instr.payload, Descriptor.blank, Slot.unusedZero, Slot.highZero,
      Opcode.payloadLength, Opcode.build]

theorem wVLine (x y len : Half) (color : Colour) : Statement (.wVLine x y len color) := by
  intro h
  refine decodeFields_ok.mpr ⟨.wVLine, rfl, rfl, ?_, ?_, ?_⟩ <;>
    simp [check_none, Opcode.layout, Instr.fields, Instr.payload, Descriptor.blank, Slot.unusedZero, Slot.highZero,
      Opcode.payloadLength, Opcode.build]

theorem wBitmap (x y : Half) (p : Word32) (w h : Half) : Statement (.wBitmap x y p w h) := by
  intro h
  refine decodeFields_ok.mpr ⟨.wBitmap, rfl, rfl, ?_, ?_, ?_⟩ <;>
    simp [check_none, Opcode.layout, Instr.fields, Instr.payload, Descriptor.blank, Slot.unusedZero, Slot.highZero,
      Opcode.payloadLength, Opcode.build]

theorem drawPixel (x y : Half) (color : Colour) : Statement (.drawPixel x y color) := by
  intro h
  refine decodeFields_ok.mpr ⟨.drawPixel, rfl, rfl, ?_, ?_, ?_⟩ <;>
    simp [check_none, Opcode.layout, Instr.fields, Instr.payload, Descriptor.blank, Slot.unusedZero, Slot.highZero,
      Opcode.payloadLength, Opcode.build]

theorem fillRect (x y w h : Half) (color : Colour) : Statement (.fillRect x y w h color) := by
  intro h
  refine decodeFields_ok.mpr ⟨.fillRect, rfl, rfl, ?_, ?_, ?_⟩ <;>
    simp [check_none, Opcode.layout, Instr.fields, Instr.payload, Descriptor.blank, Slot.unusedZero, Slot.highZero,
      Opcode.payloadLength, Opcode.build]

theorem drawHLine (x y len : Half) (color : Colour) : Statement (.drawHLine x y len color) := by
  intro h
  refine decodeFields_ok.mpr ⟨.drawHLine, rfl, rfl, ?_, ?_, ?_⟩ <;>
    simp [check_none, Opcode.layout, Instr.fields, Instr.payload, Descriptor.blank, Slot.unusedZero, Slot.highZero,
      Opcode.payloadLength, Opcode.build]

theorem drawVLine (x y len : Half) (color : Colour) : Statement (.drawVLine x y len color) := by
  intro h
  refine decodeFields_ok.mpr ⟨.drawVLine, rfl, rfl, ?_, ?_, ?_⟩ <;>
    simp [check_none, Opcode.layout, Instr.fields, Instr.payload, Descriptor.blank, Slot.unusedZero, Slot.highZero,
      Opcode.payloadLength, Opcode.build]

theorem drawBitmap (x y : Half) (p : Word32) (w h : Half) : Statement (.drawBitmap x y p w h) := by
  intro h
  refine decodeFields_ok.mpr ⟨.drawBitmap, rfl, rfl, ?_, ?_, ?_⟩ <;>
    simp [check_none, Opcode.layout, Instr.fields, Instr.payload, Descriptor.blank, Slot.unusedZero, Slot.highZero,
      Opcode.payloadLength, Opcode.build]

theorem setRot (r : Byte) : Statement (.setRot r) := by
  intro h
  refine decodeFields_ok.mpr ⟨.setRot, rfl, rfl, ?_, ?_, ?_⟩ <;>
    simp [check_none, Opcode.layout, Instr.fields, Instr.payload, Descriptor.blank, Slot.unusedZero, Slot.highZero,
      Opcode.payloadLength, Opcode.build]

theorem invert (b : Bool) : Statement (.invert b) := by
  intro h
  refine decodeFields_ok.mpr ⟨.invert, rfl, rfl, ?_, ?_, ?_⟩ <;>
    simp [check_none, Opcode.layout, Instr.fields, Instr.payload, Descriptor.blank, Slot.unusedZero, Slot.highZero,
      Opcode.payloadLength, Opcode.build]

theorem scrollTo (y : Half) : Statement (.scrollTo y) := by
  intro h
  refine decodeFields_ok.mpr ⟨.scrollTo, rfl, rfl, ?_, ?_, ?_⟩ <;>
    simp [check_none, Opcode.layout, Instr.fields, Instr.payload, Descriptor.blank, Slot.unusedZero, Slot.highZero,
      Opcode.payloadLength, Opcode.build]

theorem readReg (cmd index : Byte) : Statement (.readReg cmd index) := by
  intro h
  refine decodeFields_ok.mpr ⟨.readReg, rfl, rfl, ?_, ?_, ?_⟩ <;>
    simp [check_none, Opcode.layout, Instr.fields, Instr.payload, Descriptor.blank, Slot.unusedZero, Slot.highZero,
      Opcode.payloadLength, Opcode.build]

theorem color565 (r g b : Byte) : Statement (.color565 r g b) := by
  intro h
  refine decodeFields_ok.mpr ⟨.color565, rfl, rfl, ?_, ?_, ?_⟩ <;>
    simp [check_none, Opcode.layout, Instr.fields, Instr.payload, Descriptor.blank, Slot.unusedZero, Slot.highZero,
      Opcode.payloadLength, Opcode.build]

theorem tOpen : Statement (.tOpen) := by
  intro h
  refine decodeFields_ok.mpr ⟨.tOpen, rfl, rfl, ?_, ?_, ?_⟩ <;>
    simp [check_none, Opcode.layout, Instr.fields, Instr.payload, Descriptor.blank, Slot.unusedZero, Slot.highZero,
      Opcode.payloadLength, Opcode.build]

theorem tXfer (out : Byte) : Statement (.tXfer out) := by
  intro h
  refine decodeFields_ok.mpr ⟨.tXfer, rfl, rfl, ?_, ?_, ?_⟩ <;>
    simp [check_none, Opcode.layout, Instr.fields, Instr.payload, Descriptor.blank, Slot.unusedZero, Slot.highZero,
      Opcode.payloadLength, Opcode.build]

theorem tBlock (out : List Byte) : Statement (.tBlock out) := by
  intro h
  have hl : out.length < 2 ^ 32 := of_decide_eq_true h
  refine decodeFields_ok.mpr ⟨.tBlock, rfl, rfl, ?_, ?_, ?_⟩
  · simp [check_none, Opcode.layout, Instr.fields, Descriptor.blank, Slot.unusedZero, Slot.highZero]
  · show out.length = (BitVec.ofNat 32 out.length).toNat
    rw [BitVec.toNat_ofNat, Nat.mod_eq_of_lt hl]
  · rfl

theorem tClose : Statement (.tClose) := by
  intro h
  refine decodeFields_ok.mpr ⟨.tClose, rfl, rfl, ?_, ?_, ?_⟩ <;>
    simp [check_none, Opcode.layout, Instr.fields, Instr.payload, Descriptor.blank, Slot.unusedZero, Slot.highZero,
      Opcode.payloadLength, Opcode.build]

end Sys2Proof.Laws.Fields
end

