-- ==== Sys2Proof/Laws/Run.lean ====
section
/-! SUPPORT. What a step can do, and a run taken apart at its steps (spec 70_reset_and_hazards.md R290). -/

namespace Sys2Proof.Machine

/-- Everything a step that goes on can have done: nothing, for want of an operation; the operation its descriptor decodes to;
or, where it decodes to none, the refusal of R246. -/
theorem step_cases {s t : State} (h : step s = .next t) :
    (s.requests = [] ∧ t = s) ∨
    (∃ r rest i, s.requests = r :: rest ∧ decode r.port r.bytes = .ok i ∧ exec i (s.setRequests rest) = .next t) ∨
    (∃ r rest e, s.requests = r :: rest ∧ decode r.port r.bytes = .error e ∧
      t = (s.setRequests rest).raise .illegalOp) := by
  unfold step fetchRequest at h
  rcases hq : s.requests with _ | ⟨r, rest⟩ <;> rw [hq] at h <;> simp only at h
  · exact .inl ⟨rfl, by injection h with h; exact h.symm⟩
  · rcases hd : decode r.port r.bytes with e | i <;> rw [hd] at h <;> simp only at h
    · exact .inr (.inr ⟨r, rest, e, rfl, hd, by injection h with h; exact h.symm⟩)
    · exact .inr (.inl ⟨r, rest, i, rfl, hd, h⟩)

theorem steps_zero (s : State) : steps 0 s = .next s := rfl

theorem steps_succ {n : Nat} {s u : State} (h : steps (n + 1) s = .next u) :
    ∃ t, step s = .next t ∧ steps n t = .next u := by
  unfold steps at h
  split at h
  · exact ⟨_, ‹_›, h⟩
  · cases h
  · cases h

theorem steps_cons {n : Nat} {s t : State} (h : step s = .next t) : steps (n + 1) s = steps n t := by
  simp only [steps, h]

/-- The last step of a sequence of steps. -/
theorem steps_last {n : Nat} {s u : State} (h : steps (n + 1) s = .next u) :
    ∃ t, steps n s = .next t ∧ step t = .next u := by
  induction n generalizing s with
  | zero =>
    obtain ⟨t, h1, h2⟩ := steps_succ h
    rw [steps_zero] at h2
    injection h2 with h2
    exact ⟨s, rfl, h2 ▸ h1⟩
  | succ n ih =>
    obtain ⟨t, h1, h2⟩ := steps_succ h
    obtain ⟨v, h3, h4⟩ := ih h2
    exact ⟨v, by rw [steps_cons h1]; exact h3, h4⟩

/-- What every step keeps, every sequence of steps keeps. -/
theorem steps_keep {P : State → Prop} (hP : ∀ s t, P s → step s = .next t → P t) {n : Nat} {s t : State} (h : P s)
    (g : steps n s = .next t) : P t := by
  induction n generalizing s with
  | zero => rw [steps_zero] at g; injection g with g; exact g ▸ h
  | succ n ih => obtain ⟨v, h1, h2⟩ := steps_succ g; exact ih (hP _ _ h h1) h2

end Sys2Proof.Machine
end

