-- ==== Sys2Proof/Laws/Stream.lean ====
section
/-! SUPPORT. What a walk that meets no failed exchange does to the panel: step by step (spec 20_memory.md R63 to R65), for an
addressing window, and for a stream of pixels, which lands in the window row by row. -/

namespace Sys2Proof.Machine

/-- The wire as it is inside a bracket. -/
structure WireUp (s : State) : Prop where
  session : s.session = .opened
  dc : s.dcLine = .driven .high
  cs : s.csLine = .driven .low

theorem WireUp.sends {s t : State} {n : Nat} {e : List Event} {w : Bool} {d : Latch} (h : WireUp s) (g : Sends s t n e w d)
    (hd : d = .driven .high) : WireUp t :=
  ⟨g.frame.session.trans h.session, g.dcLine.trans hd, g.frame.csLine.trans h.cs⟩

theorem wireUp_of_between {s : State} (h : Between s) (hd : 1 ≤ s.depth) : WireUp s :=
  ⟨h.1.2, h.onBus.dcHigh, by rw [h.onBus.csFollows, if_neg (by omega)]⟩

theorem wireUp_startWrite {s : State} (h : OnBus s) : WireUp (startWrite s) :=
  ⟨by simpa using h.1.2, by simp [h.dcHigh], by rw [startWrite_csLine, h.csFollows]; split <;> simp_all⟩

theorem command_panel {s : State} (h : WireUp s) (ha : Answers s 1) (c : Byte) :
    ∃ t n, writeCommand c s = (none, t) ∧ Sends s t 1 (frameEvents c []) (wmodeAfter s.cfg c) (.driven .high) ∧
      t.panel = Panel.onCommand s.cfg s.width s.height n c s.panel := by
  obtain ⟨t, ht, g⟩ := writeCommand_sends h.session ha c
  obtain ⟨r, rest, hx⟩ := answers_one ha
  have hx' : (s.drive .dc .low).xfers = some r :: rest := by simp [hx]
  have e : writeCommand c s =
      (none, ((((s.drive .dc .low).setXfers rest).emit (.xfer c r)).drive .dc .high).setWmode (wmodeAfter s.cfg c)) := by
    simp [writeCommand, xferByte_script (s := s.drive .dc .low) (by simpa using h.session) hx']
  rw [ht] at e
  injection e with _ e
  refine ⟨t, (s.drive .dc .low).draws, ht, g, ?_⟩
  rw [e]
  simp [Panel.onEvent, Panel.onXfer, h.cs]

theorem data_panel {s : State} (h : WireUp s) (ha : Answers s 1) (b : Byte) :
    ∃ t n, data8 b s = (none, t) ∧ Sends s t 1 (byteEvents [b]) s.wmode s.dcLine ∧ t.panel = s.panel.onData n b := by
  obtain ⟨t, ht, g⟩ := data8_sends h.session ha b
  obtain ⟨r, rest, hx⟩ := answers_one ha
  have e : data8 b s = (none, (s.setXfers rest).emit (.xfer b r)) := by simp only [data8, xferByte_script h.session hx]
  rw [ht] at e
  injection e with _ e
  refine ⟨t, s.draws, ht, g, ?_⟩
  rw [e]
  simp [Panel.onEvent, Panel.onXfer, h.cs, h.dc]

/-- The panel before and after a step of a walk; `n` and `m` are the draws its unspecified values are taken at. -/
inductive PStep (cfg : Cfg) (w h : Half) : WireItem → Panel → Panel → Prop
  | command (c : Byte) (n : Nat) (p : Panel) : PStep cfg w h (.command c) p (Panel.onCommand cfg w h n c p)
  | data (b : Byte) (n : Nat) (p : Panel) : PStep cfg w h (.data b) p (p.onData n b)
  | pixel (c : Colour) (n m : Nat) (p : Panel) : PStep cfg w h (.pixel c) p ((p.onData n (hi8 c)).onData m (lo8 c))
  | delay (ms : Nat) (p : Panel) : PStep cfg w h (.delay ms) p p

/-- The panel before and after a walk. -/
inductive PWalk (cfg : Cfg) (w h : Half) : List WireItem → Panel → Panel → Prop
  | nil (p : Panel) : PWalk cfg w h [] p p
  | cons {i : WireItem} {is : List WireItem} {p q r : Panel} :
    PStep cfg w h i p q → PWalk cfg w h is q r → PWalk cfg w h (i :: is) p r

theorem PWalk.append {cfg : Cfg} {w h : Half} {is js : List WireItem} {p r : Panel} (g : PWalk cfg w h (is ++ js) p r) :
    ∃ q, PWalk cfg w h is p q ∧ PWalk cfg w h js q r := by
  induction is generalizing p with
  | nil => exact ⟨p, .nil _, g⟩
  | cons i is ih =>
    cases g with
    | cons g1 g2 => obtain ⟨q, a, b⟩ := ih g2; exact ⟨q, .cons g1 a, b⟩

/-- Every pixel of the walk is sent while a stream is in force. -/
def pixelsOk (cfg : Cfg) : List WireItem → Bool → Prop
  | [], _ => True
  | .pixel _ :: is, w => w = true ∧ pixelsOk cfg is w
  | i :: is, w => pixelsOk cfg is (i.wmode cfg w)

theorem pixelsOk_map (cfg : Cfg) (cs : List Colour) : pixelsOk cfg (cs.map .pixel) true := by
  induction cs with
  | nil => trivial
  | cons c cs ih => exact ⟨rfl, ih⟩

theorem pixelsOk_bytes (cfg : Cfg) (bs : List Byte) (w : Bool) : pixelsOk cfg (bs.map .data) w := by
  induction bs with
  | nil => trivial
  | cons b bs ih => exact ih

theorem pixelsOk_window (cfg : Cfg) (x y w h : Nat) (cs : List Colour) (b : Bool) :
    pixelsOk cfg (windowItems cfg x y w h ++ cs.map .pixel) b := by
  simp only [windowItems, halfItems, List.cons_append, List.nil_append, pixelsOk, WireItem.wmode, wmodeAfter, decide_true]
  exact pixelsOk_map cfg cs

theorem item_panel (i : WireItem) {s : State} (h : WireUp s) (ha : Answers s i.exchanges)
    (hw : ∀ c, i = .pixel c → s.wmode = true) :
    ∃ t, runItem i s = (none, t) ∧ Sends s t i.exchanges i.events (i.wmode s.cfg s.wmode) (i.dc s.dcLine) ∧
      PStep s.cfg s.width s.height i s.panel t.panel := by
  cases i with
  | command c => obtain ⟨t, n, h1, h2, h3⟩ := command_panel h ha c; exact ⟨t, h1, h2, h3 ▸ .command _ _ _⟩
  | data b => obtain ⟨t, n, h1, h2, h3⟩ := data_panel h ha b; exact ⟨t, h1, h2, h3 ▸ .data _ _ _⟩
  | pixel c =>
    have hs : s.streamHazard = s := by simp [State.streamHazard, hw c rfl]
    have h2 : Answers s (1 + 1) := ha
    obtain ⟨t, n, t1, t2, t3⟩ := data_panel h (answers_add h2 (t := s.setXfers (s.xfers.drop 1)) rfl).1 (hi8 c)
    obtain ⟨u, m, u1, u2, u3⟩ := data_panel (h.sends t2 h.dc) (answers_add h2 t2.xfers).2 (lo8 c)
    obtain ⟨v, v1, v2⟩ := runItem_sends h.session (.pixel c) ha
    refine ⟨v, v1, v2, ?_⟩
    have e : runItem (.pixel c) s = (none, u) := by
      show data16 c s.streamHazard = _
      rw [hs]; simp [data16, Proc.andThen, t1, u1]
    rw [v1] at e
    injection e with _ e
    rw [e, u3, t3]
    exact .pixel _ _ _ _
  | delay ms =>
    obtain ⟨t, h1, h2⟩ := runItem_sends h.session (.delay ms) ha
    refine ⟨t, h1, h2, ?_⟩
    injection h1 with _ e
    rw [← e]
    exact .delay _ _

/-- A walk that meets no failed exchange: what it sends, and the panel's walk beside it. -/
theorem items_panel (is : List WireItem) {s : State} (h : WireUp s) (ha : Answers s (walkExchanges is))
    (hw : pixelsOk s.cfg is s.wmode) :
    ∃ t, runItems is s = (none, t) ∧
      Sends s t (walkExchanges is) (walkEvents is) (walkWmode s.cfg is s.wmode) (walkDc is s.dcLine) ∧
      PWalk s.cfg s.width s.height is s.panel t.panel := by
  induction is generalizing s with
  | nil => exact ⟨s, rfl, ⟨by simp, by simp, rfl, rfl, .refl s⟩, .nil _⟩
  | cons i is ih =>
    rw [walkExchanges_cons] at ha ⊢
    have hw1 : ∀ c, i = .pixel c → s.wmode = true := by rintro c rfl; exact hw.1
    obtain ⟨t, t1, t2, t3⟩ := item_panel i h (answers_add ha (t := s.setXfers (s.xfers.drop i.exchanges)) rfl).1 hw1
    have hd : i.dc s.dcLine = .driven .high := by rw [h.dc]; cases i <;> rfl
    have hw2 : pixelsOk t.cfg is t.wmode := by
      rw [t2.frame.cfg, t2.wmode]
      cases i
      · exact hw
      · exact hw
      · exact hw.2
      · exact hw
    obtain ⟨u, u1, u2, u3⟩ := ih (h.sends t2 hd) (answers_add ha t2.xfers).2 hw2
    rw [t2.wmode, t2.dcLine, t2.frame.cfg] at u2
    rw [t2.frame.cfg, t2.frame.width, t2.frame.height] at u3
    exact ⟨u, by simp [runItems, Proc.andThen, t1, u1], t2.trans u2, .cons t3 u3⟩

/-- The panel after the three frames of an addressing window (42_protocol.md R162). -/
theorem window_panel {cfg : Cfg} {W H : Half} {x y w h : Nat} {p q : Panel} (hc : cfg.wf = true) (hm : p.mode ≠ .unknown)
    (hcut : p.cutShort = false) (g : PWalk cfg W H (windowItems cfg x y w h) p q) :
    let win : Window :=
      ⟨BitVec.ofNat 16 x, BitVec.ofNat 16 (x + w - 1), BitVec.ofNat 16 y, BitVec.ofNat 16 (y + h - 1)⟩
    if windowInside win W H = true then
      q.win = win ∧ q.mode = .write ∧ q.cur = ⟨win.xs, win.ys⟩ ∧ q.half = none ∧ q.fb = p.fb
    else q.mode = .unknown := by
  have hh := cutShort_half hcut
  simp only [Cfg.wf, Bool.and_eq_true, decide_eq_true_eq] at hc
  obtain ⟨⟨⟨⟨⟨_, _⟩, _⟩, c1⟩, c2⟩, c3⟩ := hc
  simp only [windowItems, halfItems, List.cons_append, List.nil_append] at g
  rcases g with _ | ⟨g1, g⟩
  rcases g with _ | ⟨g2, g⟩
  rcases g with _ | ⟨g3, g⟩
  rcases g with _ | ⟨g4, g⟩
  rcases g with _ | ⟨g5, g⟩
  rcases g with _ | ⟨g6, g⟩
  rcases g with _ | ⟨g7, g⟩
  rcases g with _ | ⟨g8, g⟩
  rcases g with _ | ⟨g9, g⟩
  rcases g with _ | ⟨g10, g⟩
  rcases g with _ | ⟨g11, g⟩
  cases g
  cases g1; cases g2; cases g3; cases g4; cases g5; cases g6; cases g7; cases g8; cases g9; cases g10; cases g11
  simp only [Panel.onCommand, Panel.onData, Panel.onColByte, Panel.onRowByte, hm, hcut, if_false, if_true, c1, c1.symm, c2,
    c2.symm, c3, c3.symm]
  simp [Panel.cutShort, hh]
  split <;> simp [Panel.lost]

/-! A stream of pixels. -/

/-- The cell of the pixel numbered `k` in a window of `w` columns at `x` and `h` rows at `y` (20_memory.md R65). -/
def cellAt (x y w h k : Nat) : Nat := fbIndex (BitVec.ofNat 16 (x + k % w)) (BitVec.ofNat 16 (y + k / w % h))

/-- The cursor before the pixel numbered `k`. -/
def curAt (x y w h k : Nat) : Cursor := ⟨BitVec.ofNat 16 (x + k % w), BitVec.ofNat 16 (y + k / w % h)⟩

/-- The frame memory after a stream whose first pixel is numbered `k`. -/
def paint (x y w h : Nat) : Nat → List Colour → Memory → Memory
  | _, [], m => m
  | k, c :: cs, m => paint x y w h (k + 1) cs (m.write (cellAt x y w h k) c)

theorem next_at {x y w h : Nat} (hw : 1 ≤ w) (hh : 1 ≤ h) (hx : x + w ≤ 65536) (hy : y + h ≤ 65536) (k : Nat) :
    nextCursor ⟨BitVec.ofNat 16 x, BitVec.ofNat 16 (x + w - 1), BitVec.ofNat 16 y, BitVec.ofNat 16 (y + h - 1)⟩
      (curAt x y w h k) = curAt x y w h (k + 1) := by
  have a1 := Nat.mod_lt k hw
  have a2 := Nat.mod_lt (k / w) hh
  have a3 := Nat.div_add_mod k w
  have a4 := Nat.div_add_mod (k / w) h
  unfold nextCursor curAt
  simp only [BitVec.toNat_ofNat]
  rw [Nat.mod_eq_of_lt (show x + k % w < 2 ^ 16 by omega), Nat.mod_eq_of_lt (show y + k / w % h < 2 ^ 16 by omega),
    Nat.mod_eq_of_lt (show x + w - 1 < 2 ^ 16 by omega), Nat.mod_eq_of_lt (show y + h - 1 < 2 ^ 16 by omega)]
  by_cases c1 : x + k % w + 1 ≤ x + w - 1
  · rw [if_pos c1, if_pos (show y + k / w % h ≤ y + h - 1 by omega)]
    have e : k + 1 = w * (k / w) + (k % w + 1) := by omega
    have e1 : (k + 1) % w = k % w + 1 := by rw [e, Nat.mul_add_mod]; exact Nat.mod_eq_of_lt (by omega)
    have e2 : (k + 1) / w = k / w := by rw [e, Nat.mul_add_div hw]; simp; omega
    rw [e1, e2]; simp [BitVec.ofNat_add]; simp [← BitVec.add_assoc]
  · rw [if_neg c1]
    have e : k + 1 = w * (k / w + 1) := by rw [Nat.mul_add]; omega
    have e1 : (k + 1) % w = 0 := by rw [e]; simp
    have e2 : (k + 1) / w = k / w + 1 := by rw [e]; simp [Nat.mul_div_cancel_left _ hw]
    rw [e1, e2]
    by_cases c2 : y + k / w % h + 1 ≤ y + h - 1
    · rw [if_pos c2]
      have f : k / w + 1 = h * (k / w / h) + (k / w % h + 1) := by omega
      have f1 : (k / w + 1) % h = k / w % h + 1 := by rw [f, Nat.mul_add_mod]; exact Nat.mod_eq_of_lt (by omega)
      rw [f1]; simp [BitVec.ofNat_add, ← BitVec.add_assoc]
    · rw [if_neg c2]
      have f : k / w + 1 = h * (k / w / h + 1) := by rw [Nat.mul_add]; omega
      have f1 : (k / w + 1) % h = 0 := by rw [f]; simp
      rw [f1]; simp

/-- The panel after a stream of pixels into its window. -/
theorem stream_panel {cfg : Cfg} {W H : Half} {x y w h : Nat} (hw : 1 ≤ w) (hh : 1 ≤ h) (hx : x + w ≤ 65536)
    (hy : y + h ≤ 65536) (cs : List Colour) {k : Nat} {p q : Panel}
    (hwin : p.win = ⟨BitVec.ofNat 16 x, BitVec.ofNat 16 (x + w - 1), BitVec.ofNat 16 y, BitVec.ofNat 16 (y + h - 1)⟩)
    (hm : p.mode = .write) (hcur : p.cur = curAt x y w h k) (hhalf : p.half = none)
    (g : PWalk cfg W H (cs.map .pixel) p q) :
    q.fb = paint x y w h k cs p.fb ∧ q.mode = .write ∧ q.half = none ∧ q.win = p.win ∧
      q.cur = curAt x y w h (k + cs.length) := by
  induction cs generalizing k p with
  | nil => cases g; exact ⟨rfl, hm, hhalf, rfl, hcur⟩
  | cons c cs ih =>
    rw [List.map_cons] at g
    rcases g with _ | ⟨g1, g2⟩
    cases g1
    have e : ∀ n m, ((p.onData n (hi8 c)).onData m (lo8 c)) =
        { p with fb := p.fb.write (cellAt x y w h k) c, cur := curAt x y w h (k + 1), half := none } := by
      intro n m
      simp only [Panel.onData, hm, Panel.onPixelByte, hhalf]
      rw [hi8_lo8, hcur, hwin, next_at hw hh hx hy]
      rfl
    rw [e] at g2
    rw [List.length_cons, show k + (cs.length + 1) = k + 1 + cs.length by omega]
    exact ih (k := k + 1)
      (p := { p with fb := p.fb.write (cellAt x y w h k) c, cur := curAt x y w h (k + 1), half := none }) hwin hm rfl rfl g2

/-- Two pixels share a cell only a whole number of window fills apart. -/
theorem cell_inj {x y w h j k : Nat} (hw : 1 ≤ w) (hh : 1 ≤ h) (hx : x + w ≤ 65536) (hy : y + h ≤ 65536)
    (e : cellAt x y w h j = cellAt x y w h k) : j % (w * h) = k % (w * h) := by
  obtain ⟨e1, e2⟩ := fbIndex_inj e
  have a1 := Nat.mod_lt k hw
  have a2 := Nat.mod_lt (k / w) hh
  have b1 := Nat.mod_lt j hw
  have b2 := Nat.mod_lt (j / w) hh
  have f1 := congrArg BitVec.toNat e1
  have f2 := congrArg BitVec.toNat e2
  simp only [BitVec.toNat_ofNat] at f1 f2
  rw [Nat.mod_eq_of_lt (show x + k % w < 2 ^ 16 by omega), Nat.mod_eq_of_lt (show x + j % w < 2 ^ 16 by omega)] at f1
  rw [Nat.mod_eq_of_lt (show y + k / w % h < 2 ^ 16 by omega), Nat.mod_eq_of_lt (show y + j / w % h < 2 ^ 16 by omega)] at f2
  rw [Nat.mod_mul, Nat.mod_mul, show j % w = k % w by omega, show j / w % h = k / w % h by omega]

theorem paint_wf {x y w h k : Nat} {cs : List Colour} {m : Memory} (hm : m.wf = true) : (paint x y w h k cs m).wf = true := by
  induction cs generalizing k m with
  | nil => exact hm
  | cons c cs ih => exact ih (Memory.write_wf hm _ _)

/-- A cell no pixel of the stream is for keeps its colour. -/
theorem paint_other {x y w h k : Nat} {cs : List Colour} {m : Memory} (hm : m.wf = true) {a : Nat}
    (ha : ∀ j, j < cs.length → cellAt x y w h (k + j) ≠ a) : (paint x y w h k cs m).read a = m.read a := by
  induction cs generalizing k m with
  | nil => rfl
  | cons c cs ih =>
    rw [paint, ih (Memory.write_wf hm _ _) (fun j hj => by
        have := ha (j + 1) (by simp; omega)
        rwa [show k + 1 + j = k + (j + 1) by omega]),
      Memory.read_write hm, if_neg (fun e => ha 0 (by simp) (by simpa using e.symm))]

/-- A cell holds the last pixel of the stream that is for it. -/
theorem paint_last {x y w h k : Nat} {cs : List Colour} {m : Memory} (hm : m.wf = true) {i : Nat} (hi : i < cs.length)
    (hl : ∀ j < cs.length, i < j → cellAt x y w h (k + j) ≠ cellAt x y w h (k + i)) :
    (paint x y w h k cs m).read (cellAt x y w h (k + i)) = cs[i]? := by
  induction cs generalizing k m i with
  | nil => simp at hi
  | cons c cs ih =>
    rw [paint]
    rcases i with _ | i
    · rw [paint_other (Memory.write_wf hm _ _), Memory.read_write hm, if_pos (by simp)]
      · simp
      · intro j hj
        have := hl (j + 1) (by simpa using hj) (by omega)
        rwa [show k + (j + 1) = k + 1 + j by omega] at this
    · have := ih (k := k + 1) (m := m.write (cellAt x y w h k) c) (Memory.write_wf hm _ _) (i := i) (by simpa using hi)
        (fun j hj hij => by
          have := hl (j + 1) (by simpa using hj) (by omega)
          rwa [show k + (j + 1) = k + 1 + j by omega, show k + (i + 1) = k + 1 + i by omega] at this)
      rw [show k + (i + 1) = k + 1 + i by omega, this]
      simp

/-- The last pixels of a stream, one for each cell of the window, stay (20_memory.md R65). -/
theorem paint_hit {x y w h k : Nat} (hw : 1 ≤ w) (hh : 1 ≤ h) (hx : x + w ≤ 65536) (hy : y + h ≤ 65536) {cs : List Colour}
    {m : Memory} (hm : m.wf = true) {i : Nat} (hi : i < cs.length) (hl : cs.length ≤ i + w * h) :
    (paint x y w h k cs m).read (cellAt x y w h (k + i)) = cs[i]? := by
  refine paint_last hm hi fun j hj hij e => ?_
  have h1 : (k + j) % (w * h) = (k + i) % (w * h) := cell_inj hw hh hx hy e
  have h3 := Nat.div_add_mod (k + j) (w * h)
  have h4 := Nat.div_add_mod (k + i) (w * h)
  have h5 : w * h * ((k + j) / (w * h)) = w * h * ((k + i) / (w * h)) + (j - i) := by omega
  have h6 : (w * h) ∣ (j - i) := (Nat.dvd_add_right ⟨_, rfl⟩).mp ⟨_, h5.symm⟩
  have := Nat.le_of_dvd (by omega) h6
  omega

end Sys2Proof.Machine
end

