-- ==== Sys2Proof/Tests/Slice0.lean ====
section
/-! SUPPORT. The model's own tests: what `WellFormed` and the decoder refuse, one written-out word for each operation, the
test vectors of spec/95_test_vectors.md (each test names its vector), and for every obligation with hypotheses a witness
that meets them. -/

namespace Sys2Proof.Tests

open Sys2Proof.Machine

/-! ## Helpers -/

/-- `cfgX` of 95_test_vectors.md. -/
def cfgX : Cfg :=
  { w0 := 100, h0 := 100, clockRate := 1, device := "", cmdCaset := 0x2A, cmdPaset := 0x2B, cmdRamwr := 0x2C,
    cmdMadctl := 0x36, cmdInvon := 0x21, cmdInvoff := 0x20, cmdVscrsadd := 0x37, cmdSlpout := 0x11, cmdDispon := 0x29,
    initSeq := [(0xAA, [0x01, 0x02]), (0xBB, [])], madctl0 := 0x48, madctl1 := 0x28, madctl2 := 0x88, madctl3 := 0xE8,
    fbPreserving := [] }

/-- `cfgY` of 95_test_vectors.md. -/
def cfgY : Cfg := { cfgX with w0 := 240, h0 := 320 }

/-- `n` exchanges that succeed, each answered with 0. -/
def good (n : Nat) : List (Option Byte) := List.replicate n (some 0)

/-- The reset state of a configuration. -/
def fresh (cfg : Cfg) : State := { State.reset with cfg := cfg }

/-- The ready state of a configuration. -/
def ready (cfg : Cfg) (xfers : List (Option Byte)) : State :=
  { fresh cfg with
    lifecycle := .ready, width := cfg.w0, height := cfg.h0, rotation := 0, resetLine := .driven .high,
    dcLine := .driven .high, csLine := .driven .high, session := .opened, xfers := xfers,
    panel := { win := ⟨0, 0, 0, 0⟩, cur := ⟨0, 0⟩, mode := .idle, acc := [], half := none, fb := [] } }

/-- The same inside one bracket of the host. -/
def inBracket (cfg : Cfg) (xfers : List (Option Byte)) : State :=
  { ready cfg xfers with depth := 1, csLine := .driven .low }

/-- The same after an `END`. -/
def closed (cfg : Cfg) : State := { ready cfg [] with lifecycle := .closed, session := .released }

/-- A bitmap of `n` colours `0x1000 + i` from index 0. -/
def bitmap (n : Nat) : Memory := (List.range n).map fun i => (i, BitVec.ofNat 16 (0x1000 + i))

/-- The state after a step, where there is one. -/
def after (o : Host.Outcome State Fault Refusal) : Option State :=
  match o with
  | .next t => some t
  | .fault _ => none
  | .refused _ => none

/-- The result of an operation and what it put on the wire, without the bytes clocked in. -/
def reply (i : Instr) (s : State) : Option (Option Result × List Event) :=
  (after (exec i s)).map fun t => (t.result, t.sent)

/-- What holds of the state after an operation. -/
def leaves (i : Instr) (s : State) (p : State → Bool) : Bool :=
  match after (exec i s) with
  | some t => p t
  | none => false

def ok (v : Half) : Option Result := some ⟨.ok, v⟩
def ended (e : Status) : Option Result := some ⟨e, 0⟩

def csLow : Event := .line .cs .low
def csHigh : Event := .line .cs .high
def dcLow : Event := .line .dc .low
def dcHigh : Event := .line .dc .high

/-- Bytes sent. -/
def bytes (bs : List Byte) : List Event := bs.map fun b => .xfer b 0

/-- `WIN(x1,x2,y1,y2)` of 95_test_vectors.md, each value below 256. -/
def win (x1 x2 y1 y2 : Byte) : List Event :=
  [dcLow, .xfer 0x2A 0, dcHigh, .xfer 0 0, .xfer x1 0, .xfer 0 0, .xfer x2 0,
   dcLow, .xfer 0x2B 0, dcHigh, .xfer 0 0, .xfer y1 0, .xfer 0 0, .xfer y2 0, dcLow, .xfer 0x2C 0, dcHigh]

/-! ## What is refused -/

/-- R90: the field `N` holds 32 bits; and R7: what a configuration must meet. -/
theorem test_wf_block_too_long : (Instr.tBlock (List.replicate (2 ^ 32) 0)).wf = false := by
  simp only [Instr.wf, List.length_replicate]; decide
theorem test_wf_no_width : { cfgX with w0 := 0 }.wf = false := by decide
theorem test_wf_no_height : { cfgX with h0 := 0 }.wf = false := by decide
theorem test_wf_no_clock : { cfgX with clockRate := 0 }.wf = false := by decide
theorem test_wf_caset_is_paset : { cfgX with cmdPaset := 0x2A }.wf = false := by decide
theorem test_wf_caset_is_ramwr : { cfgX with cmdRamwr := 0x2A }.wf = false := by decide
theorem test_wf_paset_is_ramwr : { cfgX with cmdRamwr := 0x2B }.wf = false := by decide
theorem test_wf_example_configurations : cfgX.wf = true ∧ cfgY.wf = true := by decide

/-- The name a decode is refused under. -/
def refusal (port : Port) (bs : List Byte) : Option DecodeError :=
  match decode port bs with
  | .ok _ => none
  | .error e => some e

/-- A descriptor of zeros after these bytes. -/
def padded (bs : List Byte) : List Byte := bs ++ List.replicate (20 - bs.length) 0

/-- V130 to V136. -/
theorem test_decode_refuses :
    refusal .host (padded []) = some .unassigned ∧
    refusal .host [0x01, 0, 0, 0, 0, 0, 0, 0, 0, 0, 0, 0, 0, 0, 0, 0, 0, 0, 0, 0x01] = some .reservedNonzero ∧
    refusal .host (padded [0x10, 0, 0x01]) = some .unusedNonzero ∧
    refusal .host (padded [0x40, 0, 3, 0, 4, 0, 1, 0, 0, 0xFF, 0xFF]) = some .unusedNonzero ∧
    refusal .host (padded [0x54, 0x01]) = some .operandHighBits ∧
    refusal .host (padded [0x61, 0, 0x55]) = some .wrongPort := by decide

/-- V136, V85, and the row of V70 with `A = 0x0100`. -/
theorem test_decode_refuses_unassigned :
    ([0x45, 0x12, 0x25, 0x35, 0x55, 0x64, 0xFF].map fun op => refusal .host (padded [op])) =
      List.replicate 7 (some .unassigned) ∧
    refusal .host (padded [0x51, 0, 2]) = some .operandHighBits ∧
    refusal .host (padded [0x50, 1, 0]) = some .operandHighBits := by decide

/-- R90, R94: 19 bytes, a host descriptor with a byte after it, and a block shorter than its `N`. -/
theorem test_decode_refuses_lengths :
    refusal .host (List.replicate 19 0) = some .badLength ∧
    refusal .host (padded [0x01] ++ [0]) = some .badLength ∧
    refusal .transport ([0x62, 0, 0, 0, 0, 0, 0, 0, 0, 0, 0, 0, 0, 0, 2, 0, 0, 0, 0, 0] ++ [7]) = some .badLength ∧
    refusal .transport (padded [0x01]) = some .wrongPort := by decide

/-! ## One word for each operation -/

/-- What a descriptor decodes to. -/
def reads (port : Port) (bs : List Byte) : Option Instr := (decode port bs).toOption

/-- V90 -/
theorem test_decode_begin : reads .host (padded [0x01]) = some .beginOp := by decide
/-- V94 -/
theorem test_decode_end : reads .host (padded [0x02]) = some .endOp := by decide
/-- V40 -/
theorem test_decode_startwrite : reads .host (padded [0x10]) = some .startWrite := by decide
/-- V42 -/
theorem test_decode_endwrite : reads .host (padded [0x11]) = some .endWrite := by decide
/-- V61 -/
theorem test_decode_wrcmd : reads .host (padded [0x20, 0x00, 0x2C]) = some (.wrCmd 0x2C) := by decide
/-- V138 -/
theorem test_decode_setwin :
    reads .host (padded [0x21, 0xFF, 0xFB, 0, 0, 0, 1, 0, 1]) = some (.setWin 65531 0 1 1) := by decide
/-- V55 -/
theorem test_decode_wrpix : reads .host (padded [0x22, 0, 0, 0, 0, 0, 0, 0, 0, 0xF8, 0x00]) = some (.wrPix 0xF800) := by decide
/-- V56 -/
theorem test_decode_wrpixs :
    reads .host [0x23, 0, 0, 0, 0, 0, 0, 0, 0, 0, 0, 0, 0, 0, 0x02, 0, 0, 0, 0x08, 0] = some (.wrPixs 8 2) := by decide
/-- V59 -/
theorem test_decode_wrcolor :
    reads .host [0x24, 0, 0, 0, 0, 0, 0, 0, 0, 0x07, 0xE0, 0, 0, 0, 0x03, 0, 0, 0, 0, 0] = some (.wrColor 0x07E0 3) := by decide
/-- V63 -/
theorem test_decode_wpixel :
    reads .host (padded [0x30, 0, 3, 0, 4, 0, 0, 0, 0, 0xFF, 0xFF]) = some (.wPixel 3 4 0xFFFF) := by decide
/-- V64 -/
theorem test_decode_wfillrect :
    reads .host (padded [0x31, 0, 0x62, 0, 0x62, 0, 0x0A, 0, 0x0A, 0x07, 0xE0]) = some (.wFillRect 98 98 10 10 0x07E0) := by decide
/-- V65 -/
theorem test_decode_whline :
    reads .host (padded [0x32, 0, 0x5A, 0, 0x0A, 0, 0x14, 0, 0, 0, 0x1F]) = some (.wHLine 90 10 20 0x001F) := by decide
/-- V30 with the opcode of R92 for `WVLINE` -/
theorem test_decode_wvline :
    reads .host (padded [0x33, 0, 0, 0xFF, 0xFD, 0, 5, 0, 0, 0xFF, 0xFF]) = some (.wVLine 0 (-3) 5 0xFFFF) := by decide
/-- V139 -/
theorem test_decode_wbitmap :
    reads .host [0x34, 0, 1, 0, 2, 0, 4, 0, 3, 0, 0, 0, 0, 0, 0, 0, 0, 0, 0x10, 0] = some (.wBitmap 1 2 16 4 3) := by decide
/-- V25a -/
theorem test_decode_drawpixel :
    reads .host (padded [0x40, 0xFF, 0xFF, 0, 0, 0, 0, 0, 0, 0xFF, 0xFF]) = some (.drawPixel (-1) 0 0xFFFF) := by decide
/-- V27 -/
theorem test_decode_fillrect :
    reads .host (padded [0x41, 0xFF, 0xFB, 0xFF, 0xFB, 0, 0x0A, 0, 0x0A, 0xF8, 0]) = some (.fillRect (-5) (-5) 10 10 0xF800) := by
  decide
/-- V29 -/
theorem test_decode_drawhline :
    reads .host (padded [0x42, 0, 0x5A, 0, 0x0A, 0, 0x14, 0, 0, 0, 0x1F]) = some (.drawHLine 90 10 20 0x001F) := by decide
/-- V30 -/
theorem test_decode_drawvline :
    reads .host (padded [0x43, 0, 0, 0xFF, 0xFD, 0, 5, 0, 0, 0xFF, 0xFF]) = some (.drawVLine 0 (-3) 5 0xFFFF) := by decide
/-- V32 -/
theorem test_decode_drawbitmap :
    reads .host (padded [0x44, 0xFF, 0xFF, 0xFF, 0xFF, 0, 4, 0, 3]) = some (.drawBitmap (-1) (-1) 0 4 3) := by decide
/-- V76 -/
theorem test_decode_setrot : reads .host (padded [0x50, 0, 0xFF]) = some (.setRot 255) := by decide
/-- V77, V78 -/
theorem test_decode_invert :
    reads .host (padded [0x51, 0, 1]) = some (.invert true) ∧ reads .host (padded [0x51, 0, 0]) = some (.invert false) := by decide
/-- V79 -/
theorem test_decode_scrollto : reads .host (padded [0x52, 0x01, 0x23]) = some (.scrollTo 0x0123) := by decide
/-- V82 -/
theorem test_decode_readreg : reads .host (padded [0x53, 0, 0x04, 0, 0xF5]) = some (.readReg 0x04 0xF5) := by decide
/-- V1 -/
theorem test_decode_color565 :
    reads .host (padded [0x54, 0, 0x12, 0, 0x34, 0, 0x56]) = some (.color565 0x12 0x34 0x56) := by decide
/-- V140 -/
theorem test_decode_topen : reads .transport (padded [0x60]) = some .tOpen := by decide
/-- V142 -/
theorem test_decode_txfer : reads .transport (padded [0x61, 0, 0xA5]) = some (.tXfer 0xA5) := by decide
/-- V144 -/
theorem test_decode_tblock :
    reads .transport ([0x62, 0, 0, 0, 0, 0, 0, 0, 0, 0, 0, 0, 0, 0, 0x04, 0, 0, 0, 0, 0] ++ [0x00, 0x0A, 0x00, 0x13]) =
      some (.tBlock [0x00, 0x0A, 0x00, 0x13]) := by decide
/-- V146 -/
theorem test_decode_tclose : reads .transport (padded [0x63]) = some .tClose := by decide

/-- Every row of opcode_table.json decodes to its operation, and a step from reset runs it. -/
theorem test_table_rows :
    opcodeTable.length = 28 ∧
    opcodeTable.all (fun r =>
      decide ((decodeTableWord 160 r.pattern.toNat).map Instr.opcode = some r.opcode) &&
        (after (step (State.reset.withFetchWord 160 r.pattern.toNat))).isSome) = true := by decide

/-! ## The operations -/

/-- V90 -/
theorem test_begin :
    reply .beginOp { fresh cfgX with opens := [true], xfers := good 6 } =
      some (ok 1,
        [.sessionOpen cfgX.sessionConf, csHigh, dcHigh, .line .reset .high, .delay 100, .line .reset .low, .delay 100,
         .line .reset .high, .delay 200, csLow, dcLow, .xfer 0xAA 0, dcHigh, .xfer 1 0, .xfer 2 0, dcLow, .xfer 0xBB 0, dcHigh,
         dcLow, .xfer 0x11 0, dcHigh, .delay 120, dcLow, .xfer 0x29 0, dcHigh, .delay 120, csHigh]) := by decide

/-- V102 -/
theorem test_begin_fails :
    leaves .beginOp { fresh cfgX with opens := [true], xfers := good 4 ++ [none] } (fun t =>
      decide (t.result = ended .transferFailure) && decide (t.lifecycle = .uninitialized) && decide (t.session = .released) &&
      decide (t.sent.drop 9 = [csLow, dcLow, .xfer 0xAA 0, dcHigh, .xfer 1 0, .xfer 2 0, dcLow, .xfer 0xBB 0, dcHigh,
        dcLow, .xferFail 0x11, dcHigh, csHigh, .sessionClose])) = true := by decide

/-- V91 -/
theorem test_begin_open_refused :
    reply .beginOp { fresh cfgX with opens := [false] } = some (ended .deviceUnavailable, []) := by decide

/-- V95 -/
theorem test_end :
    leaves .endOp (ready cfgX []) (fun t => decide (t.result = ok 0) && decide (t.trace = [.sessionClose]) &&
      decide (t.lifecycle = .closed) && decide (t.session = .released) && decide (t.width = 100)) = true := by decide

/-- V48 -/
theorem test_end_in_bracket : reply .endOp (inBracket cfgX []) = some (ended .bracketOpen, []) := by decide

/-- V40, V41 -/
theorem test_startwrite :
    reply .startWrite (ready cfgX []) = some (ok 0, [csLow]) ∧ reply .startWrite (inBracket cfgX []) = some (ok 0, []) ∧
    reply .startWrite (fresh cfgX) = some (ended .notReady, []) := by decide

/-- V43, V42, V44 -/
theorem test_endwrite :
    leaves .endWrite { inBracket cfgX [] with wmode := true } (fun t => decide (t.result = ok 0) && decide (t.trace = [csHigh]) &&
      decide (t.depth = 0) && !t.wmode) = true ∧
    reply .endWrite { inBracket cfgX [] with depth := 2 } = some (ok 0, []) ∧
    reply .endWrite (ready cfgX []) = some (ended .noBracket, []) := by decide

/-- V61, V62 -/
theorem test_wrcmd :
    reply (.wrCmd 0x2C) (inBracket cfgX (good 1)) = some (ok 0, [dcLow, .xfer 0x2C 0, dcHigh]) ∧
    leaves (.wrCmd 0x2C) (inBracket cfgX (good 1)) (fun t => t.wmode) = true ∧
    leaves (.wrCmd 0x00) { inBracket cfgX (good 1) with wmode := true } (fun t => !t.wmode) = true := by decide

/-- V114 -/
theorem test_wrcmd_fails :
    reply (.wrCmd 0x2C) (inBracket cfgX [none]) = some (ended .transferFailure, [dcLow, .xferFail 0x2C, dcHigh]) := by decide

/-- V50 -/
theorem test_setwin :
    reply (.setWin 10 20 30 40) (inBracket cfgX (good 11)) = some (ok 0, win 0x0A 0x27 0x14 0x3B) := by decide

/-- V51, V52 -/
theorem test_setwin_edge :
    leaves (.setWin 65535 65535 1 1) (inBracket cfgX (good 11)) (fun t => decide (t.result = ok 0) &&
      decide (t.panel.mode = .unknown)) = true ∧
    reply (.setWin 65535 0 2 1) (inBracket cfgX (good 11)) = some (ended .badOperand, []) := by decide

/-- V55a -/
theorem test_wrpix :
    leaves (.wrPix 0xF800) (inBracket cfgX (good 2)) (fun t => decide (t.sent = bytes [0xF8, 0x00]) &&
      decide (t.panel.mode = .unknown)) = true := by decide

/-- V113 -/
theorem test_wrpix_fails :
    leaves (.wrPix 0xF800) { inBracket cfgX [some 0, none] with wmode := true } (fun t =>
      decide (t.sent = [.xfer 0xF8 0, .xferFail 0x00]) && decide (t.depth = 1) && !t.wmode) = true := by decide

/-- V56, V57 -/
theorem test_wrpixs :
    reply (.wrPixs 8 2) { inBracket cfgX (good 4) with src := [(8, 0x1234), (9, 0xABCD)] } =
      some (ok 0, bytes [0x12, 0x34, 0xAB, 0xCD]) ∧
    reply (.wrPixs 8 3) { inBracket cfgX (good 6) with src := [(8, 0x1234), (9, 0xABCD)] } = some (ended .badOperand, []) := by decide

/-- V59, V60 -/
theorem test_wrcolor :
    reply (.wrColor 0x07E0 3) (inBracket cfgX (good 6)) = some (ok 0, bytes [0x07, 0xE0, 0x07, 0xE0, 0x07, 0xE0]) ∧
    reply (.wrColor 0x07E0 0) (inBracket cfgX []) = some (ok 0, []) := by decide

/-- V63 -/
theorem test_wpixel :
    reply (.wPixel 3 4 0xFFFF) (inBracket cfgX (good 13)) = some (ok 0, win 3 3 4 4 ++ bytes [0xFF, 0xFF]) := by decide

/-- V110 -/
theorem test_wpixel_fails :
    leaves (.wPixel 3 4 0xFFFF) (inBracket cfgX (good 5 ++ [none])) (fun t =>
      decide (t.sent = [dcLow, .xfer 0x2A 0, dcHigh, .xfer 0 0, .xfer 3 0, .xfer 0 0, .xfer 3 0, dcLow, .xferFail 0x2B, dcHigh]) &&
      decide (t.depth = 1) && decide (t.csLine = .driven .low) && decide (t.dcLine = .driven .high) && !t.wmode) = true := by decide

/-- V64 -/
theorem test_wfillrect :
    reply (.wFillRect 98 98 10 10 0x07E0) (inBracket cfgX (good 19)) =
      some (ok 0, win 0x62 0x63 0x62 0x63 ++ bytes [0x07, 0xE0, 0x07, 0xE0, 0x07, 0xE0, 0x07, 0xE0]) := by decide

/-- P2, step 4; V65 -/
theorem test_whline :
    reply (.wHLine 98 1 5 0xFFFF) (inBracket cfgX (good 15)) = some (ok 0, win 0x62 0x63 1 1 ++ bytes [0xFF, 0xFF, 0xFF, 0xFF]) ∧
    reply (.wHLine 90 10 20 0x001F) (ready cfgX (good 31)) = some (ended .noBracket, []) := by decide

/-- V30 without its bracket -/
theorem test_wvline :
    reply (.wVLine 0 (-3) 5 0xFFFF) (inBracket cfgX (good 15)) = some (ok 0, win 0 0 0 1 ++ bytes [0xFF, 0xFF, 0xFF, 0xFF]) := by
  decide

/-- V33 without its bracket -/
theorem test_wbitmap :
    reply (.wBitmap 98 99 0 4 3) { inBracket cfgX (good 15) with src := bitmap 12 } =
      some (ok 0, win 98 99 99 99 ++ bytes [0x10, 0x00, 0x10, 0x01]) := by decide

/-- V24, V25 -/
theorem test_drawpixel :
    reply (.drawPixel 3 4 0xFFFF) (ready cfgX (good 13)) =
      some (ok 0, [csLow] ++ win 3 3 4 4 ++ bytes [0xFF, 0xFF] ++ [csHigh]) ∧
    reply (.drawPixel 100 0 0xFFFF) (ready cfgX []) = some (ok 0, [csLow, csHigh]) := by decide

/-- V106 -/
theorem test_drawpixel_fails :
    reply (.drawPixel 3 4 0xFFFF) (ready cfgX (good 1 ++ [none])) =
      some (ended .transferFailure, [csLow, dcLow, .xfer 0x2A 0, dcHigh, .xferFail 0x00, csHigh]) := by decide

/-- V28 -/
theorem test_fillrect :
    reply (.fillRect 98 98 10 10 0x07E0) (ready cfgX (good 19)) =
      some (ok 0, [csLow] ++ win 0x62 0x63 0x62 0x63 ++ bytes [0x07, 0xE0, 0x07, 0xE0, 0x07, 0xE0, 0x07, 0xE0] ++ [csHigh]) := by
  decide

/-- V37, V35 -/
theorem test_fillrect_extremes :
    reply (.fillRect 0x8000 0x8000 0x7FFF 0x7FFF 0xFFFF) (ready cfgX []) = some (ok 0, [csLow, csHigh]) ∧
    reply (.fillRect 5 5 0 3 0xFFFF) (ready cfgX []) = some (ended .badOperand, []) := by decide

/-- V29 shortened to the last two columns, V31 -/
theorem test_drawhline :
    reply (.drawHLine 98 10 20 0x001F) (ready cfgX (good 15)) =
      some (ok 0, [csLow] ++ win 98 99 10 10 ++ bytes [0x00, 0x1F, 0x00, 0x1F] ++ [csHigh]) ∧
    reply (.drawHLine 0 100 5 0xFFFF) (ready cfgX []) = some (ok 0, [csLow, csHigh]) := by decide

/-- V30 -/
theorem test_drawvline :
    reply (.drawVLine 0 (-3) 5 0xFFFF) (ready cfgX (good 15)) =
      some (ok 0, [csLow] ++ win 0 0 0 1 ++ bytes [0xFF, 0xFF, 0xFF, 0xFF] ++ [csHigh]) := by decide

/-- V32 -/
theorem test_drawbitmap :
    reply (.drawBitmap (-1) (-1) 0 4 3) { ready cfgX (good 23) with src := bitmap 12 } =
      some (ok 0, [csLow] ++ win 0 2 0 1 ++
        bytes [0x10, 0x05, 0x10, 0x06, 0x10, 0x07, 0x10, 0x09, 0x10, 0x0A, 0x10, 0x0B] ++ [csHigh]) := by decide

/-- V34 -/
theorem test_drawbitmap_undefined :
    reply (.drawBitmap 0 0 0 4 3) { ready cfgX (good 35) with src := bitmap 11 } = some (ended .badOperand, []) := by decide

/-- V76 -/
theorem test_setrot :
    leaves (.setRot 255) (ready cfgY (good 2)) (fun t =>
      decide (t.sent = [csLow, dcLow, .xfer 0x36 0, dcHigh, .xfer 0xE8 0, csHigh]) &&
      decide (t.width = 320) && decide (t.height = 240) && decide (t.rotation = 3)) = true := by decide

/-- V112 -/
theorem test_setrot_fails :
    leaves (.setRot 1) (ready cfgY [none]) (fun t =>
      decide (t.result = ended .transferFailure) && decide (t.sent = [csLow, dcLow, .xferFail 0x36, dcHigh, csHigh]) &&
      decide (t.width = 320) && decide (t.height = 240) && decide (t.rotation = 1)) = true := by decide

/-- V77, V78, V84 -/
theorem test_invert :
    reply (.invert true) (ready cfgX (good 1)) = some (ok 0, [csLow, dcLow, .xfer 0x21 0, dcHigh, csHigh]) ∧
    reply (.invert false) (ready cfgX (good 1)) = some (ok 0, [csLow, dcLow, .xfer 0x20 0, dcHigh, csHigh]) ∧
    reply (.invert true) (inBracket cfgX (good 1)) = some (ok 0, [dcLow, .xfer 0x21 0, dcHigh]) := by decide

/-- V126 -/
theorem test_invert_picture :
    leaves (.invert true) { ready cfgX (good 1) with panel := { (ready cfgX []).panel with fb := [(0, 0xF800)] } }
      (fun t => decide (t.panel.fb = []) && decide (t.panel.mode = .idle)) = true ∧
    leaves (.invert true) { ready { cfgX with fbPreserving := [0x21] } (good 1) with
        panel := { (ready cfgX []).panel with fb := [(0, 0xF800)] } }
      (fun t => decide (t.panel.fb = [(0, 0xF800)])) = true := by decide

/-- V79 -/
theorem test_scrollto :
    reply (.scrollTo 0x0123) (ready cfgX (good 3)) =
      some (ok 0, [csLow, dcLow, .xfer 0x37 0, dcHigh, .xfer 0x01 0, .xfer 0x23 0, csHigh]) := by decide

/-- V82 with the answer of V81 -/
theorem test_readreg :
    reply (.readReg 0x04 0xF5) (ready cfgX (good 3 ++ [some 0x9C])) =
      some (ok 0x009C,
        [csLow, dcLow, .xfer 0xD9 0, dcHigh, .xfer 0x05 0, dcLow, .xfer 0x04 0, dcHigh, .xfer 0x00 0, csHigh]) := by decide

/-- V111, V83 -/
theorem test_readreg_others :
    reply (.readReg 0x0A 2) (ready cfgX (good 3 ++ [none])) =
      some (ended .transferFailure,
        [csLow, dcLow, .xfer 0xD9 0, dcHigh, .xfer 0x12 0, dcLow, .xfer 0x0A 0, dcHigh, .xferFail 0x00, csHigh]) ∧
    leaves (.readReg 0x2C 0) (ready { cfgX with fbPreserving := [0xD9] } (good 3 ++ [some 0xFF])) (fun t =>
      decide (t.result = ok 0x00FF) && !t.wmode && decide (t.panel.mode = .unknown)) = true := by decide

/-- V1, V2, V3, V5, V7, S1 -/
theorem test_color565 :
    packColour 0x12 0x34 0x56 = 0x11AA ∧ packColour 0x07 0x03 0x07 = 0 ∧ packColour 0x08 0x04 0x08 = 0x0821 ∧
    packColour 0x80 0x80 0x80 = 0x8410 ∧ packColour 0xF8 0xFC 0xF8 = 0xFFFF ∧ packColour 0 0xFC 0 = 0x07E0 := by decide

/-- P5, step 9 -/
theorem test_color565_closed : reply (.color565 0xFF 0xFF 0xFF) (closed cfgX) = some (ok 0xFFFF, []) := by decide

/-- V140, V141, V149 -/
theorem test_topen :
    reply .tOpen { fresh cfgX with opens := [true] } = some (ok 0, [.sessionOpen ⟨1, .msbFirst, 0, 0, 8⟩]) ∧
    reply .tOpen { fresh cfgX with opens := [false] } = some (ended .deviceUnavailable, []) ∧
    reply .tOpen (ready cfgX []) = some (ended .notReady, []) := by decide

/-- V142, V143, V147 -/
theorem test_txfer :
    leaves (.tXfer 0xA5) (ready cfgX [some 0x3C]) (fun t => decide (t.result = ok 0x003C) &&
      decide (t.trace = [.xfer 0xA5 0x3C])) = true ∧
    reply (.tXfer 0xA5) (ready cfgX [none]) = some (ended .transferFailure, [.xferFail 0xA5]) ∧
    reply (.tXfer 0x00) (closed cfgX) = some (ended .notReady, []) := by decide

/-- V144, V145 -/
theorem test_tblock :
    reply (.tBlock [0x00, 0x0A, 0x00, 0x13]) (ready cfgX (good 4)) = some (ok 0, bytes [0x00, 0x0A, 0x00, 0x13]) ∧
    reply (.tBlock [0x00, 0x0A, 0x00, 0x13]) (ready cfgX [some 0, some 0, none]) =
      some (ended .transferFailure, bytes [0x00, 0x0A] ++ [.xferFail 0x00]) := by decide

/-- V146, V148 -/
theorem test_tclose :
    leaves .tClose (ready cfgX []) (fun t => decide (t.trace = [.sessionClose]) && decide (t.session = .released)) = true ∧
    reply .tClose (closed cfgX) = some (ended .notReady, []) := by decide

/-- V11, V17, V21, V22, V22a, V22c -/
theorem test_clip :
    clip 100 100 (-10) (-10) 200 200 = .window 0 0 100 100 10 10 ∧ clip 100 100 (-3) 0 4 1 = .window 0 0 1 1 3 0 ∧
    clip 100 100 (-32768) 0 32767 1 = .dropped ∧ clip 100 100 (-32766) 0 32767 1 = .window 0 0 1 1 32766 0 ∧
    clip 100 100 99 0 32767 1 = .window 99 0 1 1 0 0 ∧ clip 320 240 300 10 30 300 = .window 300 10 20 230 0 0 := by decide

/-- V13, V14, V15, V16, V18, V20 -/
theorem test_clip_edges :
    clip 100 100 100 99 1 1 = .dropped ∧ clip 100 100 99 100 1 1 = .dropped ∧ clip 100 100 (-1) 0 1 1 = .dropped ∧
    clip 100 100 (-3) 0 3 1 = .dropped ∧ clip 100 100 0 (-3) 5 5 = .window 0 0 5 2 0 3 ∧
    clip 100 100 10 (-20) 5 120 = .window 10 0 5 100 0 20 := by decide

/-- V121: the panel after V32 -/
theorem test_panel_blit :
    leaves (.drawBitmap (-1) (-1) 0 4 3) { ready cfgX (good 23) with src := bitmap 12 } (fun t =>
      decide (t.panel.win = ⟨0, 2, 0, 1⟩) && decide (t.panel.mode = .idle) &&
      decide (t.panel.fb = [(fbIndex 0 0, 0x1005), (fbIndex 1 0, 0x1006), (fbIndex 2 0, 0x1007), (fbIndex 0 1, 0x1009),
        (fbIndex 1 1, 0x100A), (fbIndex 2 1, 0x100B)])) = true := by decide

/-- V122: the seventh pixel of a 3 by 2 window is the first cell again -/
theorem test_panel_wraps :
    leaves (.wrPixs 0 7)
      { inBracket cfgX (good 14) with
        wmode := true, src := bitmap 7,
        panel := { (ready cfgX []).panel with win := ⟨10, 12, 20, 21⟩, cur := ⟨10, 20⟩, mode := .write } }
      (fun t => decide (t.panel.fb.read (fbIndex 10 20) = some 0x1006) && decide (t.panel.fb.read (fbIndex 11 20) = some 0x1001) &&
        decide (t.panel.fb.read (fbIndex 12 21) = some 0x1005) && decide (t.panel.cur = ⟨11, 20⟩)) = true := by decide

/-- V125: a failure on the low byte of a pixel -/
theorem test_panel_lost :
    leaves (.drawPixel 3 4 0xFFFF) (ready cfgX (good 12 ++ [none])) (fun t => decide (t.panel.mode = .unknown) &&
      decide (t.csLine = .driven .high) && decide (t.depth = 0)) = true := by decide

/-- An illegal descriptor, and no descriptor (R246, log 7). -/
theorem test_step :
    ((after (step { ready cfgX [] with requests := [⟨.host, padded [0x45]⟩] })).map fun t => (t.result, t.sent)) =
      some (ended .illegalOp, []) ∧
    after (step (ready cfgX [])) = some (ready cfgX []) := by decide

/-! ## Witnesses: every hypothesis of every obligation is met, clause by clause -/

/-- The state an operation leaves. -/
def next (i : Instr) (s : State) : State := (after (exec i s)).getD s

/-- A state with operations to take. -/
def issued (s : State) (rs : List Request) : State := s.setRequests rs

/-- The hypotheses of the clauses of `UnbracketedRule`: not ready; no bracket; each state of `bads`; `n` exchanges answered;
the first and the last exchange failed. -/
def MeetsUnbracketed (bad : State → Prop) (n : State → Nat) (bads : List State) (sOk sFirst sLast : State) (last : Nat) : Prop :=
  (fresh cfgX).lifecycle ≠ .ready ∧ ((ready cfgX []).lifecycle = .ready ∧ (ready cfgX []).depth = 0) ∧
  (∀ s ∈ bads, s.lifecycle = .ready ∧ 1 ≤ s.depth ∧ bad s) ∧
  (Between sOk ∧ 1 ≤ sOk.depth ∧ ¬ bad sOk ∧ Answers sOk (n sOk)) ∧
  (Between sFirst ∧ 1 ≤ sFirst.depth ∧ ¬ bad sFirst ∧ 0 < n sFirst ∧ FailsAt sFirst 0) ∧
  (Between sLast ∧ 1 ≤ sLast.depth ∧ ¬ bad sLast ∧ last < n sLast ∧ FailsAt sLast last ∧ last + 1 = n sLast)

/-- The same for `BracketedRule`, outside and inside a bracket of the host. -/
def MeetsBracketed (bad : State → Prop) (n : State → Nat) (bads : List State) (sOk sInner sFirst sLast : State) (last : Nat) : Prop :=
  (closed cfgX).lifecycle ≠ .ready ∧
  (∀ s ∈ bads, s.lifecycle = .ready ∧ bad s) ∧
  (Between sOk ∧ sOk.depth = 0 ∧ ¬ bad sOk ∧ Answers sOk (n sOk)) ∧
  (Between sInner ∧ sInner.depth = 1 ∧ ¬ bad sInner ∧ Answers sInner (n sInner)) ∧
  (Between sFirst ∧ ¬ bad sFirst ∧ 0 < n sFirst ∧ FailsAt sFirst 0) ∧
  (Between sLast ∧ ¬ bad sLast ∧ last < n sLast ∧ FailsAt sLast last ∧ last + 1 = n sLast)

/-- The invariant, by its parts. -/
theorem inv_of (s : State) (h : (s.cfg.wf = true ∧ SurfaceOk s ∧ SessionOk s ∧ LinesOk s) ∧
    (BracketOk s ∧ MemoriesOk s ∧ PanelOk s ∧ HostOnly s)) : Inv s :=
  ⟨h.1.1, h.1.2.1, h.1.2.2.1, h.1.2.2.2, h.2.1, h.2.2.1, h.2.2.2.1, h.2.2.2.2⟩

theorem witness_DecodeInvertsEncode :
    (Instr.tBlock [7]).wf = true ∧ (Instr.fillRect (-5) (-5) 10 10 0xF800).wf = true := by decide

theorem witness_EncodeInvertsDecode : decode .host (padded [0x01]) = .ok .beginOp := rfl

theorem witness_DecodeFollowsTheOpcodeTable :
    [7].length = Opcode.payloadLength .tBlock { Descriptor.blank .tBlock with n := 1 } ∧
    ([] : List Byte).length = Opcode.payloadLength .beginOp (.blank .beginOp) ∧
    (∃ r ∈ opcodeTable, r.covers 0x0100000000000000000000000000000000000000#160 = true) := by
  refine ⟨by decide, by decide, ⟨.beginOp, 0x0100000000000000000000000000000000000000#160, 0xFFFFFFFFFFFFFFFFFFFFFFFFFFFFFFFFFFFFFFFF#160⟩, ?_⟩
  decide

theorem witness_StepRunsTheDecodedOperation :
    (issued (fresh cfgX) [⟨.host, padded [0x01]⟩]).requests = ⟨.host, padded [0x01]⟩ :: [] ∧
    decode .host (padded [0x01]) = .ok .beginOp ∧ (fresh cfgX).requests = [] := ⟨rfl, rfl, rfl⟩

theorem witness_IllegalDescriptorEndsWithIllegalOp :
    (issued (closed cfgX) [⟨.host, padded []⟩]).requests = ⟨.host, padded []⟩ :: [] ∧
    decode .host (padded []) = .error .unassigned := ⟨rfl, rfl⟩

/-- A fresh block whose open succeeds. -/
def starting (xfers : List (Option Byte)) : State := { fresh cfgX with opens := [true], xfers := xfers }

theorem witness_BeginFollowsItsRule :
    (ready cfgX []).lifecycle ≠ .uninitialized ∧
    (let s := { fresh cfgX with opens := [false] };
      s.lifecycle = .uninitialized ∧ s.session ≠ .opened ∧ s.opens = false :: []) ∧
    (let s := starting (good 6);
      s.lifecycle = .uninitialized ∧ s.session ≠ .opened ∧ s.depth = 0 ∧ s.opens = true :: [] ∧ Answers s (beginExchanges s.cfg)) ∧
    (let s := starting [none];
      s.lifecycle = .uninitialized ∧ s.session ≠ .opened ∧ s.depth = 0 ∧ s.opens = true :: [] ∧
        0 < beginExchanges s.cfg ∧ FailsAt s 0) ∧
    (let s := starting (good 5 ++ [none]);
      s.lifecycle = .uninitialized ∧ s.session ≠ .opened ∧ s.depth = 0 ∧ s.opens = true :: [] ∧
        5 < beginExchanges s.cfg ∧ FailsAt s 5 ∧ 5 + 1 = beginExchanges s.cfg) := by decide

/-- A `BEGIN` that returns, and one that a failed exchange ends. -/
theorem witness_BeginLeavesThePanelAsSaid :
    (exec .beginOp (starting (good 6)) = .next (next .beginOp (starting (good 6))) ∧
      (next .beginOp (starting (good 6))).result = some ⟨.ok, 1⟩) ∧
    (exec .beginOp (starting [none]) = .next (next .beginOp (starting [none])) ∧
      (next .beginOp (starting [none])).result = some ⟨.transferFailure, 0⟩) := by
  refine ⟨⟨rfl, ?_⟩, rfl, ?_⟩ <;> decide

theorem witness_EndFollowsItsRule :
    (closed cfgX).lifecycle ≠ .ready ∧
    ((inBracket cfgX []).lifecycle = .ready ∧ (inBracket cfgX []).depth ≠ 0) ∧
    (Serving (ready cfgX []) ∧ (ready cfgX []).depth = 0) := by decide

theorem inv_ready : Inv (ready cfgX (good 100)) := inv_of _ (by decide)
theorem inv_inBracket : Inv (inBracket cfgX (good 100)) := inv_of _ (by decide)
theorem inv_closed : Inv (closed cfgX) := inv_of _ (by decide)

/-- A fresh instance with host operations issued to it. -/
def runOf (is : List Instr) : State := issued (starting (good 6)) (is.map hostRequest)

/-- What the steps of its operations leave. -/
def leftBy (is : List Instr) : State := (after (steps is.length (runOf is))).getD (runOf is)

theorem fresh_runOf (is : List Instr) : Fresh (runOf is) := ⟨rfl, test_wf_example_configurations.1, rfl⟩

theorem test_begin_end_ends_well : EndedWell (runOf [.beginOp, .endOp]) (leftBy [.beginOp, .endOp]) :=
  ⟨⟨fresh_runOf _, by decide, rfl, rfl⟩, by decide, rfl⟩

/-- R290: a run ends well by its last operation; one that goes on after its `END` is a run, and has not ended well, though
its last result is `OK` and the block is at rest. -/
theorem test_no_end_last :
    let t := leftBy [.beginOp, .endOp, .color565 0 0 0]
    Run (runOf [.beginOp, .endOp, .color565 0 0 0]) t ∧ AtRest t ∧ t.result = ok 0 ∧
      ¬ EndedWell (runOf [.beginOp, .endOp, .color565 0 0 0]) t :=
  ⟨⟨fresh_runOf _, by decide, rfl, rfl⟩, by decide, rfl, fun h => absurd h.last (by decide)⟩

theorem witness_EndFromTheInvariantEndsWell :
    EndedWell (runOf [.beginOp, .endOp]) (leftBy [.beginOp, .endOp]) ∧
    (Inv (ready cfgX (good 100)) ∧ (ready cfgX (good 100)).lifecycle = .ready ∧ (ready cfgX (good 100)).depth = 0) ∧
    (let s := runOf [.beginOp, .endOp];
      Fresh s ∧ s.requests = [.beginOp, .endOp].map hostRequest ∧ s.opens = true :: [] ∧ Answers s (beginExchanges s.cfg)) :=
  ⟨test_begin_end_ends_well, ⟨inv_ready, rfl, rfl⟩, fresh_runOf _, rfl, rfl, by decide⟩

theorem witness_LifecycleMovesOnlyByBeginAndEnd :
    (exec .beginOp (starting (good 6)) = .next (next .beginOp (starting (good 6))) ∧
      (next .beginOp (starting (good 6))).lifecycle ≠ (starting (good 6)).lifecycle) ∧
    (exec .endOp (ready cfgX []) = .next (next .endOp (ready cfgX [])) ∧
      (next .endOp (ready cfgX [])).lifecycle ≠ (ready cfgX []).lifecycle) := ⟨⟨rfl, by decide⟩, rfl, by decide⟩

theorem witness_StartWriteFollowsItsRule :
    (fresh cfgX).lifecycle ≠ .ready ∧
    ((inBracket cfgX []).lifecycle = .ready ∧ 1 ≤ (inBracket cfgX []).depth) ∧
    ((ready cfgX []).lifecycle = .ready ∧ (ready cfgX []).depth = 0) := by decide

theorem witness_EndWriteFollowsItsRule :
    (fresh cfgX).lifecycle ≠ .ready ∧
    ((ready cfgX []).lifecycle = .ready ∧ (ready cfgX []).depth = 0) ∧
    (let s := { inBracket cfgX [] with depth := 2 };
      s.lifecycle = .ready ∧ 2 ≤ s.depth) ∧
    (let s := inBracket cfgX [];
      s.lifecycle = .ready ∧ s.depth = 1 ∧ s.panel.mode ≠ .unknown ∧ s.panel.cutShort = false) ∧
    (let s := { inBracket cfgX [] with panel := { (ready cfgX []).panel with mode := .col 2, acc := [0, 0] } };
      s.lifecycle = .ready ∧ s.depth = 1 ∧ s.panel.cutShort = true) := by decide

theorem witness_WrcmdFollowsItsRule :
    MeetsUnbracketed (fun _ => False) (fun _ => 1) [] (inBracket cfgX (good 1)) (inBracket cfgX [none])
      (inBracket cfgX [none]) 0 :=
  ⟨by decide, by decide, by decide, by decide, by decide, by decide⟩

/-- The refused operands of `SETWIN`: no columns, no rows, a last column or row past 65535; and the admitted edge. -/
theorem witness_SetwinFollowsItsRule :
    (let bad := fun (x y w h : Half) =>
      ¬ (1 ≤ w.toNat ∧ 1 ≤ h.toNat ∧ x.toNat + w.toNat - 1 ≤ 65535 ∧ y.toNat + h.toNat - 1 ≤ 65535);
      bad 0 0 0 1 ∧ bad 0 0 1 0 ∧ bad 65535 0 2 1 ∧ bad 0 65535 1 2 ∧ ¬ bad 65535 65535 1 1 ∧ ¬ bad 0 0 65535 65535) ∧
    MeetsUnbracketed (fun _ => False) (fun _ => 11) [] (inBracket cfgX (good 11)) (inBracket cfgX [none])
      (inBracket cfgX (good 10 ++ [none])) 10 :=
  ⟨by decide, ⟨by decide, by decide, by decide, by decide, by decide, by decide⟩⟩

theorem witness_WrpixAndWrcolorFollowTheirRules :
    MeetsUnbracketed (fun _ => False) (fun _ => 2) [] (inBracket cfgX (good 2)) (inBracket cfgX [none])
      (inBracket cfgX [some 0, none]) 1 ∧
    MeetsUnbracketed (fun _ => False) (fun _ => 2 * (3 : Word32).toNat) [] (inBracket cfgX (good 6)) (inBracket cfgX [none])
      (inBracket cfgX (good 5 ++ [none])) 5 :=
  ⟨⟨by decide, by decide, by decide, by decide, by decide, by decide⟩,
    ⟨by decide, by decide, by decide, by decide, by decide, by decide⟩⟩

/-- `WRPIXS 8, 2` with both colours, with one, and with none at the end of the index range. -/
theorem witness_WrpixsFollowsItsRule :
    (let bad := fun (p n : Word32) (s : State) => ∃ k < n.toNat, 2 ^ 32 ≤ p.toNat + k ∨ s.src.read (p.toNat + k) = none;
      bad 8 2 { inBracket cfgX [] with src := [(8, 1)] } ∧ bad 0xFFFFFFFF 2 { inBracket cfgX [] with src := [(4294967295, 1)] } ∧
      ¬ bad 0xFFFFFFFF 1 { inBracket cfgX [] with src := [(4294967295, 1)] } ∧ ¬ bad 0 0 (inBracket cfgX [])) ∧
    MeetsUnbracketed (fun s => ∃ k < 2, 2 ^ 32 ≤ 8 + k ∨ s.src.read (8 + k) = none) (fun _ => 4)
      [{ inBracket cfgX [] with src := [(8, 1)] }]
      { inBracket cfgX (good 4) with src := [(8, 1), (9, 2)] } { inBracket cfgX [none] with src := [(8, 1), (9, 2)] }
      { inBracket cfgX (good 3 ++ [none]) with src := [(8, 1), (9, 2)] } 3 :=
  ⟨by decide, ⟨by decide, by decide, by decide, by decide, by decide, by decide⟩⟩

/-- Two pixels of one colour at the end of the index range. -/
theorem witness_StreamsOfOneColourAgree :
    let s := { inBracket cfgX (good 4) with src := [(4294967294, 7), (4294967295, 7)] }
    ∀ k < (2 : Word32).toNat, (0xFFFFFFFE : Word32).toNat + k < 2 ^ 32 ∧ s.src.read ((0xFFFFFFFE : Word32).toNat + k) = some 7 := by
  decide

theorem witness_DataProceduresSendHighBytesFirst :
    (inBracket cfgX (good 4)).session = .opened ∧ Answers (inBracket cfgX (good 4)) 4 ∧
    FailsAt (inBracket cfgX [none]) 0 ∧ FailsAt (inBracket cfgX (good 3 ++ [none])) 3 := by decide

/-- The bounds of the premises, a dropped rectangle, one with both edges clipped on both axes, and one a single pixel wide. -/
theorem witness_ClipMeetsItsSixLaws :
    ((1 : Int) ≤ 1 ∧ (1 : Int) ≤ 65535 ∧ (65535 : Int) ≤ 65535) ∧
    clip 100 100 100 99 1 1 = .dropped ∧ clip 1 1 0 0 1 1 = .window 0 0 1 1 0 0 ∧
    ((-10 : Int) < 0 ∧ (100 : Int) ≤ -10 + 200 - 1 ∧ clip 100 100 (-10) (-10) 200 200 = .window 0 0 100 100 10 10) ∧
    clip 65535 65535 65534 65534 32767 32767 = .window 65534 65534 1 1 0 0 ∧
    ((-32768 : Int) ≤ -32768 ∧ (32767 : Int) ≤ 32767 ∧ clip 65535 65535 (-32768) (-32768) 32767 32767 = .dropped) := by decide

theorem witness_WpixelFollowsItsRule :
    MeetsUnbracketed (fun _ => False) (fun s => drawExchanges s (99 : Half).toInt (0 : Half).toInt 1 1) [] (inBracket cfgX (good 13))
      (inBracket cfgX [none]) (inBracket cfgX (good 12 ++ [none])) 12 ∧
    drawExchanges (inBracket cfgX []) (-1 : Half).toInt (0 : Half).toInt 1 1 = 0 :=
  ⟨⟨by decide, by decide, by decide, by decide, by decide, by decide⟩, by decide⟩

/-- An extent of 0, a negative one, and 1; a rectangle that is clipped, and one that is dropped. -/
theorem witness_UnbracketedFillsFollowTheirRules :
    ((0 : Half).toInt < 1 ∧ (-1 : Half).toInt < 1 ∧ ¬ (1 : Half).toInt < 1 ∧ ¬ (0x7FFF : Half).toInt < 1) ∧
    drawExchanges (inBracket cfgX []) (100 : Half).toInt (0 : Half).toInt (5 : Half).toInt (5 : Half).toInt = 0 ∧
    MeetsUnbracketed (fun _ => (10 : Half).toInt < 1 ∨ (10 : Half).toInt < 1)
      (fun s => drawExchanges s (98 : Half).toInt (98 : Half).toInt (10 : Half).toInt (10 : Half).toInt) []
      (inBracket cfgX (good 19)) (inBracket cfgX [none]) (inBracket cfgX (good 18 ++ [none])) 18 ∧
    MeetsUnbracketed (fun _ => (5 : Half).toInt < 1) (fun s => drawExchanges s (98 : Half).toInt (1 : Half).toInt (5 : Half).toInt 1) []
      (inBracket cfgX (good 15)) (inBracket cfgX [none]) (inBracket cfgX (good 14 ++ [none])) 14 ∧
    MeetsUnbracketed (fun _ => (5 : Half).toInt < 1) (fun s => drawExchanges s (0 : Half).toInt (-3 : Half).toInt 1 (5 : Half).toInt) []
      (inBracket cfgX (good 15)) (inBracket cfgX [none]) (inBracket cfgX (good 14 ++ [none])) 14 :=
  ⟨by decide, by decide,
    ⟨by decide, by decide, by decide, by decide, by decide, by decide⟩,
    ⟨by decide, by decide, by decide, by decide, by decide, by decide⟩,
    ⟨by decide, by decide, by decide, by decide, by decide, by decide⟩⟩

/-- The bitmap of V33 with all its colours, and a bitmap one colour short. -/
theorem witness_WbitmapFollowsItsRule :
    BlitUndefined { inBracket cfgX [] with src := bitmap 1 } (98 : Half).toInt (99 : Half).toInt 0 (4 : Half).toInt (3 : Half).toInt ∧
    MeetsUnbracketed
      (fun s => (4 : Half).toInt < 1 ∨ (3 : Half).toInt < 1 ∨ BlitUndefined s (98 : Half).toInt (99 : Half).toInt 0 (4 : Half).toInt (3 : Half).toInt)
      (fun s => drawExchanges s (98 : Half).toInt (99 : Half).toInt (4 : Half).toInt (3 : Half).toInt)
      [{ inBracket cfgX [] with src := bitmap 1 }]
      { inBracket cfgX (good 15) with src := bitmap 12 } { inBracket cfgX [none] with src := bitmap 12 }
      { inBracket cfgX (good 14 ++ [none]) with src := bitmap 12 } 14 :=
  ⟨by decide, ⟨by decide, by decide, by decide, by decide, by decide, by decide⟩⟩

theorem witness_DrawpixelFollowsItsRule :
    MeetsBracketed (fun _ => False) (fun s => drawExchanges s (99 : Half).toInt (0 : Half).toInt 1 1) [] (ready cfgX (good 13))
      (inBracket cfgX (good 13)) (ready cfgX [none]) (ready cfgX (good 12 ++ [none])) 12 :=
  ⟨by decide, by decide, by decide, by decide, by decide, by decide⟩

theorem witness_BracketedFillsFollowTheirRules :
    MeetsBracketed (fun _ => (10 : Half).toInt < 1 ∨ (10 : Half).toInt < 1)
      (fun s => drawExchanges s (98 : Half).toInt (98 : Half).toInt (10 : Half).toInt (10 : Half).toInt) []
      (ready cfgX (good 19)) (inBracket cfgX (good 19)) (ready cfgX [none]) (ready cfgX (good 18 ++ [none])) 18 ∧
    MeetsBracketed (fun _ => (5 : Half).toInt < 1) (fun s => drawExchanges s (98 : Half).toInt (1 : Half).toInt (5 : Half).toInt 1) []
      (ready cfgX (good 15)) (inBracket cfgX (good 15)) (ready cfgX [none]) (ready cfgX (good 14 ++ [none])) 14 ∧
    MeetsBracketed (fun _ => (5 : Half).toInt < 1) (fun s => drawExchanges s (0 : Half).toInt (-3 : Half).toInt 1 (5 : Half).toInt) []
      (ready cfgX (good 15)) (inBracket cfgX (good 15)) (ready cfgX [none]) (ready cfgX (good 14 ++ [none])) 14 ∧
    (ready cfgX []).lifecycle = .ready ∧ (0 : Half).toInt < 1 :=
  ⟨⟨by decide, by decide, by decide, by decide, by decide, by decide⟩,
    ⟨by decide, by decide, by decide, by decide, by decide, by decide⟩,
    ⟨by decide, by decide, by decide, by decide, by decide, by decide⟩,
    by decide⟩

theorem witness_DrawbitmapFollowsItsRule :
    MeetsBracketed
      (fun s => (4 : Half).toInt < 1 ∨ (3 : Half).toInt < 1 ∨ BlitUndefined s (98 : Half).toInt (99 : Half).toInt 0 (4 : Half).toInt (3 : Half).toInt)
      (fun s => drawExchanges s (98 : Half).toInt (99 : Half).toInt (4 : Half).toInt (3 : Half).toInt)
      [{ ready cfgX [] with src := bitmap 1 }]
      { ready cfgX (good 15) with src := bitmap 12 } { inBracket cfgX (good 15) with src := bitmap 12 }
      { ready cfgX [none] with src := bitmap 12 } { ready cfgX (good 14 ++ [none]) with src := bitmap 12 } 14 :=
  ⟨by decide, by decide, by decide, by decide, by decide, by decide⟩

theorem witness_NestedDrawingEqualsUnbracketed : 1 ≤ (inBracket cfgX (good 13)).depth := by decide

theorem witness_FillIsItsExpansion :
    let s := ready cfgX (good 19)
    let s1 := next .startWrite s
    let s2 := next (.wFillRect 98 98 10 10 0x07E0) s1
    s.lifecycle = .ready ∧ 1 ≤ (10 : Half).toInt ∧ exec .startWrite s = .next s1 ∧
      exec (.wFillRect 98 98 10 10 0x07E0) s1 = .next s2 ∧ exec .endWrite s2 = .next (next .endWrite s2) :=
  ⟨rfl, by decide, rfl, rfl, rfl⟩

theorem witness_SetrotFollowsItsRule :
    MeetsBracketed (fun _ => False) (fun _ => 2) [] (ready cfgY (good 2)) (inBracket cfgY (good 2)) (ready cfgY [none])
      (ready cfgY [some 0, none]) 1 :=
  ⟨by decide, by decide, by decide, by decide, by decide, by decide⟩

theorem witness_InvertAndScrollFollowTheirRules :
    MeetsBracketed (fun _ => False) (fun _ => 1) [] (ready cfgX (good 1)) (inBracket cfgX (good 1)) (ready cfgX [none])
      (ready cfgX [none]) 0 ∧
    MeetsBracketed (fun _ => False) (fun _ => 3) [] (ready cfgX (good 3)) (inBracket cfgX (good 3)) (ready cfgX [none])
      (ready cfgX (good 2 ++ [none])) 2 :=
  ⟨⟨by decide, by decide, by decide, by decide, by decide, by decide⟩, ⟨by decide, by decide, by decide, by decide, by decide, by decide⟩⟩

theorem witness_ReadregFollowsItsRule :
    MeetsBracketed (fun _ => False) (fun _ => 4) [] (ready cfgX (good 3 ++ [some 0x9C])) (inBracket cfgX (good 4))
      (ready cfgX [none]) (ready cfgX (good 3 ++ [none])) 3 :=
  ⟨by decide, by decide, by decide, by decide, by decide, by decide⟩

theorem witness_OpenAndCloseFollowTheirRules :
    (ready cfgX []).session = .opened ∧ (fresh cfgX).session ≠ .opened ∧ (closed cfgX).session ≠ .opened ∧
    { fresh cfgX with opens := [false] }.opens = false :: [] ∧ { closed cfgX with opens := [true] }.opens = true :: [] := by decide

theorem witness_ExchangesFollowTheirRules :
    (closed cfgX).session ≠ .opened ∧ [(7 : Byte), 8].length < 2 ^ 32 ∧
    (let s := ready cfgX [some 0x3C];
      s.session = .opened ∧ s.xfers = some 0x3C :: [] ∧ Answers s 1 ∧ Answers s 0) ∧
    (let s := ready cfgX [none];
      s.session = .opened ∧ FailsAt s 0 ∧ 0 < [(7 : Byte)].length) ∧
    (let s := ready cfgX [some 0, none];
      FailsAt s 1 ∧ 1 < [(7 : Byte), 8].length) := by decide

theorem witness_ExchangeBitsGoMostSignificantFirst : 0 < 8 ∧ 7 < 8 := by decide

theorem witness_AnOperationIsRefusedWholeOrStarts :
    (Instr.endOp).opcode.port = .host ∧ SessionOk (inBracket cfgX []) ∧
    exec .endOp (inBracket cfgX []) = .next (next .endOp (inBracket cfgX [])) ∧
    (next .endOp (inBracket cfgX [])).result = some ⟨.bracketOpen, 0⟩ ∧ Status.bracketOpen.isMisuse = true :=
  ⟨rfl, by decide, rfl, rfl, rfl⟩

/-- An operation that is refused, and each operation whose value R93 gives, that returned. -/
theorem witness_EveryStatusIsInTheTable :
    (exec .tClose (closed cfgX) = .next (next .tClose (closed cfgX)) ∧
      (next .tClose (closed cfgX)).result = some ⟨.notReady, 0⟩) ∧
    (exec .beginOp (starting (good 6)) = .next (next .beginOp (starting (good 6))) ∧
      (next .beginOp (starting (good 6))).result = some ⟨.ok, 1⟩) ∧
    (exec (.color565 0xFF 0 0) (fresh cfgX) = .next (next (.color565 0xFF 0 0) (fresh cfgX)) ∧
      (next (.color565 0xFF 0 0) (fresh cfgX)).result = some ⟨.ok, 0xF800⟩) ∧
    (exec (.tXfer 0xA5) (ready cfgX [some 0x3C]) = .next (next (.tXfer 0xA5) (ready cfgX [some 0x3C])) ∧
      (next (.tXfer 0xA5) (ready cfgX [some 0x3C])).result = some ⟨.ok, 0x3C⟩) ∧
    (exec (.readReg 0x04 0xF5) (ready cfgX (good 3 ++ [some 0x9C])) =
        .next (next (.readReg 0x04 0xF5) (ready cfgX (good 3 ++ [some 0x9C]))) ∧
      (next (.readReg 0x04 0xF5) (ready cfgX (good 3 ++ [some 0x9C]))).result = some ⟨.ok, 0x9C⟩) :=
  ⟨⟨rfl, rfl⟩, ⟨rfl, by decide⟩, ⟨rfl, by decide⟩, ⟨rfl, by decide⟩, rfl, by decide⟩

theorem witness_TransferFailureRestoresTheLines :
    let s := inBracket cfgX [none]
    Instr.wrCmd 0x2C ≠ .beginOp ∧ (Instr.wrCmd 0x2C).opcode.port = .host ∧ Inv s ∧
      exec (.wrCmd 0x2C) s = .next (next (.wrCmd 0x2C) s) ∧ (next (.wrCmd 0x2C) s).result = some ⟨.transferFailure, 0⟩ :=
  ⟨by decide, rfl, inv_of _ (by decide), rfl, by decide⟩

/-- An operation that returned, a step with the mark set before it, one that sets it, and a descriptor of no operation. -/
theorem witness_FaultMarkIsSticky :
    (exec .endOp (ready cfgX []) = .next (next .endOp (ready cfgX [])) ∧
      (next .endOp (ready cfgX [])).result = some ⟨.ok, 0⟩ ∧ NoFaultRecorded (next .endOp (ready cfgX []))) ∧
    (let s := { issued (ready cfgX []) [hostRequest .startWrite] with faultMark := true };
      s.faultMark = true ∧ step s = .next (next .startWrite { s with requests := [] })) ∧
    (let s := issued (ready cfgX []) [hostRequest .endWrite];
      s.faultMark = false ∧ step s = .next (next .endWrite { s with requests := [] }) ∧
        (next .endWrite { s with requests := [] }).faultMark = true) ∧
    (let s := issued (ready cfgX []) [⟨.host, padded []⟩];
      s.requests = ⟨.host, padded []⟩ :: [] ∧ decode .host (padded []) = .error .unassigned) :=
  ⟨⟨rfl, rfl, rfl⟩, ⟨rfl, rfl⟩, ⟨rfl, rfl, rfl⟩, rfl, rfl⟩

theorem witness_ReadyStatesMeetThePremise :
    Inv (inBracket cfgX (good 100)) ∧ (inBracket cfgX (good 100)).lifecycle = .ready := ⟨inv_inBracket, rfl⟩

theorem witness_EveryStepKeepsTheInvariant :
    let s := issued (ready cfgX (good 100)) [⟨.host, padded [0x10]⟩]
    Inv s ∧ step s = .next (next .startWrite { s with requests := [] }) := ⟨inv_of _ (by decide), rfl⟩

theorem witness_OnlyBeginAndSetrotWriteTheSurface :
    exec .endOp (ready cfgX []) = .next (next .endOp (ready cfgX [])) ∧ Instr.endOp ≠ .beginOp ∧
    ∀ r, Instr.endOp ≠ .setRot r := ⟨rfl, by decide, fun r h => by cases h⟩

theorem witness_TraceGrowsAndParametersStay :
    exec .endOp (ready cfgX []) = .next (next .endOp (ready cfgX [])) ∧ Instr.endOp ≠ .beginOp := ⟨rfl, by decide⟩

theorem witness_EveryOperationKeepsTheFraming :
    let s := inBracket cfgX (good 100)
    (Instr.wrCmd 0x00).opcode.port = .host ∧ Inv s ∧ exec (.wrCmd 0x00) s = .next (next (.wrCmd 0x00) s) ∧
      (next (.wrCmd 0x00) s).trace = s.trace ++ [dcLow, .xfer 0x00 0, dcHigh] := ⟨rfl, inv_inBracket, rfl, by decide⟩

theorem witness_StreamWithoutAWindowLosesThePanel :
    let s := { inBracket cfgX [] with src := [(0xFFFFFFFE, 0x1234), (0xFFFFFFFF, 0xABCD)] }
    s.lifecycle = .ready ∧ 1 ≤ s.depth ∧ s.wmode = false ∧ 1 ≤ (2 : Word32).toNat ∧
    ∀ k < (2 : Word32).toNat, (0xFFFFFFFE : Word32).toNat + k < 2 ^ 32 ∧
      (s.src.read ((0xFFFFFFFE : Word32).toNat + k)).isSome = true := by decide

/-- A listening panel inside a bracket, its window as given. -/
def listening (w : Window) (preserving : List Byte) (xfers : List (Option Byte)) : State :=
  { inBracket { cfgX with fbPreserving := preserving } xfers with
    panel := { (ready cfgX []).panel with win := w, mode := .other, fb := [(0, 0xF800)] } }

/-- The premises, and the conditions of the five branches: the window's last column is the surface's last, or one past it. -/
theorem witness_CommandByteMovesThePanel :
    (let s := { listening ⟨0, 0, 0, 0⟩ [] (good 1) with panel := { (listening ⟨0, 0, 0, 0⟩ [] []).panel with mode := .row 3, acc := [0, 0, 0] } };
      Between s ∧ 1 ≤ s.depth ∧ Answers s 1 ∧ s.panel.cutShort = true) ∧
    (let s := listening ⟨99, 99, 0, 99⟩ [0x21] (good 1);
      Between s ∧ 1 ≤ s.depth ∧ PanelListens s ∧ Answers s 1 ∧
      (s.panel.win.xs.toNat ≤ s.panel.win.xe.toNat ∧ s.panel.win.xe.toNat < s.width.toNat ∧
        s.panel.win.ys.toNat ≤ s.panel.win.ye.toNat ∧ s.panel.win.ye.toNat < s.height.toNat) ∧
      (0x2A : Byte) = s.cfg.cmdCaset ∧ (0x2B : Byte) = s.cfg.cmdPaset ∧ (0x2C : Byte) = s.cfg.cmdRamwr ∧
      (0x21 : Byte) ∈ s.cfg.fbPreserving ∧ (0x20 : Byte) ∉ s.cfg.fbPreserving) ∧
    (let s := listening ⟨99, 100, 0, 99⟩ [] (good 1);
      Between s ∧ 1 ≤ s.depth ∧ PanelListens s ∧ Answers s 1 ∧ ¬ s.panel.win.xe.toNat < s.width.toNat) ∧
    exec (.wrCmd 0x2C) (listening ⟨99, 100, 0, 99⟩ [] (good 1)) =
      .next (next (.wrCmd 0x2C) (listening ⟨99, 100, 0, 99⟩ [] (good 1))) := ⟨by decide, by decide, by decide, rfl⟩

theorem witness_SetwinMovesThePanel :
    let s := listening ⟨0, 0, 0, 0⟩ [] (good 11)
    (Between s ∧ 1 ≤ s.depth ∧ s.cfg.wf = true ∧ PanelListens s ∧ Answers s 11) ∧
    (1 ≤ (1 : Half).toNat ∧ (99 : Half).toNat + (1 : Half).toNat - 1 ≤ 65535 ∧
      (99 : Half).toNat + (1 : Half).toNat ≤ s.width.toNat ∧ (0 : Half).toNat + (1 : Half).toNat ≤ s.height.toNat) ∧
    (¬ (99 : Half).toNat + (2 : Half).toNat ≤ s.width.toNat ∧ (65535 : Half).toNat + (1 : Half).toNat - 1 ≤ 65535) ∧
    exec (.setWin 99 0 1 1) s = .next (next (.setWin 99 0 1 1) s) := ⟨by decide, by decide, by decide, rfl⟩

/-- The four operations, with their codes in `FB_PRESERVING` and not, inside a bracket and outside. -/
theorem witness_AncillaryCommandsKeepOrLoseThePicture :
    (∀ p ∈ [[], [0x36, 0x37, 0x21, 0x20]], let s := listening ⟨0, 0, 0, 0⟩ p (good 3);
      Between s ∧ PanelListens s ∧ Answers s 3 ∧
      ∀ cmd ∈ [s.cfg.cmdMadctl, s.cfg.cmdVscrsadd, s.cfg.cmdInvon, s.cfg.cmdInvoff],
        cmd ≠ s.cfg.cmdCaset ∧ cmd ≠ s.cfg.cmdPaset ∧ cmd ≠ s.cfg.cmdRamwr ∧ (cmd ∈ s.cfg.fbPreserving ↔ p ≠ [])) ∧
    (Between (ready cfgX (good 3)) ∧ PanelListens (ready cfgX (good 3)) ∧ (ready cfgX (good 3)).depth = 0) ∧
    exec (.setRot 1) (ready cfgX (good 3)) = .next (next (.setRot 1) (ready cfgX (good 3))) := ⟨by decide, by decide, rfl⟩

/-- Both codes in `FB_PRESERVING`, one, and none, inside a bracket; outside one; `cmd` each window command, with a window inside
the surface and one past its last column; and `0xD9` a window command. -/
theorem witness_ReadregKeepsOrLosesThePicture :
    (∀ p ∈ [[], [0xD9], [0xD9, 0x0A]], let s := listening ⟨0, 0, 0, 0⟩ p (good 4);
      Between s ∧ PanelListens s ∧ Answers s 4 ∧
      ∀ c ∈ [(0xD9 : Byte), 0x0A], c ≠ s.cfg.cmdCaset ∧ c ≠ s.cfg.cmdPaset ∧ c ≠ s.cfg.cmdRamwr) ∧
    (Between (ready cfgX (good 4)) ∧ PanelListens (ready cfgX (good 4)) ∧ (ready cfgX (good 4)).depth = 0 ∧
      (0x2C : Byte) ∈ [cfgX.cmdCaset, cfgX.cmdPaset, cfgX.cmdRamwr]) ∧
    (∀ w ∈ [(⟨99, 99, 0, 99⟩ : Window), ⟨99, 100, 0, 99⟩], let s := listening w [0xD9] (good 4);
      Between s ∧ PanelListens s ∧ Answers s 4 ∧ 1 ≤ s.depth ∧ s.cfg.wf = true ∧
      0xD9 ∉ [s.cfg.cmdCaset, s.cfg.cmdPaset, s.cfg.cmdRamwr] ∧ 0xD9 ∈ s.cfg.fbPreserving ∧
      s.cfg.cmdCaset = 0x2A ∧ s.cfg.cmdPaset = 0x2B ∧ s.cfg.cmdRamwr = 0x2C ∧
      (windowInside s.panel.win s.width s.height = true ↔ w.xe = 99)) ∧
    (let s := ready { cfgX with cmdRamwr := 0xD9 } (good 4);
      Between s ∧ PanelListens s ∧ Answers s 4 ∧ 0xD9 ∈ [s.cfg.cmdCaset, s.cfg.cmdPaset, s.cfg.cmdRamwr]) ∧
    exec (.readReg 0x0A 2) (ready cfgX (good 4)) = .next (next (.readReg 0x0A 2) (ready cfgX (good 4))) ∧
    exec (.readReg 0x2C 0) (listening ⟨99, 99, 0, 99⟩ [0xD9] (good 4)) =
      .next (next (.readReg 0x2C 0) (listening ⟨99, 99, 0, 99⟩ [0xD9] (good 4))) :=
  ⟨by decide, by decide, by decide, by decide, rfl, rfl⟩

/-- A stream in force in a window of 3 columns and 2 rows in the surface's last corner, at its last cell but one. -/
def streaming (xfers : List (Option Byte)) : State :=
  { inBracket cfgX xfers with
    wmode := true, src := bitmap 3,
    panel := { (ready cfgX []).panel with win := ⟨97, 99, 98, 99⟩, cur := ⟨98, 99⟩, mode := .write, fb := [(0, 0xF800)] } }

/-- R65: the pixels go on from the cursor, the last cell and then the first. -/
theorem test_stream_goes_on :
    let s := streaming (good 6)
    let t := next (.wrPixs 0 3) s
    (t.panel.fb, t.panel.cur) =
      (((Memory.write [(0, 0xF800)] (fbIndex 98 99) 0x1000).write (fbIndex 99 99) 0x1001).write (fbIndex 97 98) 0x1002,
        (⟨98, 98⟩ : Cursor)) := by decide

/-- The three operations on a stream in force, a pixel that a later one covers and one that none covers, a cell none is for;
and a window in the last column and row, and 3 pixels for its 1 cell: the last one stays. -/
theorem witness_StreamFillsTheWindowRowMajor :
    (let s := streaming (good 6);
      Between s ∧ 1 ≤ s.depth ∧ InStream s ∧ s.panel.fb.wf = true ∧
      Streams s (.wrPix 7) [7] ∧ Streams s (.wrColor 7 3) [7, 7, 7] ∧ Streams s (.wrPixs 0 3) [0x1000, 0x1001, 0x1002] ∧
      Answers s (2 * [0x1000, 0x1001, 0x1002].length) ∧
      exec (.wrPixs 0 3) s = .next (next (.wrPixs 0 3) s) ∧
      cellAhead s.panel.win s.panel.cur 0 = ⟨98, 99⟩ ∧ cellAhead s.panel.win s.panel.cur 1 = ⟨99, 99⟩ ∧
      cellAhead s.panel.win s.panel.cur 2 = ⟨97, 98⟩ ∧ cellAhead s.panel.win s.panel.cur 6 = ⟨98, 99⟩ ∧
      ∀ k < 3, cellAhead s.panel.win s.panel.cur k ≠ ⟨0, 0⟩) ∧
    (let s := { listening ⟨0, 0, 0, 0⟩ [] (good 17) with src := bitmap 3 };
      let t := next (.setWin 99 99 1 1) s;
      (Between s ∧ 1 ≤ s.depth ∧ s.cfg.wf = true ∧ PanelListens s ∧ s.panel.fb.wf = true ∧ 1 ≤ (1 : Half).toNat ∧
        (99 : Half).toNat + (1 : Half).toNat ≤ s.width.toNat ∧ (99 : Half).toNat + (1 : Half).toNat ≤ s.height.toNat ∧
        Answers s (11 + 2 * (3 : Word32).toNat) ∧
        ∀ k < (3 : Word32).toNat, (0 : Word32).toNat + k < 2 ^ 32 ∧ (s.src.read ((0 : Word32).toNat + k)).isSome = true) ∧
      (2 < (3 : Word32).toNat ∧ (3 : Word32).toNat ≤ 2 + (1 : Half).toNat * (1 : Half).toNat) ∧
      exec (.setWin 99 99 1 1) s = .next t ∧ exec (.wrPixs 0 3) t = .next (next (.wrPixs 0 3) t)) :=
  ⟨⟨by decide, by decide, by decide, by decide, .inl ⟨7, rfl, rfl⟩, .inr (.inl ⟨7, 3, rfl, rfl⟩),
      .inr (.inr ⟨0, 3, rfl, rfl, by decide⟩), by decide, rfl, by decide, by decide, by decide, by decide, by decide⟩,
    by decide, by decide, rfl, rfl⟩

theorem witness_FillPaintsExactlyTheIntersection :
    let s := ready cfgX (good 61)
    (Between s ∧ s.cfg.wf = true ∧ PanelListens s ∧ s.panel.fb.wf = true ∧ 1 ≤ (10 : Half).toInt ∧
      Answers s (drawExchanges s (-5 : Half).toInt (-5 : Half).toInt (10 : Half).toInt (10 : Half).toInt)) ∧
    (InRect s (-5 : Half).toInt (-5 : Half).toInt (10 : Half).toInt (10 : Half).toInt 4 4 ∧
      ¬ InRect s (-5 : Half).toInt (-5 : Half).toInt (10 : Half).toInt (10 : Half).toInt 5 4) ∧
    exec (.fillRect (-5) (-5) 10 10 0xF800) s = .next (next (.fillRect (-5) (-5) 10 10 0xF800) s) :=
  ⟨by decide, by decide, rfl⟩

theorem witness_BlitLandsWhereTheUnclippedBlitWould :
    ((2 < 3 ∧ 1 < 2) ∧ (0 < 3 ∧ 0 + 1 < 2) ∧ (blitIndexes 0 4 1 1 3 2)[0 * 3]? = some 5 ∧
      (blitIndexes 0 4 1 1 3 2)[(0 + 1) * 3]? = some 9) ∧
    let s := { ready cfgX (good 23) with src := bitmap 12 }
    (Between s ∧ s.cfg.wf = true ∧ PanelListens s ∧ s.panel.fb.wf = true ∧ 1 ≤ (4 : Half).toInt ∧ 1 ≤ (3 : Half).toInt ∧
      ¬ BlitUndefined s (-1 : Half).toInt (-1 : Half).toInt (0 : Word32).toNat (4 : Half).toInt (3 : Half).toInt ∧
      Answers s (drawExchanges s (-1 : Half).toInt (-1 : Half).toInt (4 : Half).toInt (3 : Half).toInt)) ∧
    exec (.drawBitmap (-1) (-1) 0 4 3) s = .next (next (.drawBitmap (-1) (-1) 0 4 3) s) := ⟨by decide, by decide, rfl⟩

theorem witness_SparseMemoryReadsWhatWasWritten :
    Memory.wf [] = true ∧ Memory.wf [(3, 1), (5, 2)] = true ∧ fbIndex 65535 0 ≠ fbIndex 0 1 := by decide

end Sys2Proof.Tests
end

/-! PROOFS. The state family (spec 10_state.md): what an operation of the host can leave, said once; the part of the
invariant that holds while the session is open, which every bracket and every walk keeps; and the invariant of a step. -/

namespace Sys2Proof

/-! The port an operation was decoded on (30_encoding.md R92). -/

theorem build_opcode (o : Opcode) (f : Descriptor) (payload : List Byte) : (o.build f payload).opcode = o := by
  cases o <;> rfl

theorem decode_port {port : Port} {bytes : List Byte} {i : Instr} (h : decode port bytes = .ok i) : i.opcode.port = port := by
  unfold decode at h
  split at h
  · cases h
  · obtain ⟨o, _, hport, _, _, rfl⟩ := decodeFields_ok.mp h
    rw [build_opcode, hport]

end Sys2Proof

namespace Sys2Proof.Machine

/-! What the guard, the conclusion and the bracket can do. -/

/-- Everything a guarded operation can do: it is refused by a check, or all checks pass and its body runs
(60_exceptions.md R253). -/
theorem guarded_cases {checks : List (Bool × Status)} {body : State → State} {s t : State}
    (h : guarded checks body s = .next t) : (∃ e, t = s.raise e) ∨ (firstFailing checks = none ∧ t = body s) := by
  injection h with h
  subst h
  rcases firstFailing checks with _ | e
  · exact .inr ⟨rfl, rfl⟩
  · exact .inl ⟨e, rfl⟩

theorem firstFailing_cons_none {b : Bool} {e : Status} {cs : List (Bool × Status)} :
    firstFailing ((b, e) :: cs) = none ↔ b = true ∧ firstFailing cs = none := by
  cases b <;> simp [firstFailing]

theorem readyCheck_pass {s : State} {cs : List (Bool × Status)} (h : firstFailing (readyCheck s :: cs) = none) :
    s.lifecycle = .ready ∧ firstFailing cs = none := by
  simpa using firstFailing_cons_none.mp h

theorem bracketCheck_pass {s : State} {cs : List (Bool × Status)} (h : firstFailing (bracketCheck s :: cs) = none) :
    1 ≤ s.depth ∧ firstFailing cs = none := by
  simpa using firstFailing_cons_none.mp h

theorem conclude_eq (r : Option Status × State) (v : Half) : ∃ st w, conclude r v = r.2.complete st w := by
  rcases r with ⟨_ | e, t⟩
  · exact ⟨.ok, v, rfl⟩
  · exact ⟨e, 0, rfl⟩

theorem bracketed_snd (p : Proc) (s : State) : (bracketed p s).2 = endWrite (p (startWrite s)).2 := rfl

theorem andThen_assoc (p q r : Proc) : (p.andThen q).andThen r = p.andThen (q.andThen r) := by
  funext s
  unfold Proc.andThen
  rcases p s with ⟨_ | e, t⟩ <;> rfl

/-- A walk is one part of it after the other. -/
theorem runItems_append (is js : List WireItem) : runItems (is ++ js) = (runItems is).andThen (runItems js) := by
  induction is with
  | nil => rfl
  | cons i is ih => rw [List.cons_append, runItems, ih, ← andThen_assoc, ← runItems]

theorem andThen_skip_snd (p : Proc) (s : State) : (p.andThen Proc.skip s).2 = (p s).2 := by
  unfold Proc.andThen
  rcases p s with ⟨_ | e, t⟩ <;> rfl

/-- The walk of a register read: its fourth exchange sends a zero byte (44_ancillary.md R223). -/
def readItems (cmd index : Byte) : List WireItem :=
  [.command Config.cmdRegreadEnable, .data (Config.regreadBase + index), .command cmd] ++ [.data 0x00]

theorem readRegister_snd (cmd index : Byte) (s : State) :
    (readRegister cmd index s).2 = (runItems (readItems cmd index) s).2 := by
  rw [readItems, runItems_append]
  simp only [readRegister, Proc.andThen]
  rcases runItems [.command Config.cmdRegreadEnable, .data (Config.regreadBase + index), .command cmd] s with ⟨_ | e, t⟩
  · exact ((andThen_skip_snd _ _).trans (data8_snd 0x00 t)).symm
  · rfl

/-! What an operation can leave, before it is concluded. -/

/-- The states in which an operation of the host other than `BEGIN`, `END` and `SETROT` can hand back its result: it did
nothing, it walked inside the host's bracket or inside one of its own, or it opened or closed a bracket of the host. -/
inductive Reaches (s : State) : State → Prop where
  | stay : Reaches s s
  | walk (is : List WireItem) : s.lifecycle = .ready → 1 ≤ s.depth → Reaches s (runItems is s).2
  | bracket (is : List WireItem) : s.lifecycle = .ready → Reaches s (bracketed (runItems is) s).2
  | start : s.lifecycle = .ready → Reaches s (startWrite s)
  | finish : s.lifecycle = .ready → 1 ≤ s.depth → Reaches s (endWrite s)

/-- `t` is a state that `s` reaches, with a result handed back in it. -/
def Leaves (s t : State) : Prop := ∃ u st v, Reaches s u ∧ t = u.complete st v

theorem leaves_refused {s t : State} (h : ∃ e, t = s.raise e) : Leaves s t := by
  obtain ⟨e, rfl⟩ := h
  exact ⟨s, e, 0, .stay, rfl⟩

theorem leaves_concluded {s u : State} {r : Option Status × State} (v : Half) (hu : Reaches s u) (hr : r.2 = u) :
    Leaves s (conclude r v) := by
  obtain ⟨st, w, he⟩ := conclude_eq r v
  exact ⟨u, st, w, hu, by rw [he, hr]⟩

section
variable {s t : State} {cs : List (Bool × Status)}

/-- An unbracketed operation walks inside the host's bracket, if at all. -/
theorem unbracketed_leaves {is : State → List WireItem}
    (h : guarded (readyCheck s :: bracketCheck s :: cs) (fun s => conclude (runItems (is s) s) 0) s = .next t) :
    Leaves s t := by
  rcases guarded_cases h with h | ⟨hc, rfl⟩
  · exact leaves_refused h
  · obtain ⟨hr, hc⟩ := readyCheck_pass hc
    exact leaves_concluded 0 (.walk _ hr (bracketCheck_pass hc).1) rfl

/-- A bracketed operation walks inside a bracket of its own, if at all. -/
theorem bracketed_leaves {is : State → List WireItem}
    (h : guarded (readyCheck s :: cs) (fun s => conclude (bracketed (runItems (is s)) s) 0) s = .next t) : Leaves s t := by
  rcases guarded_cases h with h | ⟨hc, rfl⟩
  · exact leaves_refused h
  · exact leaves_concluded 0 (.bracket _ (readyCheck_pass hc).1) rfl

theorem fillUnbracketed_leaves {x y w h : Int} {c : Colour} (g : fillUnbracketed x y w h c s = .next t) : Leaves s t :=
  unbracketed_leaves g

theorem fillBracketed_leaves {x y w h : Int} {c : Colour} (g : fillBracketed x y w h c s = .next t) : Leaves s t :=
  bracketed_leaves g

theorem execStartWrite_leaves (h : execStartWrite s = .next t) : Leaves s t := by
  rcases guarded_cases h with h | ⟨hc, rfl⟩
  · exact leaves_refused h
  · exact ⟨_, _, _, .start (readyCheck_pass hc).1, rfl⟩

theorem execEndWrite_leaves (h : execEndWrite s = .next t) : Leaves s t := by
  rcases guarded_cases h with h | ⟨hc, rfl⟩
  · exact leaves_refused h
  · obtain ⟨hr, hc⟩ := readyCheck_pass hc
    exact ⟨_, _, _, .finish hr (bracketCheck_pass hc).1, rfl⟩

theorem execReadReg_leaves {cmd index : Byte} (h : execReadReg cmd index s = .next t) : Leaves s t := by
  rcases guarded_cases h with h | ⟨hc, rfl⟩
  · exact leaves_refused h
  · have hb : Reaches s (endWrite (readRegister cmd index (startWrite s)).2) := by
      rw [readRegister_snd]
      exact .bracket _ (readyCheck_pass hc).1
    rcases hx : readRegister cmd index (startWrite s) with ⟨e | v, u⟩ <;> rw [hx] at hb
    · exact ⟨_, e, 0, hb, rfl⟩
    · exact ⟨_, .ok, ofByte v, hb, rfl⟩

end

/-- What every operation of the host but `BEGIN`, `END` and `SETROT` can do, whatever the environment answers. -/
theorem exec_leaves {i : Instr} {s t : State} (hp : i.opcode.port = .host) (h : exec i s = .next t) (hb : i ≠ .beginOp)
    (he : i ≠ .endOp) (hr : ∀ r, i ≠ .setRot r) : Leaves s t := by
  unfold exec at h
  cases i with
  | beginOp => exact absurd rfl hb
  | endOp => exact absurd rfl he
  | setRot r => exact absurd rfl (hr r)
  | startWrite => exact execStartWrite_leaves h
  | endWrite => exact execEndWrite_leaves h
  | readReg => exact execReadReg_leaves h
  | color565 => injection h with h; exact ⟨s, _, _, .stay, h.symm⟩
  | wrCmd | setWin | wrPix | wrPixs | wrColor | wPixel | wBitmap => exact unbracketed_leaves h
  | wFillRect | wHLine | wVLine => exact fillUnbracketed_leaves h
  | drawPixel | drawBitmap | invert | scrollTo => exact bracketed_leaves h
  | fillRect | drawHLine | drawVLine => exact fillBracketed_leaves h
  | tOpen | tXfer | tBlock | tClose => cases hp

/-! The surface registers (R22 to R24). -/

/-- The surface registers, with the lifecycle and the configuration they follow, are as before. -/
structure SameSurface (s t : State) : Prop where
  lifecycle : t.lifecycle = s.lifecycle
  cfg : t.cfg = s.cfg
  width : t.width = s.width
  height : t.height = s.height
  rotation : t.rotation = s.rotation

theorem SameSurface.refl (s : State) : SameSurface s s := by constructor <;> rfl

theorem SameSurface.trans {s t u : State} (h : SameSurface s t) (g : SameSurface t u) : SameSurface s u where
  lifecycle := g.lifecycle.trans h.lifecycle
  cfg := g.cfg.trans h.cfg
  width := g.width.trans h.width
  height := g.height.trans h.height
  rotation := g.rotation.trans h.rotation

theorem OnWire.sameSurface {s t : State} (h : OnWire s t) : SameSurface s t :=
  ⟨h.lifecycle, h.cfg, h.width, h.height, h.rotation⟩

theorem startWrite_sameSurface (s : State) : SameSurface s (startWrite s) := by constructor <;> simp

theorem endWrite_sameSurface (s : State) : SameSurface s (endWrite s) := by constructor <;> simp

theorem bracketed_sameSurface (is : List WireItem) (s : State) : SameSurface s (bracketed (runItems is) s).2 :=
  ((startWrite_sameSurface s).trans (runItems_onWire is _).sameSurface).trans (endWrite_sameSurface _)

theorem Reaches.sameSurface {s u : State} (h : Reaches s u) : SameSurface s u := by
  cases h with
  | stay => exact .refl s
  | walk is => exact (runItems_onWire is s).sameSurface
  | bracket is => exact bracketed_sameSurface is s
  | start => exact startWrite_sameSurface s
  | finish => exact endWrite_sameSurface s

theorem surfaceOk_of_sameSurface {s t : State} (h : SurfaceOk s) (g : SameSurface s t) : SurfaceOk t := by
  simpa only [SurfaceOk, g.lifecycle, g.cfg, g.width, g.height, g.rotation] using h

theorem State.complete_sameSurface (s : State) (st : Status) (v : Half) : SameSurface s (s.complete st v) := by
  constructor <;> rfl

theorem Leaves.sameSurface {s t : State} (h : Leaves s t) : SameSurface s t := by
  obtain ⟨u, st, v, hu, rfl⟩ := h
  exact hu.sameSurface.trans (u.complete_sameSurface st v)

/-! Opening and closing the session (40_transport.md R111, R115). -/

/-- Everything an open can do. -/
theorem openSession_cases (s : State) :
    (s.session = .opened ∧ openSession s = (some .notReady, s)) ∨
    (s.session ≠ .opened ∧ (drawOpen s).1 = false ∧ openSession s = (some .deviceUnavailable, (drawOpen s).2)) ∨
    (s.session ≠ .opened ∧ (drawOpen s).1 = true ∧ openSession s =
      (none, ((drawOpen s).2.setSession .opened).emit (.sessionOpen (drawOpen s).2.cfg.sessionConf))) := by
  unfold openSession
  by_cases h : s.session = .opened
  · exact .inl ⟨h, by simp [h]⟩
  · rcases hd : drawOpen s with ⟨_ | _, t⟩
    · exact .inr (.inl ⟨h, rfl, by simp [h]⟩)
    · exact .inr (.inr ⟨h, rfl, by simp [h]⟩)

/-- Everything a close can do. -/
theorem closeSession_cases (s : State) :
    (s.session = .opened ∧ closeSession s = (none, (s.setSession .released).emit .sessionClose)) ∨
    (s.session ≠ .opened ∧ closeSession s = (some .notReady, s)) := by
  unfold closeSession
  by_cases h : s.session = .opened
  · exact .inl ⟨h, if_pos h⟩
  · exact .inr ⟨h, if_neg h⟩

/-- The environment's answer to an open takes an answer from the script or a free value, and nothing else. -/
theorem drawOpen_snd (s : State) : ∃ l n, (drawOpen s).2 = { s with opens := l, draws := n } := by
  unfold drawOpen
  split
  · exact ⟨_, _, rfl⟩
  · exact ⟨_, _, rfl⟩

theorem openSession_sameSurface (s : State) : SameSurface s (openSession s).2 := by
  obtain ⟨l, n, hd⟩ := drawOpen_snd s
  rcases openSession_cases s with ⟨_, h⟩ | ⟨_, _, h⟩ | ⟨_, _, h⟩ <;> rw [h]
  · exact .refl s
  · rw [hd]; constructor <;> rfl
  · rw [hd]; constructor <;> rfl

theorem closeSession_sameSurface (s : State) : SameSurface s (closeSession s).2 := by
  rcases closeSession_cases s with ⟨_, h⟩ | ⟨_, h⟩ <;> rw [h]
  · constructor <;> rfl
  · exact .refl s

theorem conclude_sameSurface {s : State} {r : Option Status × State} (v : Half) (h : SameSurface s r.2) :
    SameSurface s (conclude r v) := by
  obtain ⟨st, w, he⟩ := conclude_eq r v
  rw [he]
  exact h.trans (r.2.complete_sameSurface st w)

/-- What an `END` can do (41_lifecycle.md R131): it is refused, or the session is closed and the lifecycle with it. -/
theorem execEnd_cases {s t : State} (h : execEnd s = .next t) :
    (∃ e, t = s.raise e) ∨
    (s.lifecycle = .ready ∧ s.depth = 0 ∧
      ((s.session = .opened ∧ t = (((s.setSession .released).emit .sessionClose).setLifecycle .closed).complete .ok 0) ∨
       (s.session ≠ .opened ∧ t = s.raise .notReady))) := by
  rcases guarded_cases h with h | ⟨hc, rfl⟩
  · exact .inl h
  · obtain ⟨hr, hc⟩ := readyCheck_pass hc
    have hd : s.depth = 0 := by simpa using (firstFailing_cons_none.mp hc).1
    refine .inr ⟨hr, hd, ?_⟩
    rcases closeSession_cases s with ⟨hs, h⟩ | ⟨hs, h⟩
    · exact .inl ⟨hs, by rw [h]⟩
    · exact .inr ⟨hs, by rw [h]⟩

theorem execEnd_keeps_surface {s t : State} (h : execEnd s = .next t) :
    t.width = s.width ∧ t.height = s.height ∧ t.rotation = s.rotation := by
  rcases execEnd_cases h with ⟨e, rfl⟩ | ⟨_, _, ⟨_, rfl⟩ | ⟨_, rfl⟩⟩ <;> exact ⟨rfl, rfl, rfl⟩

theorem execTXfer_sameSurface {out : Byte} {s t : State} (h : execTXfer out s = .next t) : SameSurface s t := by
  injection h with h
  have hw := (xferByte_onWire out s).sameSurface
  rcases hx : xferByte out s with ⟨e | r, u⟩ <;> rw [hx] at h hw <;> subst h
  · exact hw.trans (u.complete_sameSurface e 0)
  · exact hw.trans (u.complete_sameSurface .ok (ofByte r))

/-- No operation of the transport's port writes a surface register. -/
theorem transport_sameSurface {i : Instr} {s t : State} (hp : i.opcode.port = .transport) (h : exec i s = .next t) :
    SameSurface s t := by
  unfold exec at h
  cases i with
  | tOpen => injection h with h; exact h ▸ conclude_sameSurface 0 (openSession_sameSurface s)
  | tClose => injection h with h; exact h ▸ conclude_sameSurface 0 (closeSession_sameSurface s)
  | tXfer out => exact execTXfer_sameSurface h
  | tBlock out =>
    rcases guarded_cases h with ⟨e, rfl⟩ | ⟨_, rfl⟩
    · exact s.complete_sameSurface e 0
    · exact conclude_sameSurface 0 (runItems_onWire _ s).sameSurface
  | _ => cases hp

/-- Settles O48: an operation of the host other than `BEGIN`, `END` and `SETROT` only walks and brackets, `END` only closes
the session, and an operation of the transport only opens, closes or exchanges bytes. -/
theorem onlyBeginAndSetrotWriteTheSurface : Obligations.OnlyBeginAndSetrotWriteTheSurface := by
  intro i s t h hb hr
  by_cases he : i = .endOp
  · subst he
    exact execEnd_keeps_surface h
  · have hs : SameSurface s t := by
      rcases hp : i.opcode.port with _ | _
      · exact (exec_leaves hp h hb he hr).sameSurface
      · exact transport_sameSurface hp h
    exact ⟨hs.width, hs.height, hs.rotation⟩

/-! A step (R25). -/

/-- Settles O6: `step` looks at the oldest request alone. -/
theorem stepRunsTheDecodedOperation : Obligations.StepRunsTheDecodedOperation := by
  refine ⟨fun s r rest i hq hd => ?_, fun s hq => ?_⟩
  · simp only [step, fetchRequest, hq, hd]
    rfl
  · simp only [step, fetchRequest, hq]

/-! The state after reset (R36). -/

/-- The configuration the state after reset holds is legal (00_scope.md R7), whichever it is. -/
theorem chip_wf : Config.chip.wf = true := by
  unfold Config.chip
  split
  · assumption
  · decide

/-- Settles O44: nothing is in force at reset, so every clause but the configuration's holds for want of a premise. -/
theorem resetMeetsTheInvariant : Obligations.ResetMeetsTheInvariant where
  cfg := chip_wf
  surface := by simp [SurfaceOk, State.reset]
  session := by simp [SessionOk, State.reset]
  lines := by simp [LinesOk, State.reset]
  bracket := by simp [BracketOk, State.reset]
  memories := reset_memories
  panel := by simp [PanelOk, State.reset]
  requests := by simp [HostOnly, State.reset]

/-- Settles O45: each register as `State.reset` writes it. -/
theorem resetLeavesTheStatedValues : Obligations.ResetLeavesTheStatedValues :=
  ⟨rfl, rfl, rfl, rfl, rfl, rfl, rfl, rfl⟩

/-! The surface of a ready state has a pixel (R23, 44_ancillary.md R225). -/

theorem widthOf_pos {c : Cfg} (h : c.wf = true) (m : Byte) : 1 ≤ (widthOf c m).toNat := by
  simp only [Cfg.wf, Bool.and_eq_true, decide_eq_true_eq] at h
  obtain ⟨⟨⟨⟨⟨hw, hh⟩, _⟩, _⟩, _⟩, _⟩ := h
  unfold widthOf
  split <;> assumption

theorem heightOf_pos {c : Cfg} (h : c.wf = true) (m : Byte) : 1 ≤ (heightOf c m).toNat := by
  simp only [Cfg.wf, Bool.and_eq_true, decide_eq_true_eq] at h
  obtain ⟨⟨⟨⟨⟨hw, hh⟩, _⟩, _⟩, _⟩, _⟩ := h
  unfold heightOf
  split <;> assumption

/-- Settles O46: a legal configuration has no empty surface in any rotation. -/
theorem readyStatesMeetThePremise : Obligations.ReadyStatesMeetThePremise := by
  intro s h hr
  obtain ⟨_, hw, hh⟩ := h.surface hr
  refine ⟨⟨hr, h.session.1.mpr hr⟩, h.lines, ?_, ?_⟩
  · rw [hw]; exact widthOf_pos h.cfg _
  · rw [hh]; exact heightOf_pos h.cfg _

/-! The part of the invariant that holds whenever the session is open, during `BEGIN` too. -/

/-- The session is open, and the lines, the stream bit, the panel and the memories are as the invariant says. -/
structure Linked (s : State) : Prop where
  cfg : s.cfg.wf = true
  session : s.session = .opened
  lines : LinesOk s
  stream : s.wmode = true → 1 ≤ s.depth
  memories : MemoriesOk s
  panel : PanelOk s
  requests : HostOnly s

theorem linesOk_iff {s : State} (h : s.session ≠ .none) :
    LinesOk s ↔ s.resetLine = .driven .high ∧ s.dcLine = .driven .high ∧
      s.csLine = (if s.depth = 0 then .driven .high else .driven .low) := by
  rw [LinesOk, if_neg h]

theorem Inv.linked {s : State} (h : Inv s) (hr : s.lifecycle = .ready) : Linked s where
  cfg := h.cfg
  session := h.session.1.mpr hr
  lines := h.lines
  stream := h.bracket.1
  memories := h.memories
  panel := h.panel
  requests := h.requests

theorem Linked.inv {s : State} (h : Linked s) (hr : s.lifecycle = .ready) (hs : SurfaceOk s) : Inv s where
  cfg := h.cfg
  surface := hs
  session := by simp [SessionOk, h.session, hr]
  lines := h.lines
  bracket := ⟨h.stream, fun hn => absurd hr hn⟩
  memories := h.memories
  panel := h.panel
  requests := h.requests

theorem Linked.levels {s : State} (h : Linked s) :
    s.resetLine = .driven .high ∧ s.dcLine = .driven .high ∧
      s.csLine = (if s.depth = 0 then .driven .high else .driven .low) :=
  (linesOk_iff (by simp [h.session])).mp h.lines

/-- What holds inside a bracket before a command byte: no more is asked of the panel than `Selected` says. -/
structure Within (s : State) : Prop extends Selected s where
  reset : s.resetLine = .driven .high
  depth : 1 ≤ s.depth
  src : s.src.wf = true
  requests : HostOnly s

/-- Inside a bracket the surface registers may be written: the panel looks at them only when the next command comes. -/
theorem Within.setSurface {s : State} (h : Within s) (m : Byte) : Within (s.setSurface m) :=
  ⟨⟨h.cfg, h.session, h.dc, h.cs, h.wf, h.half, h.acc⟩, h.reset, h.depth, h.src, h.requests⟩

theorem Within.onWire {s t : State} (h : Within s) (hw : OnWire s t) (ht : Selected t) : Within t where
  toSelected := ht
  reset := hw.resetLine.trans h.reset
  depth := hw.depth ▸ h.depth
  src := by rw [hw.src]; exact h.src
  requests := by simpa only [HostOnly, hw.requests] using h.requests

/-- Inside a bracket the wire's own invariant is the only thing left to ask for. -/
theorem Within.linked {s : State} (h : Within s) (hs : Wired s) : Linked s where
  cfg := h.cfg
  session := h.session
  lines := by
    have hd : s.depth ≠ 0 := Nat.one_le_iff_ne_zero.mp h.depth
    exact (linesOk_iff (by simp [h.session])).mpr ⟨h.reset, h.dc, by rw [h.cs, if_neg hd]⟩
  stream := fun _ => h.depth
  memories := ⟨h.wf, h.src⟩
  panel := ⟨h.half, h.acc, hs.stream, fun h0 => absurd h.depth (by simp [h0]), hs.wmode⟩
  requests := h.requests

theorem Linked.wired {s : State} (h : Linked s) (hd : 1 ≤ s.depth) : Wired s := by
  obtain ⟨_, hdc, hcs⟩ := h.levels
  obtain ⟨hhalf, hacc, hstream, _, hwmode⟩ := h.panel
  rw [if_neg (Nat.one_le_iff_ne_zero.mp hd)] at hcs
  exact ⟨⟨h.cfg, h.session, hdc, hcs, h.memories.1, hhalf, hacc⟩, hstream, hwmode⟩

theorem Linked.within {s : State} (h : Linked s) (hd : 1 ≤ s.depth) : Within s where
  toSelected := (h.wired hd).toSelected
  reset := h.levels.1
  depth := hd
  src := h.memories.2
  requests := h.requests

theorem Linked.runItems {s : State} (h : Linked s) (hd : 1 ≤ s.depth) (is : List WireItem) :
    Linked (Machine.runItems is s).2 := by
  have ht := runItems_wired is (h.wired hd)
  exact ((h.within hd).onWire (runItems_onWire is s) ht.toSelected).linked ht

/-- Opening a bracket: the panel does not move when `CS` goes low (20_memory.md R67). -/
theorem Linked.startWrite_wired {s : State} (h : Linked s) : Wired (Machine.startWrite s) := by
  obtain ⟨_, hdc, hcs⟩ := h.levels
  obtain ⟨hhalf, hacc, hstream, _, hwmode⟩ := h.panel
  have hcs' : (Machine.startWrite s).csLine = .driven .low := by
    by_cases h0 : s.depth = 0 <;> simp [h0, hcs]
  exact
    { cfg := by simpa using h.cfg
      session := by simpa using h.session
      dc := by simpa using hdc
      cs := hcs'
      wf := by simpa using h.memories.1
      half := by simpa using hhalf
      acc := by simpa using hacc
      stream := by simpa using hstream
      wmode := by simpa using hwmode }

theorem Linked.startWrite_within {s : State} (h : Linked s) : Within (Machine.startWrite s) where
  toSelected := h.startWrite_wired.toSelected
  reset := by simpa using h.levels.1
  depth := by simp
  src := by simpa using h.memories.2
  requests := by simpa [HostOnly] using h.requests

theorem Linked.startWrite {s : State} (h : Linked s) : Linked (Machine.startWrite s) :=
  h.startWrite_within.linked h.startWrite_wired

/-- What the end of a frame leaves of the panel (20_memory.md R67). -/
theorem onDeselect_cases (fr : Nat) (p : Panel) :
    (p.mode = .unknown ∧ p.onDeselect fr = p) ∨ p.onDeselect fr = .lost fr ∨
    (p.half = none ∧ p.onDeselect fr = { p with mode := .idle }) := by
  unfold Panel.onDeselect
  by_cases h0 : p.mode = .unknown
  · exact .inl ⟨h0, if_pos h0⟩
  rw [if_neg h0]
  by_cases h1 : p.cutShort = true
  · exact .inr (.inl (if_pos h1))
  · exact .inr (.inr ⟨cutShort_half (by simpa using h1), if_neg h1⟩)

/-- The panel after the end of a frame holds no half pixel and takes nothing. -/
theorem onDeselect_rests {p : Panel} (hwf : p.fb.wf = true) (hh : p.half.isSome = true → p.mode = .write) (fr : Nat) :
    (p.onDeselect fr).fb.wf = true ∧ (p.onDeselect fr).half = none ∧
      ((p.onDeselect fr).mode = .idle ∨ (p.onDeselect fr).mode = .unknown) := by
  rcases onDeselect_cases fr p with ⟨hm, he⟩ | he | ⟨hn, he⟩ <;> rw [he]
  · exact ⟨hwf, by simpa [hm] using hh, .inr hm⟩
  · exact ⟨rfl, rfl, .inr rfl⟩
  · exact ⟨hwf, hn, .inl rfl⟩

/-- A panel that holds no half pixel and takes nothing follows a block with no stream in force. -/
theorem panelOk_of_rest {s : State} (hh : s.panel.half = none) (hm : s.panel.mode = .idle ∨ s.panel.mode = .unknown)
    (hw : s.wmode = false) : PanelOk s := by
  refine ⟨by simp [hh], fun k hk => ?_, fun hk => ?_, fun _ => hm, by simp [hw]⟩
  · rcases hm with hm | hm <;> simp [hm] at hk
  · rcases hm with hm | hm <;> simp [hm] at hk

/-- Closing a bracket inside another one changes the depth and nothing else. -/
theorem Linked.endWrite_inner {s : State} (h : Linked s) (hd : 1 ≤ s.depth - 1) : Linked (Machine.endWrite s) := by
  have hd' : 1 ≤ s.depth := Nat.le_trans hd (Nat.sub_le _ _)
  have hs := h.wired hd'
  have hi := h.within hd'
  have he : Machine.endWrite s = s.setDepth (s.depth - 1) := if_neg (Nat.one_le_iff_ne_zero.mp hd)
  have hs' : Wired (s.setDepth (s.depth - 1)) :=
    ⟨⟨hs.cfg, hs.session, hs.dc, hs.cs, hs.wf, hs.half, hs.acc⟩, hs.stream, hs.wmode⟩
  rw [he]
  exact Within.linked ⟨hs'.toSelected, hi.reset, hd, hi.src, hi.requests⟩ hs'

/-- Closing the outermost bracket ends the frame at the panel. -/
theorem Linked.endWrite_outermost {s : State} (h : Linked s) (h0 : s.depth - 1 = 0) : Linked (Machine.endWrite s) := by
  obtain ⟨hreset, hdc, _⟩ := h.levels
  obtain ⟨hwf, hn, hm⟩ := onDeselect_rests h.memories.1 h.panel.1 s.draws
  exact
    { cfg := by simpa using h.cfg
      session := by simpa using h.session
      lines := (linesOk_iff (by simp [h.session])).mpr ⟨by simpa using hreset, by simpa using hdc, by simp [h0]⟩
      stream := by simp [h0]
      memories := by simpa [MemoriesOk, h0] using ⟨hwf, h.memories.2⟩
      panel := panelOk_of_rest (by simpa [h0] using hn) (by simpa [h0] using hm) (by simp [h0])
      requests := by simpa [HostOnly] using h.requests }

theorem Linked.endWrite {s : State} (h : Linked s) : Linked (Machine.endWrite s) := by
  rcases Nat.eq_zero_or_pos (s.depth - 1) with h0 | hd
  · exact h.endWrite_outermost h0
  · exact h.endWrite_inner hd

theorem Linked.bracketed {s : State} (h : Linked s) (is : List WireItem) :
    Linked (Machine.bracketed (Machine.runItems is) s).2 :=
  (h.startWrite.runItems h.startWrite_within.depth is).endWrite

theorem bracketed_depth (is : List WireItem) (s : State) : (bracketed (runItems is) s).2.depth = s.depth := by
  rw [bracketed_snd, endWrite_depth, (runItems_onWire is _).depth, startWrite_depth, Nat.add_sub_cancel]

/-! The invariant through an operation. -/

/-- The invariant looks neither at the result nor at the mark. -/
theorem Inv.complete {s : State} (h : Inv s) (st : Status) (v : Half) : Inv (s.complete st v) :=
  ⟨h.cfg, h.surface, h.session, h.lines, h.bracket, h.memories, h.panel, h.requests⟩

theorem Inv.setRequests {s : State} (h : Inv s) {l : List Request} (hl : ∀ r ∈ l, r.port = .host) : Inv (s.setRequests l) :=
  ⟨h.cfg, h.surface, h.session, h.lines, h.bracket, h.memories, h.panel, hl⟩

theorem Reaches.linked {s u : State} (h : Inv s) (g : Reaches s u) (hr : s.lifecycle = .ready) : Linked u := by
  have hl := h.linked hr
  cases g with
  | stay => exact hl
  | walk is _ hd => exact hl.runItems hd is
  | bracket is => exact hl.bracketed is
  | start => exact hl.startWrite
  | finish => exact hl.endWrite

/-- Only a ready block does anything. -/
theorem Reaches.ready_or_stay {s u : State} (g : Reaches s u) : s.lifecycle = .ready ∨ u = s := by
  cases g with
  | stay => exact .inr rfl
  | walk _ hr => exact .inl hr
  | bracket _ hr => exact .inl hr
  | start hr => exact .inl hr
  | finish hr => exact .inl hr

theorem Leaves.inv {s t : State} (h : Inv s) (g : Leaves s t) : Inv t := by
  obtain ⟨u, st, v, hu, rfl⟩ := g
  refine Inv.complete ?_ st v
  rcases hu.ready_or_stay with hr | rfl
  · exact (hu.linked h hr).inv (hu.sameSurface.lifecycle.trans hr) (surfaceOk_of_sameSurface h.surface hu.sameSurface)
  · exact h

/-- With no bracket open the session can be closed, and the block is then in another lifecycle state than `Ready`. -/
theorem Linked.released {s : State} (h : Linked s) (hd : s.depth = 0) {l : Lifecycle} (hl : l ≠ .ready) :
    Inv (((s.setSession .released).emit .sessionClose).setLifecycle l) where
  cfg := h.cfg
  surface := fun hr => absurd hr hl
  session := by simp [SessionOk, hl]
  lines := h.levels
  bracket := ⟨h.stream, fun _ => hd⟩
  memories := h.memories
  panel := h.panel
  requests := h.requests

theorem execEnd_inv {s t : State} (h : Inv s) (he : execEnd s = .next t) : Inv t := by
  rcases execEnd_cases he with ⟨e, rfl⟩ | ⟨hr, hd, ⟨_, rfl⟩ | ⟨_, rfl⟩⟩
  · exact h.complete e 0
  · exact ((h.linked hr).released hd (by simp)).complete .ok 0
  · exact h.complete .notReady 0

/-! `SETROT` (44_ancillary.md R220). -/

theorem startWrite_setSurface (s : State) (m : Byte) : startWrite (s.setSurface m) = (startWrite s).setSurface m := by
  unfold startWrite
  rw [State.setSurface_depth]
  split <;> rfl

theorem rotationOf_lt (r : Byte) : (rotationOf r).toNat < 4 := by
  rw [rotationOf, BitVec.toNat_ofNat]
  omega

theorem setSurface_surfaceOk (s : State) (r : Byte) : SurfaceOk (s.setSurface (rotationOf r)) :=
  fun _ => ⟨rotationOf_lt r, rfl, rfl⟩

/-- A bracket that begins with a command byte, after the surface registers were written: the panel may be in a stream whose
window the new surface does not hold, but the command ends that stream. -/
theorem Linked.setSurface_bracketed {s : State} (h : Linked s) (m : Byte) (c : Byte) (is : List WireItem) :
    Linked (Machine.bracketed (Machine.runItems (.command c :: is)) (s.setSurface m)).2 := by
  have hi : Within ((Machine.startWrite s).setSurface m) := h.startWrite_within.setSurface m
  have ht := runItems_wired_command c is hi.toSelected
  rw [bracketed_snd, startWrite_setSurface]
  exact ((hi.onWire (runItems_onWire _ _) ht.toSelected).linked ht).endWrite

/-- What a `SETROT` can do: it is refused, or it writes the surface registers and sends its frame in a bracket. -/
theorem execSetRot_cases {r : Byte} {s t : State} (h : execSetRot r s = .next t) :
    (∃ e, t = s.raise e) ∨
    (s.lifecycle = .ready ∧ ∃ st v, t =
      (bracketed (runItems [.command s.cfg.cmdMadctl, .data (s.cfg.madctlByte (rotationOf r))])
        (s.setSurface (rotationOf r))).2.complete st v) := by
  rcases guarded_cases h with h | ⟨hc, rfl⟩
  · exact .inl h
  · exact .inr ⟨(readyCheck_pass hc).1, conclude_eq _ 0⟩

theorem execSetRot_inv {r : Byte} {s t : State} (h : Inv s) (he : execSetRot r s = .next t) : Inv t := by
  rcases execSetRot_cases he with ⟨e, rfl⟩ | ⟨hr, st, v, rfl⟩
  · exact h.complete e 0
  · have hs := bracketed_sameSurface [.command s.cfg.cmdMadctl, .data (s.cfg.madctlByte (rotationOf r))]
      (s.setSurface (rotationOf r))
    exact (((h.linked hr).setSurface_bracketed _ _ _).inv (hs.lifecycle.trans hr)
      (surfaceOk_of_sameSurface (setSurface_surfaceOk s r) hs)).complete st v

/-! `BEGIN` (41_lifecycle.md R130). -/

/-- What a `BEGIN` can do once its open has succeeded: it records `Ready` after its bracket, or closes the session again. -/
theorem beginOpened_cases (s : State) :
    ∃ t, t = (bracketed (runItems (beginItems s.cfg)) ((resetPulse s).setWmode false)).2 ∧
      (beginOpened s = t.recordReady.complete .ok 1 ∨ ∃ e, beginOpened s = (closeSession t).2.raise e) := by
  refine ⟨_, rfl, ?_⟩
  unfold beginOpened
  rcases bracketed (runItems (beginItems s.cfg)) ((resetPulse s).setWmode false) with ⟨_ | e, t⟩
  · exact .inl rfl
  · exact .inr ⟨e, rfl⟩

section
variable (s : State)

@[simp] theorem resetPulse_lifecycle : (resetPulse s).lifecycle = s.lifecycle := by simp [resetPulse, State.wait]
@[simp] theorem resetPulse_depth : (resetPulse s).depth = s.depth := by simp [resetPulse, State.wait]
@[simp] theorem resetPulse_session : (resetPulse s).session = s.session := by simp [resetPulse, State.wait]
@[simp] theorem resetPulse_cfg : (resetPulse s).cfg = s.cfg := by simp [resetPulse, State.wait]
@[simp] theorem resetPulse_src : (resetPulse s).src = s.src := by simp [resetPulse, State.wait]
@[simp] theorem resetPulse_requests : (resetPulse s).requests = s.requests := by simp [resetPulse, State.wait]
@[simp] theorem resetPulse_resetLine : (resetPulse s).resetLine = .driven .high := by simp [resetPulse, State.wait]
@[simp] theorem resetPulse_dcLine : (resetPulse s).dcLine = .driven .high := by simp [resetPulse, State.wait]
@[simp] theorem resetPulse_csLine : (resetPulse s).csLine = .driven .high := by simp [resetPulse, State.wait]

/-- The low level of the `RESET` line loses the panel (20_memory.md R67). -/
theorem resetPulse_panel : (resetPulse s).panel = .lost (s.draws + 1 + 1 + 1 + 1) := by
  simp only [resetPulse, State.wait, State.emit_panel, State.emit_draws, State.driveReset_panel, State.driveReset_draws,
    State.driveDc_draws, State.driveCs_draws, Panel.onEvent]

end

/-- After the reset pulse the block is linked, whatever the lines and the panel were before. -/
theorem resetPulse_linked {s : State} (hc : s.cfg.wf = true) (hs : s.session = .opened) (hd : s.depth = 0)
    (hm : s.src.wf = true) (hq : HostOnly s) : Linked ((resetPulse s).setWmode false) := by
  have hp := resetPulse_panel s
  exact
    { cfg := by simpa using hc
      session := by simpa using hs
      lines := (linesOk_iff (by simp [hs])).mpr (by simp [hd])
      stream := by simp
      memories := by simpa [MemoriesOk, hp, Panel.lost] using hm
      panel := panelOk_of_rest (by simp [hp, Panel.lost]) (.inr (by simp [hp, Panel.lost])) rfl
      requests := by simpa [HostOnly] using hq }

theorem Linked.recordReady {s : State} (h : Linked s) (hd : s.depth = 0) : Inv s.recordReady where
  cfg := h.cfg
  surface := fun _ => ⟨by simp, rfl, rfl⟩
  session := by simp [SessionOk, h.session]
  lines := h.lines
  bracket := ⟨h.stream, fun hn => absurd rfl hn⟩
  memories := ⟨rfl, h.memories.2⟩
  panel := panelOk_of_rest rfl (.inl rfl) (by simpa [hd] using h.stream)
  requests := h.requests

theorem Linked.closeSession {s : State} (h : Linked s) (hd : s.depth = 0) (hl : s.lifecycle ≠ .ready) :
    Inv (Machine.closeSession s).2 := by
  rcases closeSession_cases s with ⟨_, he⟩ | ⟨hs, _⟩
  · rw [he]
    exact h.released hd hl
  · exact absurd h.session hs

/-- `BEGIN` after its open, in a block that is not ready and has no bracket open. -/
theorem beginOpened_inv {s : State} (hc : s.cfg.wf = true) (hs : s.session = .opened) (hd : s.depth = 0)
    (hm : s.src.wf = true) (hq : HostOnly s) (hl : s.lifecycle ≠ .ready) : Inv (beginOpened s) := by
  obtain ⟨t, ht, h⟩ := beginOpened_cases s
  have hk : Linked t := ht ▸ (resetPulse_linked hc hs hd hm hq).bracketed _
  have hd' : t.depth = 0 := by rw [ht, bracketed_depth]; simpa using hd
  have hl' : t.lifecycle ≠ .ready := by rw [ht, (bracketed_sameSurface _ _).lifecycle]; simpa using hl
  rcases h with h | ⟨e, h⟩ <;> rw [h]
  · exact (hk.recordReady hd').complete .ok 1
  · exact (hk.closeSession hd' hl').complete e 0

/-- What a `BEGIN` can do: it is refused, its open fails, or its open succeeds and it goes on. -/
theorem execBegin_cases {s t : State} (h : execBegin s = .next t) :
    (∃ e, t = s.raise e) ∨
    (s.lifecycle = .uninitialized ∧
      ((s.session = .opened ∧ t = s.raise .notReady) ∨ t = (drawOpen s).2.raise .deviceUnavailable ∨
       t = beginOpened (((drawOpen s).2.setSession .opened).emit (.sessionOpen (drawOpen s).2.cfg.sessionConf)))) := by
  rcases guarded_cases h with h | ⟨hc, rfl⟩
  · exact .inl h
  · refine .inr ⟨by simpa using (firstFailing_cons_none.mp hc).1, ?_⟩
    rcases openSession_cases s with ⟨hs, h⟩ | ⟨_, _, h⟩ | ⟨_, _, h⟩ <;> rw [h]
    · exact .inl ⟨hs, rfl⟩
    · exact .inr (.inl rfl)
    · exact .inr (.inr rfl)

/-- The invariant looks neither at the script of the opens nor at the counter of the draws. -/
theorem Inv.drawOpen {s : State} (h : Inv s) : Inv (Machine.drawOpen s).2 := by
  obtain ⟨l, n, hd⟩ := drawOpen_snd s
  rw [hd]
  exact ⟨h.cfg, h.surface, h.session, h.lines, h.bracket, h.memories, h.panel, h.requests⟩

theorem execBegin_inv {s t : State} (h : Inv s) (he : execBegin s = .next t) : Inv t := by
  have hd := h.drawOpen
  rcases execBegin_cases he with ⟨e, rfl⟩ | ⟨hl, ⟨_, rfl⟩ | rfl | rfl⟩
  · exact h.complete e 0
  · exact h.complete .notReady 0
  · exact hd.complete .deviceUnavailable 0
  · obtain ⟨l, n, hx⟩ := drawOpen_snd s
    have hr : (drawOpen s).2.lifecycle ≠ .ready := by rw [hx]; simp [hl]
    exact beginOpened_inv hd.cfg rfl (hd.bracket.2 hr) hd.memories.2 hd.requests hr

/-! A step. -/

theorem exec_inv {i : Instr} {s t : State} (hp : i.opcode.port = .host) (h : Inv s) (he : exec i s = .next t) : Inv t := by
  by_cases hb : i = .beginOp
  · subst hb; exact execBegin_inv h he
  by_cases hn : i = .endOp
  · subst hn; exact execEnd_inv h he
  by_cases hr : ∃ r, i = .setRot r
  · obtain ⟨r, rfl⟩ := hr; exact execSetRot_inv h he
  · exact (exec_leaves hp he hb hn fun r hi => hr ⟨r, hi⟩).inv h

/-- Settles O47, by the cases of a step: nothing, the refusal of a descriptor, or an operation, which the host's port makes
one of the host; and that keeps the invariant by what it can do (`exec_leaves`) or, for the three operations that write a
register the invariant speaks of, by its own lemma. -/
theorem everyStepKeepsTheInvariant : Obligations.EveryStepKeepsTheInvariant := by
  intro s t h hs
  rcases step_cases hs with ⟨_, rfl⟩ | ⟨r, rest, i, hq, hd, he⟩ | ⟨r, rest, e, hq, _, rfl⟩
  · exact h
  · have hreq := h.requests
    rw [HostOnly, hq] at hreq
    exact exec_inv ((decode_port hd).trans (hreq r (by simp))) (h.setRequests fun q hm => hreq q (by simp [hm])) he
  · have hreq := h.requests
    rw [HostOnly, hq] at hreq
    exact (h.setRequests fun q hm => hreq q (by simp [hm])).complete .illegalOp 0

end Sys2Proof.Machine

/-! PROOFS. The memory family (spec 20_memory.md): the sparse memories, the bits of an exchange, the trace that only grows,
and the panel: what a walk that meets no failed exchange makes of it, for command bytes, windows and pixel streams. -/

namespace Sys2Proof.Machine

/-! The memories and the bits of an exchange (R53, R57, R62). -/

/-- Settles O59: the laws of the sparse memories, each proved with the memory's own lemmas. -/
theorem sparseMemoryReadsWhatWasWritten : Obligations.SparseMemoryReadsWhatWasWritten :=
  ⟨fun _ a b c h => ⟨Memory.read_write h a b c, Memory.write_wf h a c⟩, fun _ _ hm hn h => Memory.ext_read hm hn h,
    fun _ _ _ _ h => fbIndex_inj h⟩

@[simp] theorem wireBits_length (out inp : Byte) : (wireBits out inp).length = 8 := by
  simp [wireBits, Config.wordBits]

theorem wireBits_getElem? (out inp : Byte) {k : Nat} (hk : k < 8) :
    (wireBits out inp)[k]? = some (out.getLsbD (7 - k), inp.getLsbD (7 - k)) := by
  rw [wireBits, List.getElem?_map, List.getElem?_range (show k < Config.wordBits from hk)]
  rfl

/-- Settles O39: period `k` is entry `k` of the list of the bit pairs. -/
theorem exchangeBitsGoMostSignificantFirst : Obligations.ExchangeBitsGoMostSignificantFirst :=
  fun out inp => ⟨wireBits_length out inp, fun _ hk => wireBits_getElem? out inp hk⟩

/-! What no operation undoes or writes (R50, R51, R57). -/

/-- The trace has grown, and what R21 calls parameters, with the operations left to be taken, is as before. -/
structure Grows (s t : State) : Prop where
  trace : s.trace <+: t.trace
  cfg : t.cfg = s.cfg
  src : t.src = s.src
  requests : t.requests = s.requests

theorem Grows.trans {s t u : State} (h : Grows s t) (g : Grows t u) : Grows s u where
  trace := h.trace.trans g.trace
  cfg := g.cfg.trans h.cfg
  src := g.src.trans h.src
  requests := g.requests.trans h.requests

/-- The same, and the `RESET` latch is as before (10_state.md R28). -/
structure GrowsHeld (s t : State) : Prop extends Grows s t where
  reset : t.resetLine = s.resetLine

theorem GrowsHeld.trans {s t u : State} (h : GrowsHeld s t) (g : GrowsHeld t u) : GrowsHeld s u :=
  ⟨h.toGrows.trans g.toGrows, g.reset.trans h.reset⟩

/-- A change that touches neither the trace nor what is kept. -/
theorem GrowsHeld.of_eq {s t : State} (h1 : t.trace = s.trace) (h2 : t.cfg = s.cfg) (h3 : t.src = s.src)
    (h4 : t.requests = s.requests) (h5 : t.resetLine = s.resetLine) : GrowsHeld s t :=
  ⟨⟨⟨[], by rw [h1, List.append_nil]⟩, h2, h3, h4⟩, h5⟩

theorem GrowsHeld.refl (s : State) : GrowsHeld s s := .of_eq rfl rfl rfl rfl rfl

theorem GrowsHeld.of_onWire {s t : State} (h : OnWire s t) (ht : ∃ evs, t.trace = s.trace ++ evs) : GrowsHeld s t := by
  obtain ⟨evs, ht⟩ := ht
  exact ⟨⟨⟨evs, ht.symm⟩, h.cfg, h.src, h.requests⟩, h.resetLine⟩

theorem emit_growsHeld (s : State) (e : Event) : GrowsHeld s (s.emit e) := .of_onWire (emit_onWire s e) ⟨[e], rfl⟩

theorem complete_growsHeld (s : State) (st : Status) (v : Half) : GrowsHeld s (s.complete st v) :=
  .of_eq rfl rfl rfl rfl rfl

theorem setSession_growsHeld (s : State) (v : Session) : GrowsHeld s (s.setSession v) := .of_eq rfl rfl rfl rfl rfl

theorem setLifecycle_growsHeld (s : State) (v : Lifecycle) : GrowsHeld s (s.setLifecycle v) := .of_eq rfl rfl rfl rfl rfl

theorem setSurface_growsHeld (s : State) (m : Byte) : GrowsHeld s (s.setSurface m) := .of_eq rfl rfl rfl rfl rfl

theorem runItems_growsHeld (is : List WireItem) (s : State) : GrowsHeld s (runItems is s).2 :=
  .of_onWire (runItems_onWire is s) (runItems_tame is s).trace

theorem startWrite_growsHeld (s : State) : GrowsHeld s (startWrite s) :=
  ⟨⟨⟨_, (startWrite_trace s).symm⟩, startWrite_cfg s, startWrite_src s, startWrite_requests s⟩, startWrite_resetLine s⟩

theorem endWrite_growsHeld (s : State) : GrowsHeld s (endWrite s) :=
  ⟨⟨⟨_, (endWrite_trace s).symm⟩, endWrite_cfg s, endWrite_src s, endWrite_requests s⟩, endWrite_resetLine s⟩

theorem bracketed_growsHeld (is : List WireItem) (s : State) : GrowsHeld s (bracketed (runItems is) s).2 :=
  ((startWrite_growsHeld s).trans (runItems_growsHeld is _)).trans (endWrite_growsHeld _)

theorem drawOpen_growsHeld (s : State) : GrowsHeld s (drawOpen s).2 := by
  obtain ⟨l, n, hd⟩ := drawOpen_snd s
  rw [hd]
  exact .of_eq rfl rfl rfl rfl rfl

theorem openSession_growsHeld (s : State) : GrowsHeld s (openSession s).2 := by
  rcases openSession_cases s with ⟨_, h⟩ | ⟨_, _, h⟩ | ⟨_, _, h⟩ <;> rw [h]
  · exact .refl s
  · exact drawOpen_growsHeld s
  · exact ((drawOpen_growsHeld s).trans (setSession_growsHeld _ .opened)).trans (emit_growsHeld _ _)

theorem closeSession_growsHeld (s : State) : GrowsHeld s (closeSession s).2 := by
  rcases closeSession_cases s with ⟨_, h⟩ | ⟨_, h⟩ <;> rw [h]
  · exact (setSession_growsHeld s .released).trans (emit_growsHeld _ .sessionClose)
  · exact .refl s

theorem conclude_growsHeld {s : State} {r : Option Status × State} (v : Half) (h : GrowsHeld s r.2) :
    GrowsHeld s (conclude r v) := by
  obtain ⟨st, w, he⟩ := conclude_eq r v
  rw [he]
  exact h.trans (complete_growsHeld r.2 st w)

theorem Reaches.growsHeld {s u : State} (h : Reaches s u) : GrowsHeld s u := by
  cases h with
  | stay => exact .refl s
  | walk is => exact runItems_growsHeld is s
  | bracket is => exact bracketed_growsHeld is s
  | start => exact startWrite_growsHeld s
  | finish => exact endWrite_growsHeld s

theorem Leaves.growsHeld {s t : State} (h : Leaves s t) : GrowsHeld s t := by
  obtain ⟨u, st, v, hu, rfl⟩ := h
  exact hu.growsHeld.trans (complete_growsHeld u st v)

theorem execEnd_growsHeld {s t : State} (h : execEnd s = .next t) : GrowsHeld s t := by
  rcases execEnd_cases h with ⟨e, rfl⟩ | ⟨_, _, ⟨_, rfl⟩ | ⟨_, rfl⟩⟩
  · exact complete_growsHeld s e 0
  · exact (((setSession_growsHeld s .released).trans (emit_growsHeld _ .sessionClose)).trans
      (setLifecycle_growsHeld _ .closed)).trans (complete_growsHeld _ .ok 0)
  · exact complete_growsHeld s .notReady 0

theorem execSetRot_growsHeld {r : Byte} {s t : State} (h : execSetRot r s = .next t) : GrowsHeld s t := by
  rcases execSetRot_cases h with ⟨e, rfl⟩ | ⟨_, st, v, rfl⟩
  · exact complete_growsHeld s e 0
  · exact ((setSurface_growsHeld s (rotationOf r)).trans (bracketed_growsHeld _ _)).trans (complete_growsHeld _ st v)

theorem execTXfer_growsHeld {out : Byte} {s t : State} (h : execTXfer out s = .next t) : GrowsHeld s t := by
  injection h with h
  have hw : GrowsHeld s (xferByte out s).2 := .of_onWire (xferByte_onWire out s) (xferByte_trace out s)
  rcases hx : xferByte out s with ⟨e | r, u⟩ <;> rw [hx] at h hw <;> subst h
  · exact hw.trans (complete_growsHeld u e 0)
  · exact hw.trans (complete_growsHeld u .ok (ofByte r))

theorem transport_growsHeld {i : Instr} {s t : State} (hp : i.opcode.port = .transport) (h : exec i s = .next t) :
    GrowsHeld s t := by
  unfold exec at h
  cases i with
  | tOpen => injection h with h; exact h ▸ conclude_growsHeld 0 (openSession_growsHeld s)
  | tClose => injection h with h; exact h ▸ conclude_growsHeld 0 (closeSession_growsHeld s)
  | tXfer out => exact execTXfer_growsHeld h
  | tBlock out =>
    rcases guarded_cases h with ⟨e, rfl⟩ | ⟨_, rfl⟩
    · exact complete_growsHeld s e 0
    · exact conclude_growsHeld 0 (runItems_growsHeld _ s)
  | _ => cases hp

theorem exec_growsHeld {i : Instr} {s t : State} (hb : i ≠ .beginOp) (h : exec i s = .next t) : GrowsHeld s t := by
  rcases hp : i.opcode.port with _ | _
  · by_cases he : i = .endOp
    · subst he; exact execEnd_growsHeld h
    by_cases hr : ∃ r, i = .setRot r
    · obtain ⟨r, rfl⟩ := hr; exact execSetRot_growsHeld h
    · exact (exec_leaves hp h hb he fun r hi => hr ⟨r, hi⟩).growsHeld
  · exact transport_growsHeld hp h

theorem resetPulse_grows (s : State) : Grows s (resetPulse s) where
  trace := by simp [resetPulse, State.wait]
  cfg := resetPulse_cfg s
  src := resetPulse_src s
  requests := resetPulse_requests s

theorem recordReady_growsHeld (s : State) : GrowsHeld s s.recordReady := .of_eq rfl rfl rfl rfl rfl

theorem beginOpened_grows (s : State) : Grows s (beginOpened s) := by
  obtain ⟨t, ht, h⟩ := beginOpened_cases s
  have hw : GrowsHeld (resetPulse s) ((resetPulse s).setWmode false) := .of_eq rfl rfl rfl rfl rfl
  have hb : Grows s t := ht ▸ (resetPulse_grows s).trans (hw.trans (bracketed_growsHeld _ _)).toGrows
  rcases h with h | ⟨e, h⟩ <;> rw [h]
  · exact hb.trans ((recordReady_growsHeld t).trans (complete_growsHeld _ .ok 1)).toGrows
  · exact hb.trans ((closeSession_growsHeld t).trans (complete_growsHeld _ e 0)).toGrows

theorem execBegin_grows {s t : State} (h : execBegin s = .next t) : Grows s t := by
  have hd := drawOpen_growsHeld s
  rcases execBegin_cases h with ⟨e, rfl⟩ | ⟨_, ⟨_, rfl⟩ | rfl | rfl⟩
  · exact (complete_growsHeld s e 0).toGrows
  · exact (complete_growsHeld s .notReady 0).toGrows
  · exact (hd.trans (complete_growsHeld _ .deviceUnavailable 0)).toGrows
  · exact ((hd.trans (setSession_growsHeld _ .opened)).trans (emit_growsHeld _ _)).toGrows.trans (beginOpened_grows _)

/-- Settles O49: an operation is made of events, walks and brackets, which only add to the trace and write no parameter; the
reset pulse of `BEGIN` is the one part that writes the `RESET` latch. -/
theorem traceGrowsAndParametersStay : Obligations.TraceGrowsAndParametersStay := by
  intro i s t h
  have hg : Grows s t ∧ (i ≠ .beginOp → t.resetLine = s.resetLine) := by
    by_cases hb : i = .beginOp
    · subst hb
      exact ⟨execBegin_grows h, fun hn => absurd rfl hn⟩
    · have hx := exec_growsHeld hb h
      exact ⟨hx.toGrows, fun _ => hx.reset⟩
  obtain ⟨⟨⟨evs, htrace⟩, hcfg, hsrc, hreq⟩, hreset⟩ := hg
  exact ⟨⟨evs, htrace.symm⟩, hcfg, hsrc, hreq, hreset⟩

/-! The panel after a `BEGIN` (R67). -/

theorem onDeselect_unknown {p : Panel} (h : p.mode = .unknown) (n : Nat) : p.onDeselect n = p := if_pos h

/-- The end of a bracket does not bring an unknown panel back. -/
theorem endWrite_unknown {s : State} (h : s.panel.mode = .unknown) : (endWrite s).panel.mode = .unknown := by
  rw [endWrite_panel, onDeselect_unknown h, ite_self, h]

/-- What a bracketed walk with the session open raises, and the panel it then leaves (60_exceptions.md R248). -/
theorem bracketed_raised {is : List WireItem} {s : State} (hs : s.session = .opened) {e : Status}
    (h : (bracketed (runItems is) s).1 = some e) :
    e = .transferFailure ∧ (bracketed (runItems is) s).2.panel.mode = .unknown := by
  obtain ⟨evs, g⟩ := runItems_ran is (s := startWrite s) (by simpa using hs)
  have he : (runItems is (startWrite s)).1 = some e := h
  rcases g.status with ⟨hn, _⟩ | ⟨hf, _, _, hp⟩
  · rw [hn] at he; cases he
  · rw [hf] at he
    exact ⟨(Option.some.inj he).symm, endWrite_unknown hp⟩

theorem closeSession_panel (s : State) : (closeSession s).2.panel = s.panel := by
  rcases closeSession_cases s with ⟨_, h⟩ | ⟨_, h⟩ <;> rw [h]
  rfl

/-- `BEGIN` after its open ends in one of two ways: `OK` and the panel initialised, or a failed transfer and the panel lost. -/
theorem beginOpened_panel {s : State} (hs : s.session = .opened) :
    (∃ n, (beginOpened s).result = some ⟨.ok, 1⟩ ∧ (beginOpened s).panel = .initialised n) ∨
    ((beginOpened s).result = some ⟨.transferFailure, 0⟩ ∧ (beginOpened s).panel.mode = .unknown) := by
  have hr := @bracketed_raised (beginItems s.cfg) ((resetPulse s).setWmode false) (by simpa using hs)
  unfold beginOpened
  rcases hb : bracketed (runItems (beginItems s.cfg)) ((resetPulse s).setWmode false) with ⟨_ | e, t⟩
  · exact .inl ⟨t.draws, rfl, rfl⟩
  · obtain ⟨rfl, hp⟩ := hr (by rw [hb])
    rw [hb] at hp
    exact .inr ⟨rfl, (congrArg Panel.mode (closeSession_panel t)).trans hp⟩

/-- How a `BEGIN` can end: refused, its open failed, or its open succeeded. -/
theorem execBegin_ends {s t : State} (h : execBegin s = .next t) :
    t = s.raise .notReady ∨ t = (drawOpen s).2.raise .deviceUnavailable ∨ ∃ u, u.session = .opened ∧ t = beginOpened u := by
  unfold execBegin freshCheck at h
  by_cases hl : s.lifecycle = .uninitialized
  · rw [guarded_pass (by simp [hl]), guarded_nil] at h
    injection h with h
    subst h
    rcases openSession_cases s with ⟨_, h⟩ | ⟨_, _, h⟩ | ⟨_, _, h⟩ <;> rw [h]
    · exact .inl rfl
    · exact .inr (.inl rfl)
    · exact .inr (.inr ⟨_, rfl, rfl⟩)
  · rw [guarded_fail (by simp [hl]) rfl] at h
    injection h with h
    exact .inl (h.symm.trans (refused_eq s .notReady rfl).symm)

/-- Settles O10: a `BEGIN` that is refused or whose open fails ends with neither status, and one whose open succeeds ends in
the two ways of `beginOpened_panel`. -/
theorem beginLeavesThePanelAsSaid : Obligations.BeginLeavesThePanelAsSaid := by
  intro s t r h hr
  rcases execBegin_ends h with rfl | rfl | ⟨u, hu, rfl⟩
  · obtain rfl := Option.some.inj hr
    exact ⟨nofun, nofun⟩
  · obtain rfl := Option.some.inj hr
    exact ⟨nofun, nofun⟩
  · rcases beginOpened_panel hu with ⟨n, he, hp⟩ | ⟨he, hp⟩ <;> obtain rfl := Option.some.inj (he.symm.trans hr)
    · exact ⟨fun _ => by rw [hp]; exact ⟨rfl, rfl⟩, nofun⟩
    · exact ⟨nofun, fun _ => hp⟩


/-! Walks that meet no failed exchange, and the panel (R63 to R67). -/

theorem answers_le {s : State} {m n : Nat} (h : Answers s n) (hm : m ≤ n) : Answers s m := by
  obtain ⟨k, rfl⟩ := Nat.exists_eq_add_of_le hm
  exact (answers_add h (t := s.setXfers (s.xfers.drop m)) rfl).1

/-- An unbracketed operation of a host that has opened a bracket: its walk and the panel's walk beside it. -/
theorem unbracketed_walks {s t : State} {cs : List (Bool × Status)} {items : State → List WireItem} (hb : Between s)
    (hd : 1 ≤ s.depth) (hc : firstFailing cs = none) (ha : Answers s (walkExchanges (items s)))
    (hw : pixelsOk s.cfg (items s) s.wmode)
    (h : guarded (readyCheck s :: bracketCheck s :: cs) (fun s => conclude (runItems (items s) s) 0) s = .next t) :
    ∃ u, t = u.complete .ok 0 ∧
      Sends s u (walkExchanges (items s)) (walkEvents (items s)) (walkWmode s.cfg (items s) s.wmode) (.driven .high) ∧
      PWalk s.cfg s.width s.height (items s) s.panel u.panel := by
  obtain ⟨u, hu, hs, hp⟩ := items_panel (items s) (wireUp_of_between hb hd) ha hw
  rw [hb.onBus.dcHigh, walkDc_high] at hs
  rw [readyCheck, guarded_pass (by simp [hb.1.1]), bracketCheck, guarded_pass (by simpa using hd)] at h
  simp only [guarded, hc, hu] at h
  injection h with h
  exact ⟨u, h.symm, hs, hp⟩

/-- A bracketed walk at the panel: the walk, and then the end of the frame where the bracket is the outermost. -/
theorem bracketed_panel {is : List WireItem} {s : State} (hb : OnBus s) (ha : Answers s (walkExchanges is))
    (hw : pixelsOk s.cfg is s.wmode) :
    ∃ q n, PWalk s.cfg s.width s.height is s.panel q ∧
      (bracketed (runItems is) s).2.panel = (if s.depth = 0 then q.onDeselect n else q) := by
  obtain ⟨u, hu, hs, hp⟩ := items_panel is (wireUp_startWrite hb) (by simpa [Answers] using ha) (by simpa using hw)
  simp only [startWrite_cfg, startWrite_width, startWrite_height, startWrite_panel] at hp
  refine ⟨u.panel, u.draws, hp, ?_⟩
  rw [bracketed_snd, hu, endWrite_panel, hs.frame.depth, startWrite_depth, Nat.add_sub_cancel]

/-! The panel's walk, taken apart at its first step. -/

section
variable {cfg : Cfg} {W H : Half} {is : List WireItem} {p q : Panel}

theorem pwalk_nil_iff : PWalk cfg W H [] p q ↔ q = p :=
  ⟨fun h => by cases h; rfl, fun h => by rw [h]; exact .nil p⟩

theorem pwalk_command_iff {c : Byte} :
    PWalk cfg W H (.command c :: is) p q ↔ ∃ n, PWalk cfg W H is (p.onCommand cfg W H n c) q := by
  refine ⟨fun h => ?_, fun ⟨n, h⟩ => .cons (.command c n p) h⟩
  rcases h with _ | ⟨h1, h2⟩
  generalize hi : WireItem.command c = i at h1
  cases h1 <;> cases hi
  exact ⟨_, h2⟩

theorem pwalk_data_iff {b : Byte} :
    PWalk cfg W H (.data b :: is) p q ↔ ∃ n, PWalk cfg W H is (p.onData n b) q := by
  refine ⟨fun h => ?_, fun ⟨n, h⟩ => .cons (.data b n p) h⟩
  rcases h with _ | ⟨h1, h2⟩
  generalize hi : WireItem.data b = i at h1
  cases h1 <;> cases hi
  exact ⟨_, h2⟩

end

/-! A command byte at the panel (R63). -/

/-- The panel takes command bytes; `PanelListens` says it of the state's. -/
abbrev Panel.Listens (p : Panel) : Prop := p.mode ≠ .unknown ∧ p.cutShort = false

/-- The panel is unknown, or the next command byte or the end of the frame makes it so. -/
abbrev Panel.Deaf (p : Panel) : Prop := p.mode = .unknown ∨ p.cutShort = true

theorem Panel.listens_of_not_deaf {p : Panel} (h : ¬ p.Deaf) : p.Listens :=
  ⟨fun hm => h (.inl hm), by simpa using fun hc => h (.inr hc)⟩

theorem windowInside_iff {w : Window} {W H : Half} : windowInside w W H = true ↔
    w.xs.toNat ≤ w.xe.toNat ∧ w.xe.toNat < W.toNat ∧ w.ys.toNat ≤ w.ye.toNat ∧ w.ye.toNat < H.toNat := by
  simp [windowInside, and_assoc]

section
variable {cfg : Cfg} {W H : Half} {n : Nat} {c : Byte} {p : Panel}

theorem onCommand_deaf (h : p.Deaf) : (p.onCommand cfg W H n c).mode = .unknown := by
  unfold Panel.onCommand
  by_cases hm : p.mode = .unknown
  · rw [if_pos hm, hm]
  · rw [if_neg hm, if_pos (h.resolve_left hm)]
    rfl

/-- What a command byte is to a panel that listens. -/
theorem onCommand_listens (h : p.Listens) : p.onCommand cfg W H n c =
    if c = cfg.cmdCaset then { p with mode := .col 0, acc := [] }
    else if c = cfg.cmdPaset then { p with mode := .row 0, acc := [] }
    else if c = cfg.cmdRamwr then
      if windowInside p.win W H then { p with mode := .write, cur := ⟨p.win.xs, p.win.ys⟩, half := none } else .lost n
    else if c ∈ cfg.fbPreserving then { p with mode := .other }
    else { p with mode := .other, fb := [], win := Config.freeWindow n } := by
  rw [Panel.onCommand, if_neg h.1, if_neg (by simp [h.2])]

end

/-- Settles O52: the walk of `WRCMD` is one command byte, which the panel takes in the order of the statement. -/
theorem commandByteMovesThePanel : Obligations.CommandByteMovesThePanel := by
  intro s t cmd hb hd ha h
  obtain ⟨u, rfl, -, hp⟩ := unbracketed_walks (cs := []) (items := fun _ => [.command cmd]) hb hd rfl ha trivial h
  obtain ⟨n, hn⟩ := pwalk_command_iff.mp hp
  rw [State.complete_panel, pwalk_nil_iff.mp hn]
  by_cases hdeaf : s.panel.Deaf
  · rw [if_pos hdeaf]
    exact onCommand_deaf hdeaf
  rw [if_neg hdeaf, onCommand_listens (Panel.listens_of_not_deaf hdeaf)]
  simp only [windowInside_iff]
  by_cases hcaset : cmd = s.cfg.cmdCaset
  · simp only [if_pos hcaset]
  simp only [if_neg hcaset]
  by_cases hpaset : cmd = s.cfg.cmdPaset
  · simp only [if_pos hpaset]
  simp only [if_neg hpaset]
  by_cases hramwr : cmd = s.cfg.cmdRamwr
  · simp only [if_pos hramwr]
    split
    · rfl
    · rfl
  simp only [if_neg hramwr]
  by_cases hkept : cmd ∈ s.cfg.fbPreserving
  · simp only [if_pos hkept]
  · rw [if_neg hkept, if_neg hkept]
    exact ⟨rfl, rfl⟩

/-! An addressing window at the panel (R64, R281). -/

section
variable {x w : Half}

theorem ofNat_last (hw : 1 ≤ w.toNat) : BitVec.ofNat 16 (x.toNat + w.toNat - 1) = x + w - 1 := by
  bv_omega

theorem toNat_last (hw : 1 ≤ w.toNat) (hx : x.toNat + w.toNat - 1 ≤ 65535) :
    (x + w - 1).toNat = x.toNat + w.toNat - 1 := by
  bv_omega

end

/-- `SETWIN` at a panel that listens: what it sends, and the panel after it. -/
theorem setWin_walks {s t : State} {x y w h : Half} (hb : Between s) (hd : 1 ≤ s.depth) (hc : s.cfg.wf = true)
    (hl : PanelListens s) (hw : 1 ≤ w.toNat) (hh : 1 ≤ h.toNat) (hx : x.toNat + w.toNat - 1 ≤ 65535)
    (hy : y.toNat + h.toNat - 1 ≤ 65535) (ha : Answers s 11) (he : exec (.setWin x y w h) s = .next t) :
    ∃ u evs, t = u.complete .ok 0 ∧ Sends s u 11 evs true (.driven .high) ∧
      if x.toNat + w.toNat ≤ s.width.toNat ∧ y.toNat + h.toNat ≤ s.height.toNat then
        u.panel.win = ⟨x, x + w - 1, y, y + h - 1⟩ ∧ u.panel.mode = .write ∧ u.panel.cur = ⟨x, y⟩ ∧ u.panel.half = none ∧
          u.panel.fb = s.panel.fb
      else u.panel.mode = .unknown := by
  obtain ⟨u, ht, hs, hp⟩ := unbracketed_walks
    (cs := [windowCheck x.toNat y.toNat w.toNat h.toNat])
    (items := fun s => windowItems s.cfg x.toNat y.toNat w.toNat h.toNat) hb hd
    (by simp [windowCheck, firstFailing, hw, hh, hx, hy]) (by simpa using ha)
    (by simpa using pixelsOk_window s.cfg x.toNat y.toNat w.toNat h.toNat [] s.wmode) he
  rw [walkExchanges_window, walkWmode_window] at hs
  have hpanel := window_panel hc hl.1 hl.2 hp
  simp only [BitVec.ofNat_toNat, BitVec.setWidth_eq, ofNat_last hw, ofNat_last hh, windowInside_iff, toNat_last hw hx,
    toNat_last hh hy] at hpanel
  refine ⟨u, _, ht, hs, ?_⟩
  have hin : (x.toNat ≤ x.toNat + w.toNat - 1 ∧ x.toNat + w.toNat - 1 < s.width.toNat ∧ y.toNat ≤ y.toNat + h.toNat - 1 ∧
      y.toNat + h.toNat - 1 < s.height.toNat) ↔
      x.toNat + w.toNat ≤ s.width.toNat ∧ y.toNat + h.toNat ≤ s.height.toNat := by omega
  simpa only [hin] using hpanel

/-- Settles O53: `window_panel` in the operands of `SETWIN`. -/
theorem setwinMovesThePanel : Obligations.SetwinMovesThePanel := by
  intro s t x y w h hb hd hc hl hw hh hx hy ha he
  obtain ⟨u, _, rfl, -, hp⟩ := setWin_walks hb hd hc hl hw hh hx hy ha he
  exact hp

/-! Command codes that are no window command (R63, 44_ancillary.md R220 to R223). -/

/-- The panel `q` after codes that are no window command, sent to the panel `p`: picture and window stay where the codes
are all of `FB_PRESERVING` (`kept`), and the frame memory is nowhere defined where one is not. -/
structure AfterCodes (kept : Prop) (p q : Panel) : Prop where
  mode : q.mode = .other
  half : q.half = none
  picture : kept → q.win = p.win ∧ q.fb = p.fb
  blank : ¬ kept → q.fb = []

theorem AfterCodes.listens {k : Prop} {p q : Panel} (h : AfterCodes k p q) : q.Listens := by
  simp [Panel.Listens, Panel.cutShort, h.mode, h.half]

theorem AfterCodes.trans {j k : Prop} {p q r : Panel} (h : AfterCodes j p q) (g : AfterCodes k q r) :
    AfterCodes (j ∧ k) p r where
  mode := g.mode
  half := g.half
  picture := fun ⟨hj, hk⟩ => ⟨(g.picture hk).1.trans (h.picture hj).1, (g.picture hk).2.trans (h.picture hj).2⟩
  blank := fun hjk => by
    by_cases hk : k
    · exact (g.picture hk).2.trans (h.blank fun hj => hjk ⟨hj, hk⟩)
    · exact g.blank hk

theorem onCommand_afterCodes {cfg : Cfg} {W H : Half} {n : Nat} {c : Byte} {p : Panel} (h : p.Listens)
    (h1 : c ≠ cfg.cmdCaset) (h2 : c ≠ cfg.cmdPaset) (h3 : c ≠ cfg.cmdRamwr) :
    AfterCodes (c ∈ cfg.fbPreserving) p (p.onCommand cfg W H n c) := by
  have hh := cutShort_half h.2
  rw [onCommand_listens h, if_neg h1, if_neg h2, if_neg h3]
  by_cases hk : c ∈ cfg.fbPreserving
  · rw [if_pos hk]
    exact ⟨rfl, hh, fun _ => ⟨rfl, rfl⟩, fun hn => absurd hk hn⟩
  · rw [if_neg hk]
    exact ⟨rfl, hh, fun hk' => absurd hk' hk, fun _ => rfl⟩

/-- Parameters of such a code mean nothing to the panel (R64). -/
theorem onData_other {n : Nat} {b : Byte} {p : Panel} (h : p.mode = .other) : p.onData n b = p := by
  simp only [Panel.onData, h]

theorem pwalk_bytes_other {cfg : Cfg} {W H : Half} {p q : Panel} (bs : List Byte) (h : p.mode = .other)
    (g : PWalk cfg W H (bs.map .data) p q) : q = p := by
  induction bs with
  | nil => exact pwalk_nil_iff.mp g
  | cons b bs ih =>
    obtain ⟨n, g⟩ := pwalk_data_iff.mp g
    exact ih (onData_other h ▸ g)

theorem onDeselect_listens {n : Nat} {p : Panel} (h : p.Listens) : p.onDeselect n = { p with mode := .idle } := by
  rw [Panel.onDeselect, if_neg h.1, if_neg (by simp [h.2])]

/-- Such a panel listens on after the end of a bracket, idle where it was the outermost. -/
theorem AfterCodes.bracketEnd {k : Prop} [Decidable k] {p q r : Panel} {d n : Nat} (h : AfterCodes k p q)
    (hr : r = if d = 0 then q.onDeselect n else q) :
    r.Listens ∧ r.mode = (if d = 0 then .idle else .other) ∧ (if k then r.win = p.win ∧ r.fb = p.fb else r.fb = []) := by
  have hpicture : if k then q.win = p.win ∧ q.fb = p.fb else q.fb = [] := by
    split
    · exact h.picture ‹_›
    · exact h.blank ‹_›
  by_cases hd : d = 0
  · rw [if_pos hd, onDeselect_listens h.listens] at hr
    rw [hr, if_pos hd]
    exact ⟨by simp [Panel.Listens, Panel.cutShort, h.half], rfl, hpicture⟩
  · rw [if_neg hd] at hr
    rw [hr, if_neg hd]
    exact ⟨h.listens, h.mode, hpicture⟩

@[simp] theorem conclude_panel (r : Option Status × State) (v : Half) : (conclude r v).panel = r.2.panel := by
  obtain ⟨st, w, h⟩ := conclude_eq r v
  rw [h, State.complete_panel]

theorem guarded_ready {s t : State} {body : State → State} (hr : s.lifecycle = .ready)
    (h : guarded [readyCheck s] body s = .next t) : t = body s := by
  rw [readyCheck, guarded_pass (by simp [hr]), guarded_nil] at h
  injection h with h
  exact h.symm

/-- One frame with such a code, in a bracket of the operation's own. -/
theorem frame_keeps_or_blanks {s : State} {cmd : Byte} {bs : List Byte} (hb : OnBus s) (hl : PanelListens s)
    (ha : Answers s (1 + bs.length)) (h1 : cmd ≠ s.cfg.cmdCaset) (h2 : cmd ≠ s.cfg.cmdPaset) (h3 : cmd ≠ s.cfg.cmdRamwr)
    {r : Panel} (hr : r = (bracketed (runItems (.command cmd :: bs.map .data)) s).2.panel) :
    r.Listens ∧ r.mode = (if s.depth = 0 then .idle else .other) ∧
      (if cmd ∈ s.cfg.fbPreserving then r.win = s.panel.win ∧ r.fb = s.panel.fb else r.fb = []) := by
  obtain ⟨q, m, hp, hq⟩ := bracketed_panel (is := .command cmd :: bs.map .data) hb
    (by simpa [WireItem.exchanges] using ha) (pixelsOk_bytes s.cfg bs _)
  obtain ⟨n, hp⟩ := pwalk_command_iff.mp hp
  have hc := onCommand_afterCodes (W := s.width) (H := s.height) (n := n) hl h1 h2 h3
  rw [← pwalk_bytes_other bs hc.mode hp] at hc
  exact hc.bracketEnd (hr.trans hq)

section
variable {s t : State} (hr : s.lifecycle = .ready)
include hr

theorem execSetRot_panel {r : Byte} (h : execSetRot r s = .next t) :
    t.panel = (bracketed (runItems [.command s.cfg.cmdMadctl, .data (s.cfg.madctlByte (rotationOf r))])
      (s.setSurface (rotationOf r))).2.panel := by
  rw [guarded_ready hr h, conclude_panel]

theorem execScrollTo_panel {y : Half} (h : execScrollTo y s = .next t) :
    t.panel = (bracketed (runItems (.command s.cfg.cmdVscrsadd :: halfItems y)) s).2.panel := by
  rw [guarded_ready hr h, conclude_panel]

theorem execInvert_panel {b : Bool} (h : execInvert b s = .next t) :
    t.panel = (bracketed (runItems [.command (if b then s.cfg.cmdInvon else s.cfg.cmdInvoff)]) s).2.panel := by
  rw [guarded_ready hr h, conclude_panel]

end

/-- Settles O54: each of the operations is one frame in a bracket; `SETROT` writes the surface registers first, which no code
but the memory write looks at. -/
theorem ancillaryCommandsKeepOrLoseThePicture : Obligations.AncillaryCommandsKeepOrLoseThePicture := by
  intro s t i cmd hb hl ha hi h1 h2 h3 he
  have hr := hb.1.1
  rcases hi with ⟨r, rfl, rfl⟩ | ⟨y, rfl, rfl⟩ | ⟨rfl, rfl⟩ | ⟨rfl, rfl⟩
  · exact frame_keeps_or_blanks (s := s.setSurface (rotationOf r)) (bs := [_]) hb.onBus hl (answers_le ha (by simp)) h1 h2 h3
      (execSetRot_panel hr he)
  · exact frame_keeps_or_blanks (bs := halfBytes y) hb.onBus hl ha h1 h2 h3 (execScrollTo_panel hr he)
  · exact frame_keeps_or_blanks (bs := []) hb.onBus hl (answers_le ha (by simp)) h1 h2 h3 (execInvert_panel (b := true) hr he)
  · exact frame_keeps_or_blanks (bs := []) hb.onBus hl (answers_le ha (by simp)) h1 h2 h3 (execInvert_panel (b := false) hr he)


/-! A register read at the panel (44_ancillary.md R223). -/

theorem execReadReg_panel {cmd index : Byte} {s t : State} (hr : s.lifecycle = .ready)
    (h : execReadReg cmd index s = .next t) : t.panel = (bracketed (runItems (readItems cmd index)) s).2.panel := by
  rw [guarded_ready hr h, bracketed_snd, ← readRegister_snd]
  rcases readRegister cmd index (startWrite s) with ⟨e | v, u⟩ <;> rfl

/-- The four exchanges at the panel: a command byte, its parameter, a second command byte, the dummy byte. -/
theorem pwalk_readItems {cfg : Cfg} {W H : Half} {cmd index : Byte} {p q : Panel}
    (h : PWalk cfg W H (readItems cmd index) p q) :
    ∃ n₁ n₂ n₃ n₄ b, q = (((p.onCommand cfg W H n₁ 0xD9).onData n₂ b).onCommand cfg W H n₃ cmd).onData n₄ 0x00 := by
  obtain ⟨n₁, h⟩ := pwalk_command_iff.mp h
  obtain ⟨n₂, h⟩ := pwalk_data_iff.mp h
  obtain ⟨n₃, h⟩ := pwalk_command_iff.mp h
  obtain ⟨n₄, h⟩ := pwalk_data_iff.mp h
  exact ⟨n₁, n₂, n₃, n₄, _, pwalk_nil_iff.mp h⟩

/-- The panel after `READREG`: the four exchanges, and the end of the frame where the bracket is the outermost. -/
theorem readReg_walks {cmd index : Byte} {s t : State} (hb : Between s) (ha : Answers s 4)
    (h : exec (.readReg cmd index) s = .next t) :
    ∃ n₁ n₂ n₃ n₄ n b q, q = (((s.panel.onCommand s.cfg s.width s.height n₁ 0xD9).onData n₂ b).onCommand
        s.cfg s.width s.height n₃ cmd).onData n₄ 0x00 ∧
      t.panel = (if s.depth = 0 then q.onDeselect n else q) := by
  obtain ⟨q, n, hp, hq⟩ := bracketed_panel (is := readItems cmd index) hb.onBus
    (by simpa [readItems, WireItem.exchanges] using ha) trivial
  obtain ⟨n₁, n₂, n₃, n₄, b, rfl⟩ := pwalk_readItems hp
  exact ⟨n₁, n₂, n₃, n₄, n, b, _, rfl, (execReadReg_panel hb.1.1 h).trans hq⟩

/-- The codes of the three window commands. -/
abbrev windowCodes (cfg : Cfg) : List Byte := [cfg.cmdCaset, cfg.cmdPaset, cfg.cmdRamwr]

theorem not_mem_windowCodes {cfg : Cfg} {c : Byte} :
    c ∉ windowCodes cfg ↔ c ≠ cfg.cmdCaset ∧ c ≠ cfg.cmdPaset ∧ c ≠ cfg.cmdRamwr := by simp

section
variable {p : Panel} {n : Nat}

theorem onData_unknown {b : Byte} (h : p.mode = .unknown) : p.onData n b = p := by
  simp only [Panel.onData, h]

theorem onDeselect_deaf (h : p.Deaf) : (p.onDeselect n).mode = .unknown := by
  by_cases hm : p.mode = .unknown
  · rw [onDeselect_unknown hm, hm]
  · rw [Panel.onDeselect, if_neg hm, if_pos (h.resolve_left hm)]
    rfl

variable {cfg : Cfg} {W H : Half} {m : Nat} {c b : Byte} (hp : p.Listens)
include hp

/-- What one byte after a window command is: the first of four parameter bytes, or half a pixel where the window lies inside
the surface (R64, R65). -/
theorem windowCode_then_byte (hw : cfg.wf = true) :
    let q := (p.onCommand cfg W H n c).onData m b
    (c = cfg.cmdCaset → q.mode = .col 1 ∧ q.acc = [b]) ∧ (c = cfg.cmdPaset → q.mode = .row 1 ∧ q.acc = [b]) ∧
      (c = cfg.cmdRamwr →
        if windowInside p.win W H = true then q.mode = .write ∧ q.half = some b else q.mode = .unknown) := by
  simp only [Cfg.wf, Bool.and_eq_true, decide_eq_true_eq] at hw
  obtain ⟨⟨⟨_, hcp⟩, hcr⟩, hpr⟩ := hw
  rw [onCommand_listens hp]
  refine ⟨?_, ?_, ?_⟩ <;> rintro rfl
  · rw [if_pos rfl]
    exact ⟨rfl, rfl⟩
  · rw [if_neg hcp.symm, if_pos rfl]
    exact ⟨rfl, rfl⟩
  · rw [if_neg hcr.symm, if_neg hpr.symm, if_pos rfl]
    split
    · exact ⟨rfl, rfl⟩
    · rfl

/-- One byte after a window command is cut short by whatever ends the frame. -/
theorem windowCode_then_byte_deaf (hc : c ∈ windowCodes cfg) : ((p.onCommand cfg W H n c).onData m b).Deaf := by
  rw [onCommand_listens hp]
  by_cases h1 : c = cfg.cmdCaset
  · rw [if_pos h1]
    exact .inr (Bool.or_true _)
  by_cases h2 : c = cfg.cmdPaset
  · rw [if_neg h1, if_pos h2]
    exact .inr (Bool.or_true _)
  by_cases h3 : c = cfg.cmdRamwr
  · rw [if_neg h1, if_neg h2, if_pos h3]
    split
    · exact .inr rfl
    · exact .inl rfl
  · exact absurd hc (not_mem_windowCodes.mpr ⟨h1, h2, h3⟩)

end

/-- Settles O55. Where `0xD9` is no window command the panel listens when the second code comes (`AfterCodes`), and where it is
one the byte after it makes that code lose the panel. -/
theorem readregKeepsOrLosesThePicture : Obligations.ReadregKeepsOrLosesThePicture := by
  intro s t cmd index hb hl ha he
  obtain ⟨n₁, n₂, n₃, n₄, n, b, q, hq, ht⟩ := readReg_walks hb ha he
  have first : 0xD9 ∉ windowCodes s.cfg →
      AfterCodes (0xD9 ∈ s.cfg.fbPreserving) s.panel ((s.panel.onCommand s.cfg s.width s.height n₁ 0xD9).onData n₂ b) := by
    intro hn
    obtain ⟨h1, h2, h3⟩ := not_mem_windowCodes.mp hn
    have h := onCommand_afterCodes (W := s.width) (H := s.height) (n := n₁) hl h1 h2 h3
    rwa [onData_other h.mode]
  have lost : 0xD9 ∈ windowCodes s.cfg → t.panel.mode = .unknown := by
    intro hm
    have h := onCommand_deaf (cfg := s.cfg) (W := s.width) (H := s.height) (n := n₃) (c := cmd)
      (windowCode_then_byte_deaf (W := s.width) (H := s.height) (n := n₁) (m := n₂) (b := b) hl hm)
    rw [onData_unknown h] at hq
    rw [ht, hq, onDeselect_unknown h, ite_self, h]
  generalize (s.panel.onCommand s.cfg s.width s.height n₁ 0xD9).onData n₂ b = p at first hq
  refine ⟨fun hcodes => ?_, lost, fun hc hd => ?_, fun hn hd hw => ?_⟩
  · have h1 := first (not_mem_windowCodes.mpr (hcodes _ (by simp)))
    obtain ⟨c1, c2, c3⟩ := hcodes cmd (by simp)
    have h2 := onCommand_afterCodes (W := s.width) (H := s.height) (n := n₃) h1.listens c1 c2 c3
    rw [onData_other h2.mode] at hq
    exact (h1.trans (hq ▸ h2)).bracketEnd ht
  · by_cases hm : 0xD9 ∈ windowCodes s.cfg
    · exact lost hm
    · rw [ht, if_pos hd, hq]
      exact onDeselect_deaf (windowCode_then_byte_deaf (first hm).listens hc)
  · have h1 := first hn
    rw [if_neg (by omega)] at ht
    obtain ⟨g1, g2, g3⟩ := windowCode_then_byte (W := s.width) (H := s.height) (n := n₃) (m := n₄) (c := cmd) (b := 0x00)
      h1.listens hw
    rw [← hq, ← ht] at g1 g2 g3
    refine ⟨g1, g2, fun hc => ?_⟩
    have hwrite := g3 hc
    split at hwrite
    · next hin =>
      exact ⟨.inr hwrite, fun hk => by rw [← (h1.picture hk).1, hin, hwrite.1]; simp⟩
    · next hout =>
      exact ⟨.inl hwrite, fun hk => by rw [← (h1.picture hk).1, hwrite]; simp [hout]⟩


/-! Where the pixels of a stream land (R65). -/

/-- The number of columns of a window. -/
def windowCols (w : Window) : Nat := w.xe.toNat - w.xs.toNat + 1

/-- The number of rows of a window. -/
def windowRows (w : Window) : Nat := w.ye.toNat - w.ys.toNat + 1

/-- The number of a cursor's cell in its window, row by row from the first cell. -/
def cellNumber (w : Window) (c : Cursor) : Nat := (c.cy.toNat - w.ys.toNat) * windowCols w + (c.cx.toNat - w.xs.toNat)

theorem cellAhead_eq (w : Window) (c : Cursor) (k : Nat) :
    cellAhead w c k = curAt w.xs.toNat w.ys.toNat (windowCols w) (windowRows w) (cellNumber w c + k) := rfl

/-- The window is not reversed. -/
abbrev Upright (w : Window) : Prop := w.xs.toNat ≤ w.xe.toNat ∧ w.ys.toNat ≤ w.ye.toNat

theorem upright_of_inside {w : Window} {W H : Half} (h : windowInside w W H = true) : Upright w := by
  obtain ⟨hx, _, hy, _⟩ := windowInside_iff.mp h
  exact ⟨hx, hy⟩

section
variable {w : Window} (hw : Upright w)
include hw

theorem windowCols_le : w.xs.toNat + windowCols w ≤ 65536 := by
  have := w.xe.isLt
  obtain ⟨hx, _⟩ := hw
  unfold windowCols
  omega

theorem windowRows_le : w.ys.toNat + windowRows w ≤ 65536 := by
  have := w.ye.isLt
  obtain ⟨_, hy⟩ := hw
  unfold windowRows
  omega

/-- A window from its first cell and its extents, as `SETWIN` writes it. -/
theorem window_of_extents : w = ⟨BitVec.ofNat 16 w.xs.toNat, BitVec.ofNat 16 (w.xs.toNat + windowCols w - 1),
    BitVec.ofNat 16 w.ys.toNat, BitVec.ofNat 16 (w.ys.toNat + windowRows w - 1)⟩ := by
  obtain ⟨hx, hy⟩ := hw
  rw [show w.xs.toNat + windowCols w - 1 = w.xe.toNat by unfold windowCols; omega,
    show w.ys.toNat + windowRows w - 1 = w.ye.toNat by unfold windowRows; omega]
  simp only [BitVec.ofNat_toNat, BitVec.setWidth_eq]

/-- Every cell a stream goes on to lies in the window. -/
theorem cellAhead_in (c : Cursor) (k : Nat) : CursorIn w (cellAhead w c k) := by
  have hx := windowCols_le hw
  have hy := windowRows_le hw
  have h1 := Nat.mod_lt (cellNumber w c + k) (show 0 < windowCols w from Nat.succ_pos _)
  have h2 := Nat.mod_lt ((cellNumber w c + k) / windowCols w) (show 0 < windowRows w from Nat.succ_pos _)
  rw [cellAhead_eq]
  unfold CursorIn curAt
  simp only [BitVec.toNat_ofNat]
  rw [Nat.mod_eq_of_lt (show _ < 2 ^ 16 by omega), Nat.mod_eq_of_lt (show _ < 2 ^ 16 by omega)]
  obtain ⟨hx', hy'⟩ := hw
  unfold windowCols windowRows at *
  omega

end

theorem cellAhead_zero {w : Window} {c : Cursor} (hc : CursorIn w c) : cellAhead w c 0 = c := by
  obtain ⟨h1, h2, h3, h4⟩ := hc
  have hcol : c.cx.toNat - w.xs.toNat < windowCols w := by unfold windowCols; omega
  have hrow : c.cy.toNat - w.ys.toNat < windowRows w := by unfold windowRows; omega
  have hmod : cellNumber w c % windowCols w = c.cx.toNat - w.xs.toNat := by
    rw [cellNumber, Nat.mul_add_mod_of_lt hcol]
  have hdiv : cellNumber w c / windowCols w = c.cy.toNat - w.ys.toNat := by
    rw [cellNumber, Nat.mul_comm, Nat.mul_add_div (show 0 < windowCols w from Nat.succ_pos _),
      Nat.div_eq_of_lt hcol, Nat.add_zero]
  rw [cellAhead_eq, Nat.add_zero, curAt, hmod, hdiv, Nat.mod_eq_of_lt hrow, Nat.add_sub_cancel' h1, Nat.add_sub_cancel' h3]
  simp only [BitVec.ofNat_toNat, BitVec.setWidth_eq]

theorem cursor_of_fbIndex {c d : Cursor} (h : fbIndex c.cx c.cy = fbIndex d.cx d.cy) : c = d := by
  obtain ⟨hx, hy⟩ := fbIndex_inj h
  cases c; cases d
  simp_all

/-- A stream of pixels at the panel, from the cursor it finds: each cell holds the last pixel that landed there, every other
cell is as before, and the cursor is at the cell of the next pixel. -/
theorem stream_lands {cfg : Cfg} {W H : Half} {p q : Panel} {cs : List Colour} (hm : p.mode = .write) (hh : p.half = none)
    (hw : Upright p.win) (hc : CursorIn p.win p.cur) (hfb : p.fb.wf = true) (g : PWalk cfg W H (cs.map .pixel) p q) :
    (∀ j < cs.length, (∀ k < cs.length, j < k → cellAhead p.win p.cur k ≠ cellAhead p.win p.cur j) →
      q.fb.read (fbIndex (cellAhead p.win p.cur j).cx (cellAhead p.win p.cur j).cy) = cs[j]?) ∧
    (∀ c : Cursor, (∀ k < cs.length, cellAhead p.win p.cur k ≠ c) →
      q.fb.read (fbIndex c.cx c.cy) = p.fb.read (fbIndex c.cx c.cy)) ∧
    q.mode = .write ∧ q.half = none ∧ q.win = p.win ∧ q.cur = cellAhead p.win p.cur cs.length := by
  obtain ⟨hq, hmode, hhalf, hwin, hcur⟩ := stream_panel (Nat.succ_pos _) (Nat.succ_pos _) (windowCols_le hw)
    (windowRows_le hw) cs (window_of_extents hw) hm (cellAhead_zero hc).symm hh g
  refine ⟨fun j hj hlast => ?_, fun c hc => ?_, hmode, hhalf, hwin, hcur⟩
  · rw [hq]
    exact paint_last hfb hj fun k hk hjk e => hlast k hk hjk (cursor_of_fbIndex e)
  · rw [hq]
    exact paint_other hfb fun k hk e => hc k hk (cursor_of_fbIndex e)

/-! The operations that stream (42_protocol.md R157 to R159). -/

/-- The walk of `WRPIXS` over colours the source buffer defines. -/
theorem streamItems_eq {s : State} {p n : Nat} {cs : List Colour} (hn : cs.length = n)
    (h : ∀ k < n, p + k < 2 ^ 32 ∧ s.src.read (p + k) = cs[k]?) : streamItems s p n = some (cs.map .pixel) := by
  have hdef : ∀ i ∈ (List.range n).map (fun k => p + k), i < 2 ^ 32 ∧ s.src.read i ≠ none := by
    intro i hi
    obtain ⟨k, hk, rfl⟩ := List.mem_map.mp hi
    obtain ⟨h1, h2⟩ := h k (List.mem_range.mp hk)
    exact ⟨h1, by rw [h2]; simpa [hn] using hk⟩
  have hcs : ((List.range n).map (fun k => p + k)).map (fun i => (s.src.read i).getD 0) = cs := by
    refine List.ext_getElem (by simp [hn]) fun k h1 h2 => ?_
    simp [(h k (hn ▸ h2)).2, List.getElem?_eq_getElem h2]
  rw [streamItems, gather_eq hdef, hcs]

/-- Each of the three operations, while a stream is in force, is the walk of its pixels. -/
theorem streams_walk {s t : State} {i : Instr} {cs : List Colour} (hb : Between s) (hd : 1 ≤ s.depth) (hw : s.wmode = true)
    (hs : Streams s i cs) (ha : Answers s (2 * cs.length)) (he : exec i s = .next t) :
    ∃ u evs, t = u.complete .ok 0 ∧ Sends s u (2 * cs.length) evs true (.driven .high) ∧
      PWalk s.cfg s.width s.height (cs.map .pixel) s.panel u.panel := by
  have walks : ∀ {checks : List (Bool × Status)} {items : State → List WireItem}, firstFailing checks = none →
      items s = cs.map .pixel →
      guarded (readyCheck s :: bracketCheck s :: checks) (fun s => conclude (runItems (items s) s) 0) s = .next t →
      ∃ u evs, t = u.complete .ok 0 ∧ Sends s u (2 * cs.length) evs true (.driven .high) ∧
        PWalk s.cfg s.width s.height (cs.map .pixel) s.panel u.panel := by
    intro checks items hc hi h
    obtain ⟨u, ht, hsend, hp⟩ := unbracketed_walks hb hd hc (by rwa [hi, walkExchanges_pixels])
      (by rw [hi, hw]; exact pixelsOk_map s.cfg cs) h
    rw [hi, walkExchanges_pixels, walkWmode_pixels, hw] at hsend
    exact ⟨u, _, ht, hsend, hi ▸ hp⟩
  rcases hs with ⟨c, rfl, rfl⟩ | ⟨c, n, rfl, rfl⟩ | ⟨p, n, rfl, hn, hdef⟩
  · exact walks (checks := []) (items := fun _ => [.pixel c]) rfl rfl he
  · exact walks (checks := []) (items := fun _ => List.replicate n.toNat (.pixel c)) rfl (replicate_pixels _ c) he
  · have hi := streamItems_eq hn hdef
    exact walks (checks := [streamCheck s p.toNat n.toNat]) (items := fun s => (streamItems s p.toNat n.toNat).getD [])
      (by simp [streamCheck, hi, firstFailing]) (by rw [hi]; rfl) he

/-- A stream operation while a stream is in force at the panel. -/
theorem stream_goes_on {s t : State} {i : Instr} {cs : List Colour} (hb : Between s) (hd : 1 ≤ s.depth) (hs : InStream s)
    (hfb : s.panel.fb.wf = true) (hi : Streams s i cs) (ha : Answers s (2 * cs.length)) (he : exec i s = .next t) :
    (∀ j < cs.length,
      (∀ k < cs.length, j < k → cellAhead s.panel.win s.panel.cur k ≠ cellAhead s.panel.win s.panel.cur j) →
      pixelAt t (cellAhead s.panel.win s.panel.cur j) = cs[j]?) ∧
    (∀ c : Cursor, (∀ k < cs.length, cellAhead s.panel.win s.panel.cur k ≠ c) → pixelAt t c = pixelAt s c) ∧
    InStream t ∧ t.panel.win = s.panel.win ∧ t.panel.cur = cellAhead s.panel.win s.panel.cur cs.length := by
  obtain ⟨hwm, hm, hh, hin, hc⟩ := hs
  obtain ⟨u, _, rfl, hsend, hp⟩ := streams_walk hb hd hwm hi ha he
  obtain ⟨h1, h2, h3, h4, h5, h6⟩ := stream_lands hm hh (upright_of_inside hin) hc hfb hp
  refine ⟨h1, h2, ⟨hsend.wmode, h3, h4, ?_, ?_⟩, h5, h6⟩
  · rw [State.complete_panel, h5, State.complete_width, State.complete_height, hsend.frame.width, hsend.frame.height]
    exact hin
  · rw [State.complete_panel, h5, h6]
    exact cellAhead_in (upright_of_inside hin) _ _

/-! A window set, and a stream into it (R162, R282). -/

/-- A procedure that sends leaves the block between operations, `DC` being high again. -/
theorem Sends.between {s u : State} {n : Nat} {evs : List Event} {w : Bool} (g : Sends s u n evs w (.driven .high))
    (h : Between s) : Between u := by
  have hf := g.frame
  have hd := g.dcLine.trans h.onBus.dcHigh.symm
  simpa only [Between, Serving, LinesOk, hf.lifecycle, hf.session, hf.depth, hf.resetLine, hf.csLine, hf.width, hf.height, hd]
    using h

/-- From its first cell on, a stream goes through the window as `SETWIN` gave it. -/
theorem cellAhead_first {x y w h : Half} (hw : 1 ≤ w.toNat) (hh : 1 ≤ h.toNat) (hx : x.toNat + w.toNat - 1 ≤ 65535)
    (hy : y.toNat + h.toNat - 1 ≤ 65535) (k : Nat) :
    cellAhead ⟨x, x + w - 1, y, y + h - 1⟩ ⟨x, y⟩ k = curAt x.toNat y.toNat w.toNat h.toNat k := by
  have hcols : windowCols ⟨x, x + w - 1, y, y + h - 1⟩ = w.toNat := by
    simp only [windowCols, toNat_last hw hx]; omega
  have hrows : windowRows ⟨x, x + w - 1, y, y + h - 1⟩ = h.toNat := by
    simp only [windowRows, toNat_last hh hy]; omega
  have hnumber : cellNumber ⟨x, x + w - 1, y, y + h - 1⟩ ⟨x, y⟩ = 0 := by simp [cellNumber]
  rw [cellAhead_eq, hcols, hrows, hnumber, Nat.zero_add]

theorem cellAt_eq (x y w h k : Nat) : cellAt x y w h k = fbIndex (curAt x y w h k).cx (curAt x y w h k).cy := rfl

/-- The package's modules stand on core Lean alone, which does not have this. -/
theorem dvd_sub_of_mod_eq {j k n : Nat} (hjk : j ≤ k) (h : j % n = k % n) : n ∣ k - j := by
  have hj := Nat.div_add_mod j n
  have hk := Nat.div_add_mod k n
  exact ⟨k / n - j / n, by rw [Nat.mul_sub]; omega⟩

/-- Within one fill of the window no two pixels share a cell. -/
theorem curAt_ne {x y w h j k : Nat} (hw : 1 ≤ w) (hh : 1 ≤ h) (hx : x + w ≤ 65536) (hy : y + h ≤ 65536) (hjk : j < k)
    (hk : k < j + w * h) : curAt x y w h k ≠ curAt x y w h j := by
  intro e
  have hcell : cellAt x y w h k = cellAt x y w h j := by rw [cellAt_eq, cellAt_eq, e]
  have hdvd : w * h ∣ k - j := dvd_sub_of_mod_eq (Nat.le_of_lt hjk) (cell_inj hw hh hx hy hcell.symm)
  have := Nat.le_of_dvd (by omega) hdvd
  omega

/-- The colours of a stream the source buffer defines. -/
theorem source_colours {m : Memory} {p n : Nat} (h : ∀ k < n, p + k < 2 ^ 32 ∧ (m.read (p + k)).isSome = true) :
    ∃ cs : List Colour, cs.length = n ∧ ∀ k < n, p + k < 2 ^ 32 ∧ m.read (p + k) = cs[k]? := by
  refine ⟨(List.range n).map fun k => (m.read (p + k)).getD 0, by simp, fun k hk => ⟨(h k hk).1, ?_⟩⟩
  obtain ⟨c, hc⟩ := Option.isSome_iff_exists.mp (h k hk).2
  simp [hk, hc]

/-- The state after a `SETWIN` inside the surface, at a panel that listens: a stream is in force, and the picture is
as before. -/
theorem setWin_inStream {s t : State} {x y w h : Half} (hb : Between s) (hd : 1 ≤ s.depth) (hc : s.cfg.wf = true)
    (hl : PanelListens s) (hw : 1 ≤ w.toNat) (hh : 1 ≤ h.toNat) (hx : x.toNat + w.toNat ≤ s.width.toNat)
    (hy : y.toNat + h.toNat ≤ s.height.toNat) (ha : Answers s 11) (he : exec (.setWin x y w h) s = .next t) :
    Between t ∧ 1 ≤ t.depth ∧ InStream t ∧ t.panel.win = ⟨x, x + w - 1, y, y + h - 1⟩ ∧ t.panel.cur = ⟨x, y⟩ ∧
      t.panel.fb = s.panel.fb ∧ t.src = s.src ∧ t.xfers = s.xfers.drop 11 := by
  have hW := s.width.isLt
  have hH := s.height.isLt
  have hx' : x.toNat + w.toNat - 1 ≤ 65535 := by omega
  have hy' : y.toNat + h.toNat - 1 ≤ 65535 := by omega
  obtain ⟨u, _, rfl, hsend, hp⟩ := setWin_walks hb hd hc hl hw hh hx' hy' ha he
  rw [if_pos ⟨hx, hy⟩] at hp
  obtain ⟨hwin, hmode, hcur, hhalf, hfb⟩ := hp
  have hin : windowInside ⟨x, x + w - 1, y, y + h - 1⟩ s.width s.height = true := by
    simp only [windowInside_iff, toNat_last hw hx', toNat_last hh hy']
    omega
  refine ⟨hsend.between hb, ?_, ⟨hsend.wmode, hmode, hhalf, ?_, ?_⟩, hwin, hcur, hfb, hsend.frame.src, hsend.xfers⟩
  · rw [State.complete_depth, hsend.frame.depth]
    exact hd
  · rw [State.complete_panel, State.complete_width, State.complete_height, hwin, hsend.frame.width, hsend.frame.height]
    exact hin
  · rw [State.complete_panel, hwin, hcur]
    exact cursor_first hin

/-- Settles O56: `stream_goes_on` from any cursor of a stream in force, and then from the first cell of the window that a
`SETWIN` has put in force. -/
theorem streamFillsTheWindowRowMajor : Obligations.StreamFillsTheWindowRowMajor := by
  refine ⟨fun s t i cs hb hd hs hfb hi ha he => stream_goes_on hb hd hs hfb hi ha he, ?_⟩
  intro s t u x y w h p n hb hd hc hl hfb hw hh hx hy ha hdef het heu
  have hW := s.width.isLt
  have hH := s.height.isLt
  have hx' : x.toNat + w.toNat - 1 ≤ 65535 := by omega
  have hy' : y.toNat + h.toNat - 1 ≤ 65535 := by omega
  obtain ⟨tb, td, ts, twin, tcur, tfb, tsrc, txfers⟩ := setWin_inStream hb hd hc hl hw hh hx hy (answers_le ha (by omega)) het
  obtain ⟨cs, hlen, hcs⟩ := source_colours hdef
  have hcell := cellAhead_first hw hh hx' hy'
  obtain ⟨hlast, hother, -⟩ := stream_goes_on (cs := cs) tb td ts (tfb ▸ hfb)
    (.inr (.inr ⟨p, n, rfl, hlen, tsrc ▸ hcs⟩)) (by rw [hlen]; exact (answers_add ha txfers).2) heu
  obtain ⟨_, _, _, tin, _⟩ := ts
  have hahead := cellAhead_in (upright_of_inside tin) t.panel.cur
  rw [twin, tcur, hlen] at hlast hother
  rw [twin, tcur] at hahead
  refine ⟨fun i hi hin => ?_, fun col row hout => ?_⟩
  · have hl := hlast i hi fun k hk hik => by
      rw [hcell, hcell]
      exact curAt_ne hw hh (by omega) (by omega) hik (by omega)
    rw [hcell] at hl
    exact hl.trans (hcs i hi).2.symm
  · have ho := hother ⟨col, row⟩ fun k _ e => hout (by
      have := e ▸ hahead k
      simp only [CursorIn, toNat_last hw hx', toNat_last hh hy'] at this
      omega)
    rw [pixelAt, pixelAt, tfb] at ho
    exact ho

end Sys2Proof.Machine

/-! PROOFS. The encoding family (spec 30_encoding.md): descriptors as bits and bytes, decoding against encoding and against the
opcode table, the framing of the wire, and the operations that are other operations written out (R96). -/

namespace Sys2Proof

/-! A descriptor and its 160 bits (R90). -/

@[simp] theorem ofBits_toBits (f : Descriptor) : Descriptor.ofBits f.toBits = f := by
  unfold Descriptor.ofBits Descriptor.toBits
  congr 1 <;> repeat rw [BitVec.extractLsb'_append_eq_of_le (by decide)]
  · exact BitVec.extractLsb'_eq_self
  all_goals exact BitVec.extractLsb'_append_eq_right

@[simp] theorem toBits_ofBits (v : DescBits) : (Descriptor.ofBits v).toBits = v := by
  unfold Descriptor.ofBits Descriptor.toBits
  simp only
  repeat rw [BitVec.extractLsb'_append_extractLsb'_eq_extractLsb' (by decide)]
  exact BitVec.extractLsb'_eq_self

/-- Settles O2: neighbouring fields are neighbouring bits, and the first and the last reach the ends. -/
theorem descriptorFieldsFillTheBits : Obligations.DescriptorFieldsFillTheBits :=
  ⟨ofBits_toBits, toBits_ofBits⟩

theorem toBits_injective : Function.Injective Descriptor.toBits :=
  Function.LeftInverse.injective ofBits_toBits

/-! Decoding what was encoded (R91, R92). -/

theorem decode_toBytes (port : Port) (f : Descriptor) (payload : List Byte) :
    decode port (f.toBytes ++ payload) = decodeFields port f payload := by
  simp only [decode, ofBytes_toBytes]

/-- The fields of every well-formed operation and the bytes after them decode to it. -/
theorem decodeFields_fields {i : Instr} (h : i.wf = true) : decodeFields i.opcode.port i.fields i.payload = .ok i := by
  cases i with
  | beginOp => exact Laws.Fields.beginOp h
  | endOp => exact Laws.Fields.endOp h
  | startWrite => exact Laws.Fields.startWrite h
  | endWrite => exact Laws.Fields.endWrite h
  | wrCmd => exact Laws.Fields.wrCmd _ h
  | setWin => exact Laws.Fields.setWin _ _ _ _ h
  | wrPix => exact Laws.Fields.wrPix _ h
  | wrPixs => exact Laws.Fields.wrPixs _ _ h
  | wrColor => exact Laws.Fields.wrColor _ _ h
  | wPixel => exact Laws.Fields.wPixel _ _ _ h
  | wFillRect => exact Laws.Fields.wFillRect _ _ _ _ _ h
  | wHLine => exact Laws.Fields.wHLine _ _ _ _ h
  | wVLine => exact Laws.Fields.wVLine _ _ _ _ h
  | wBitmap => exact Laws.Fields.wBitmap _ _ _ _ _ h
  | drawPixel => exact Laws.Fields.drawPixel _ _ _ h
  | fillRect => exact Laws.Fields.fillRect _ _ _ _ _ h
  | drawHLine => exact Laws.Fields.drawHLine _ _ _ _ h
  | drawVLine => exact Laws.Fields.drawVLine _ _ _ _ h
  | drawBitmap => exact Laws.Fields.drawBitmap _ _ _ _ _ h
  | setRot => exact Laws.Fields.setRot _ h
  | invert => exact Laws.Fields.invert _ h
  | scrollTo => exact Laws.Fields.scrollTo _ h
  | readReg => exact Laws.Fields.readReg _ _ h
  | color565 => exact Laws.Fields.color565 _ _ _ h
  | tOpen => exact Laws.Fields.tOpen h
  | tXfer => exact Laws.Fields.tXfer _ h
  | tBlock => exact Laws.Fields.tBlock _ h
  | tClose => exact Laws.Fields.tClose h

/-- Settles O3: the bytes give the fields back, and the fields give the operation back. -/
theorem decodeInvertsEncode : Obligations.DecodeInvertsEncode :=
  fun i h => (decode_toBytes i.opcode.port i.fields i.payload).trans (decodeFields_fields h)

theorem decode_encoded {i : Instr} {bytes : List Byte} (he : encode i = bytes) (hw : i.wf = true) :
    decode i.opcode.port bytes = .ok i :=
  he ▸ decodeInvertsEncode i hw

/-- Settles O1: each word is the encoding of its operation. -/
theorem sampleWordsDecode : Obligations.SampleWordsDecode :=
  ⟨decode_encoded (i := .fillRect (-5) (-5) 10 10 0xF800) (by decide) rfl,
    decode_encoded (i := .setWin 65531 0 1 1) (by decide) rfl,
    decode_encoded (i := .wBitmap 1 2 16 4 3) (by decide) rfl,
    decode_encoded (i := .wrColor 0x07E0 3) (by decide) rfl,
    decode_encoded (i := .setRot 255) (by decide) rfl,
    decode_encoded (i := .tBlock [0x00, 0x0A, 0x00, 0x13]) (by decide) rfl⟩

/-! Encoding what was decoded (R91, R94). -/

/-- What the encoder writes into a field for what the decoder read from it (R91). -/
def Slot.rewritten : Slot → Half → Half
  | .unused, _ => 0
  | .byte, v => ofByte (lo8 v)
  | .flag, v => ofFlag (v.getLsbD 0)
  | .half, v => v

theorem Slot.rewritten_eq {k : Slot} {v : Half} (hu : k.unusedZero v = true) (hh : k.highZero v = true) :
    k.rewritten v = v := by
  cases k with
  | unused => exact (of_decide_eq_true hu rfl).symm
  | byte => exact ofByte_lo8 (of_decide_eq_true hh)
  | flag => exact ofFlag_getLsbD (of_decide_eq_true hh)
  | half => rfl

/-- The fields the encoder writes for what the decoder read under a layout. -/
def Layout.rewritten (l : Layout) (f : Descriptor) : Descriptor :=
  { op := f.op
    a := l.a.rewritten f.a
    b := l.b.rewritten f.b
    c := l.c.rewritten f.c
    d := l.d.rewritten f.d
    e := l.e.rewritten f.e
    n := if l.n then f.n else 0
    p := if l.p then f.p else 0
    z := 0 }

/-- A field of 32 bits that is no operand is zero (R90, R94). -/
theorem operand_or_zero {used : Bool} {v : Word32} (h : (used || decide (v = 0)) = true) : (if used then v else 0) = v := by
  cases used with
  | true => rfl
  | false => exact (of_decide_eq_true h).symm

/-- What the check admits is written again as it was read. -/
theorem Layout.rewritten_eq {l : Layout} {f : Descriptor} (h : l.check f = none) : l.rewritten f = f := by
  obtain ⟨hz, hu, hh⟩ := check_none.mp h
  simp only [Bool.and_eq_true] at hu hh
  obtain ⟨⟨⟨⟨⟨⟨ua, ub⟩, uc⟩, ud⟩, ue⟩, un⟩, up⟩ := hu
  obtain ⟨⟨⟨⟨ha, hb⟩, hc⟩, hd⟩, he⟩ := hh
  rw [Layout.rewritten, Slot.rewritten_eq ua ha, Slot.rewritten_eq ub hb, Slot.rewritten_eq uc hc, Slot.rewritten_eq ud hd,
    Slot.rewritten_eq ue he, operand_or_zero un, operand_or_zero up, ← hz]

/-- The fields of the operation read from a descriptor are that descriptor's operands, field by field. -/
theorem build_fields {o : Opcode} {f : Descriptor} {payload : List Byte} (ho : o.code = f.op)
    (hl : payload.length = o.payloadLength f) : (o.build f payload).fields = o.layout.rewritten f := by
  have hn : o = .tBlock → BitVec.ofNat 32 payload.length = f.n := by
    rintro rfl
    rw [hl]
    exact (BitVec.ofNat_toNat 32 f.n).trans (BitVec.setWidth_eq f.n)
  rw [Layout.rewritten, ← ho]
  cases o with
  | tBlock => rw [← hn rfl]; rfl
  | _ => rfl

theorem build_payload {o : Opcode} {f : Descriptor} {payload : List Byte} (hl : payload.length = o.payloadLength f) :
    (o.build f payload).payload = payload := by
  cases o with
  | tBlock => rfl
  | _ => exact (List.eq_nil_of_length_eq_zero hl).symm

theorem build_wf {o : Opcode} {f : Descriptor} {payload : List Byte} (hl : payload.length = o.payloadLength f) :
    (o.build f payload).wf = true := by
  cases o with
  | tBlock => exact decide_eq_true (hl ▸ f.n.isLt)
  | _ => rfl

/-- Settles O4: a descriptor that passes the check of its opcode's layout holds nothing that the operation does not. -/
theorem encodeInvertsDecode : Obligations.EncodeInvertsDecode := by
  intro port bytes i h
  have hport := decode_port h
  unfold decode at h
  split at h
  · cases h
  · next f payload hf =>
    obtain ⟨o, ho, _, hc, hl, rfl⟩ := decodeFields_ok.mp h
    refine ⟨?_, build_wf hl, hport⟩
    rw [encode, build_fields ho hl, build_payload hl, Layout.rewritten_eq hc, toBytes_ofBytes hf]

/-! The opcode table (R94). -/

/-- The bits of a 16-bit field that must be zero (R90, R91). -/
def Slot.fixedBits : Slot → Half
  | .unused => 0xFFFF
  | .byte => 0xFF00
  | .flag => 0xFFFE
  | .half => 0

/-- The bits of a descriptor that an opcode's row fixes: the opcode, what is no operand, and `Z` (R90, R94). -/
def Layout.fixedBits (l : Layout) : Descriptor :=
  { op := 0xFF
    a := l.a.fixedBits
    b := l.b.fixedBits
    c := l.c.fixedBits
    d := l.d.fixedBits
    e := l.e.fixedBits
    n := if l.n then 0 else 0xFFFFFFFF
    p := if l.p then 0 else 0xFFFFFFFF
    z := 0xFF }

/-- The row an opcode's layout calls for. -/
def Opcode.row (o : Opcode) : Row := ⟨o, (Descriptor.blank o).toBits, o.layout.fixedBits.toBits⟩

/-- The table holds the rows the layouts call for, and no other. -/
theorem mem_opcodeTable {r : Row} : r ∈ opcodeTable ↔ r = r.opcode.row := by
  have hrows : ∀ r ∈ opcodeTable, r = r.opcode.row := by decide
  have hall : ∀ o : Opcode, o.row ∈ opcodeTable := by
    intro o
    cases o <;> decide
  exact ⟨hrows r, fun h => h ▸ hall r.opcode⟩

/-- The bits two descriptors share, field by field. -/
def Descriptor.common (f g : Descriptor) : Descriptor :=
  { op := f.op &&& g.op, a := f.a &&& g.a, b := f.b &&& g.b, c := f.c &&& g.c, d := f.d &&& g.d, e := f.e &&& g.e,
    n := f.n &&& g.n, p := f.p &&& g.p, z := f.z &&& g.z }

theorem toBits_common (f g : Descriptor) : (f.common g).toBits = f.toBits &&& g.toBits := by
  unfold Descriptor.toBits
  repeat rw [BitVec.and_append]
  rfl

/-- Masking the high part of a word leaves nothing exactly where that part is zero. -/
theorem and_mask_high {m n : Nat} (x : BitVec m) (y : BitVec n) :
    (x ++ y) &&& (BitVec.allOnes m ++ 0#n) = 0 ↔ x = 0 := by
  rw [BitVec.and_append, BitVec.and_allOnes, BitVec.and_zero]
  constructor
  · intro h
    simpa [BitVec.extractLsb'_append_eq_left] using congrArg (BitVec.extractLsb' n m) h
  · rintro rfl
    exact BitVec.zero_append_zero

/-- The row's bits of a field are zero exactly where the check of its slot passes (R91, R94). -/
theorem Slot.and_fixedBits (k : Slot) (v : Half) :
    v &&& k.fixedBits = 0 ↔ k.unusedZero v = true ∧ k.highZero v = true := by
  cases k with
  | unused =>
    rw [show Slot.unused.fixedBits = BitVec.allOnes 16 from rfl, BitVec.and_allOnes]
    simp [Slot.unusedZero, Slot.highZero]
  | byte =>
    have h := and_mask_high (hi8 v) (lo8 v)
    rw [hi8_lo8] at h
    simpa [Slot.fixedBits, Slot.unusedZero, Slot.highZero] using h
  | flag =>
    have hv : v.extractLsb' 1 15 ++ v.extractLsb' 0 1 = v :=
      (BitVec.extractLsb'_append_extractLsb'_eq_extractLsb' rfl).trans BitVec.extractLsb'_eq_self
    have h := and_mask_high (v.extractLsb' 1 15) (v.extractLsb' 0 1)
    rw [hv] at h
    simpa [Slot.fixedBits, Slot.unusedZero, Slot.highZero] using h
  | half => simp [Slot.fixedBits, Slot.unusedZero, Slot.highZero]

theorem and_unless_operand (used : Bool) (v : Word32) :
    v &&& (if used then 0 else 0xFFFFFFFF) = 0 ↔ (used || decide (v = 0)) = true := by
  cases used with
  | true => simp
  | false =>
    rw [show (if false then 0 else 0xFFFFFFFF : Word32) = BitVec.allOnes 32 from rfl, BitVec.and_allOnes]
    simp

/-- A row covers the descriptors with its opcode that pass the check of its layout (R94). -/
theorem row_covers {o : Opcode} {f : Descriptor} :
    o.row.covers f.toBits = true ↔ o.code = f.op ∧ o.layout.check f = none := by
  have hones (v : Byte) : v &&& 0xFF = v := BitVec.and_allOnes
  rw [Row.covers, decide_eq_true_iff, Opcode.row, ← toBits_common, toBits_injective.eq_iff, check_none]
  simp only [Descriptor.common, Descriptor.blank, Layout.fixedBits, Descriptor.mk.injEq, hones, Slot.and_fixedBits,
    and_unless_operand, Bool.and_eq_true, eq_comm (a := f.op)]
  constructor
  · rintro ⟨ho, ⟨ua, ha⟩, ⟨ub, hb⟩, ⟨uc, hc⟩, ⟨ud, hd⟩, ⟨ue, he⟩, un, up, hz⟩
    exact ⟨ho, hz, ⟨⟨⟨⟨⟨⟨ua, ub⟩, uc⟩, ud⟩, ue⟩, un⟩, up⟩, ⟨⟨⟨⟨ha, hb⟩, hc⟩, hd⟩, he⟩⟩
  · rintro ⟨ho, hz, ⟨⟨⟨⟨⟨⟨ua, ub⟩, uc⟩, ud⟩, ue⟩, un⟩, up⟩, ⟨⟨⟨⟨ha, hb⟩, hc⟩, hd⟩, he⟩⟩
    exact ⟨ho, ⟨ua, ha⟩, ⟨ub, hb⟩, ⟨uc, hc⟩, ⟨ud, hd⟩, ⟨ue, he⟩, un, up, hz⟩

theorem code_injective : Function.Injective Opcode.code := by
  intro o o' h
  have h' := congrArg Opcode.ofByte? h
  simpa using h'

/-- With as many bytes after it as its opcode announces, a descriptor decodes to an operation of the opcode in its `OP` and of no
other, on that opcode's port, when it passes the check. -/
theorem decodeFields_opcode {port : Port} {f : Descriptor} {o : Opcode} {payload : List Byte}
    (hl : payload.length = o.payloadLength f) :
    (∃ i : Instr, i.opcode = o ∧ decodeFields port f payload = .ok i) ↔
      o.port = port ∧ o.code = f.op ∧ o.layout.check f = none := by
  constructor
  · rintro ⟨i, rfl, hi⟩
    obtain ⟨o, ho, hp, hc, _, rfl⟩ := decodeFields_ok.mp hi
    rw [build_opcode]
    exact ⟨hp, ho, hc⟩
  · rintro ⟨hp, ho, hc⟩
    exact ⟨o.build f payload, build_opcode o f payload, decodeFields_ok.mpr ⟨o, ho, hp, hc, hl, rfl⟩⟩

/-- The rows for an opcode that cover a descriptor: its own row, if any. -/
theorem exists_row_iff {o : Opcode} {v : DescBits} :
    (∃ r ∈ opcodeTable, r.opcode = o ∧ r.covers v = true) ↔ o.row.covers v = true := by
  constructor
  · rintro ⟨r, hr, rfl, hc⟩
    rwa [← mem_opcodeTable.mp hr]
  · intro h
    exact ⟨o.row, mem_opcodeTable.mpr rfl, rfl, h⟩

/-- Settles O5: the table's rows are the checks of the layouts as bits, and two rows that cover one descriptor have its `OP` in
common. -/
theorem decodeFollowsTheOpcodeTable : Obligations.DecodeFollowsTheOpcodeTable := by
  refine ⟨fun port f o payload hl => ?_, fun v r q hr hq hrv hqv => ?_⟩
  · rw [exists_row_iff, row_covers, decode_toBytes]
    exact decodeFields_opcode hl
  · rw [mem_opcodeTable.mp hr, ← toBits_ofBits v, row_covers] at hrv
    rw [mem_opcodeTable.mp hq, ← toBits_ofBits v, row_covers] at hqv
    rw [mem_opcodeTable.mp hr, mem_opcodeTable.mp hq, code_injective (hrv.1.trans hqv.1.symm)]

end Sys2Proof

namespace Sys2Proof.Machine

/-- Settles O60: the two parts of an appended word, and the table of the codes. -/
theorem resultBitsAreStatusThenValue : Obligations.ResultBitsAreStatusThenValue :=
  ⟨fun _ => ⟨BitVec.extractLsb'_append_eq_left, BitVec.extractLsb'_append_eq_right⟩,
    rfl, rfl, rfl, rfl, rfl, rfl, rfl, rfl⟩

/-! Pixels and lines as fills (R96). -/

theorem toInt_one : (1 : Half).toInt = 1 := by decide

/-- Clipping a rectangle of one pixel is testing the pixel, whatever the bounds (43_drawing.md R183). -/
theorem clip_pixel (W H x y : Int) :
    clip W H x y 1 1 = if 0 ≤ x ∧ x < W ∧ 0 ≤ y ∧ y < H then .window x y 1 1 0 0 else .dropped := by
  unfold clip
  by_cases hin : 0 ≤ x ∧ x < W ∧ 0 ≤ y ∧ y < H
  · rw [if_pos hin, if_neg (by omega)]
    simp only [ClipResult.window.injEq]
    refine ⟨?_, ?_, ?_, ?_, ?_, ?_⟩ <;> split <;> omega
  · rw [if_neg hin, if_pos (by omega)]

theorem pixelItems_eq_rectItems (s : State) (x y : Int) (c : Colour) : pixelItems s x y c = rectItems s x y 1 1 c := by
  unfold pixelItems rectItems State.clip
  rw [clip_pixel]
  split <;> rfl

theorem extentCheck_one : extentCheck 1 1 = (true, .badOperand) := rfl

/-- A check that passes can be put last. -/
theorem firstFailing_snoc_pass (cs : List (Bool × Status)) (e : Status) :
    firstFailing (cs ++ [(true, e)]) = firstFailing cs := by
  induction cs with
  | nil => rfl
  | cons c cs ih =>
    obtain ⟨b, f⟩ := c
    cases b with
    | true => exact ih
    | false => rfl

theorem execWPixel_eq (x y : Half) (c : Colour) (s : State) :
    execWPixel x y c s = fillUnbracketed x.toInt y.toInt 1 1 c s := by
  simp only [execWPixel, fillUnbracketed, guarded, pixelItems_eq_rectItems, extentCheck_one,
    ← firstFailing_snoc_pass [readyCheck s, bracketCheck s] .badOperand, List.cons_append, List.nil_append]

theorem execDrawPixel_eq (x y : Half) (c : Colour) (s : State) :
    execDrawPixel x y c s = fillBracketed x.toInt y.toInt 1 1 c s := by
  simp only [execDrawPixel, fillBracketed, guarded, pixelItems_eq_rectItems, extentCheck_one,
    ← firstFailing_snoc_pass [readyCheck s] .badOperand, List.cons_append, List.nil_append]

/-- Settles O25: a line is its fill with one extent 1, and a pixel passes the clipper as a rectangle of one pixel does. -/
theorem pixelsAndLinesAreDegenerateFills : Obligations.PixelsAndLinesAreDegenerateFills := by
  intro x y len c s
  simp only [exec, execWFillRect, execFillRect, toInt_one]
  exact ⟨rfl, rfl, rfl, rfl, execWPixel_eq x y c s, execDrawPixel_eq x y c s⟩

/-! A fill as its expansion (R96, 43_drawing.md R189). -/

theorem execStartWrite_ready {s : State} (h : s.lifecycle = .ready) :
    execStartWrite s = .next ((startWrite s).complete .ok 0) := by
  rw [execStartWrite, readyCheck, guarded_pass (by simp [h]), guarded_nil]

theorem execEndWrite_inside {s : State} (h : s.lifecycle = .ready) (hd : 1 ≤ s.depth) :
    execEndWrite s = .next ((endWrite s).complete .ok 0) := by
  rw [execEndWrite, readyCheck, bracketCheck, guarded_pass (by simp [h]), guarded_pass (by simp [hd]), guarded_nil]

theorem fillUnbracketed_inside {s : State} {x y w h : Int} {c : Colour} (hl : s.lifecycle = .ready) (hd : 1 ≤ s.depth)
    (hw : 1 ≤ w) (hh : 1 ≤ h) :
    fillUnbracketed x y w h c s = .next (conclude (runItems (rectItems s x y w h c) s) 0) := by
  rw [fillUnbracketed, readyCheck, bracketCheck, extentCheck, guarded_pass (by simp [hl]), guarded_pass (by simp [hd]),
    guarded_pass (by simp [hw, hh]), guarded_nil]

theorem fillBracketed_ready {s : State} {x y w h : Int} {c : Colour} (hl : s.lifecycle = .ready) (hw : 1 ≤ w) (hh : 1 ≤ h) :
    fillBracketed x y w h c s = .next (conclude (bracketed (runItems (rectItems s x y w h c)) s) 0) := by
  rw [fillBracketed, readyCheck, extentCheck, guarded_pass (by simp [hl]), guarded_pass (by simp [hw, hh]), guarded_nil]

/-- A walk that begins after an operation returned does what it does without it, the last result aside. -/
theorem runItems_complete_ok (is : List WireItem) (s : State) :
    runItems is (s.complete .ok 0) =
      ((runItems is s).1, (runItems is s).2.setResult (some ⟨.ok, 0⟩)) := by
  have h : s.complete .ok 0 = s.setResult (some ⟨.ok, 0⟩) := by
    simp [State.complete, State.setResult, Status.isMisuse]
  rw [h]
  exact runItems_blind (offWire_setResult _) is s

theorem endWrite_complete (s : State) (e : Status) (v : Half) :
    endWrite (s.complete e v) = (endWrite s).complete e v := by
  unfold endWrite
  rw [State.complete_depth]
  split <;> rfl

/-- A result that is handed back over another one, before the bracket is ended or after: the same but for the result of the
bracket's end itself. -/
theorem endWrite_after_complete (t : State) (r : Option Result) (e : Status) (v : Half) :
    ((endWrite ((t.setResult r).complete e v)).complete .ok 0).setResult (some ⟨e, v⟩) = (endWrite t).complete e v := by
  rw [show (t.setResult r).complete e v = t.complete e v from rfl, endWrite_complete]
  simp [State.complete, State.setResult, Status.isMisuse]

theorem endWrite_after_conclude (e : Option Status) (t : State) (r : Option Result) :
    ((endWrite (conclude (e, t.setResult r) 0)).complete .ok 0).setResult (conclude (e, t.setResult r) 0).result =
      conclude (e, endWrite t) 0 := by
  cases e with
  | none => exact endWrite_after_complete t r .ok 0
  | some e => exact endWrite_after_complete t r e 0

theorem conclude_lifecycle (r : Option Status × State) (v : Half) : (conclude r v).lifecycle = r.2.lifecycle := by
  obtain ⟨st, w, h⟩ := conclude_eq r v
  rw [h, State.complete_lifecycle]

theorem conclude_depth (r : Option Status × State) (v : Half) : (conclude r v).depth = r.2.depth := by
  obtain ⟨st, w, h⟩ := conclude_eq r v
  rw [h, State.complete_depth]

theorem SameSurface.rectItems {s t : State} (g : SameSurface s t) (x y w h : Int) (c : Colour) :
    Machine.rectItems t x y w h c = Machine.rectItems s x y w h c := by
  simp only [Machine.rectItems, State.clip, g.cfg, g.width, g.height]

/-- After a walk that began inside a bracket the bracket can be ended. -/
theorem execEndWrite_after_walk {is : List WireItem} {s : State} (hl : s.lifecycle = .ready) (hd : 1 ≤ s.depth)
    (r : Option Result) {t : State} (ht : t = conclude ((runItems is s).1, (runItems is s).2.setResult r) 0) :
    execEndWrite t = .next ((endWrite t).complete .ok 0) := by
  have hwalk := runItems_onWire is s
  subst ht
  refine execEndWrite_inside ?_ ?_
  · rw [conclude_lifecycle]
    exact hwalk.lifecycle.trans hl
  · rw [conclude_depth]
    exact Nat.le_trans hd (Nat.le_of_eq hwalk.depth.symm)

/-- Settles O31: the walk does not see the result that opening the bracket left, and the bracket's end does not see that of the
walk. -/
theorem fillIsItsExpansion : Obligations.FillIsItsExpansion := by
  intro x y w h c s s1 s2 s3 hl hw hh h1 h2 h3
  have hs : SameSurface s ((startWrite s).complete .ok 0) :=
    (startWrite_sameSurface s).trans ((startWrite s).complete_sameSurface .ok 0)
  obtain rfl := Host.Outcome.next.inj ((execStartWrite_ready hl).symm.trans h1)
  have hfill := fillUnbracketed_inside (x := x.toInt) (y := y.toInt) (c := c) (hs.lifecycle.trans hl)
    (Nat.le_add_left 1 s.depth) hw hh
  rw [hs.rectItems, runItems_complete_ok] at hfill
  have hs2 := Host.Outcome.next.inj (h2.symm.trans hfill)
  have hend := execEndWrite_after_walk ((startWrite_lifecycle s).trans hl) (Nat.le_add_left 1 s.depth) _ hs2
  obtain rfl := Host.Outcome.next.inj (hend.symm.trans h3)
  subst hs2
  have hbracket : exec (.fillRect x y w h c) s = _ := fillBracketed_ready hl hw hh
  rw [hbracket]
  exact congrArg Host.Outcome.next (endWrite_after_conclude _ _ _).symm

/-! The framing of the wire (R80, R244). -/

/-- Events that lead the framing from one level of `CS` to another, `DC` being high before and after. -/
def FramesTo (a b : Level) (evs : List Event) : Prop := ∀ es, framed a .high false (evs ++ es) = framed b .high false es

theorem FramesTo.append {a b c : Level} {e f : List Event} (h : FramesTo a b e) (g : FramesTo b c f) :
    FramesTo a c (e ++ f) := by
  intro es
  rw [List.append_assoc, h, g]

theorem FramesTo.framed {a b : Level} {evs : List Event} (h : FramesTo a b evs) : framed a .high false evs = true := by
  have h0 := h []
  rw [List.append_nil] at h0
  rw [h0, Machine.framed]

/-- `t` has on its trace what `s` has and then events that lead the framing from level `a` of `CS` to level `b`. -/
def Frames (a b : Level) (s t : State) : Prop := ∃ evs, t.trace = s.trace ++ evs ∧ FramesTo a b evs

theorem Frames.of_eq {a : Level} {s t : State} (h : t.trace = s.trace) : Frames a a s t :=
  ⟨[], by rw [h, List.append_nil], fun _ => rfl⟩

theorem Frames.trans {a b c : Level} {s t u : State} (h : Frames a b s t) (g : Frames b c t u) : Frames a c s u := by
  obtain ⟨e, he, hf⟩ := h
  obtain ⟨f, hg, gf⟩ := g
  exact ⟨e ++ f, by rw [hg, he, List.append_assoc], hf.append gf⟩

/-- The level `CS` has between operations (10_state.md R35). -/
def State.csLevel (s : State) : Level := if s.depth = 0 then .high else .low

theorem csLevel_inside {s : State} (hd : 1 ≤ s.depth) : s.csLevel = .low := if_neg (Nat.one_le_iff_ne_zero.mp hd)

theorem runItems_frames (is : List WireItem) {s : State} (hs : s.session = .opened) :
    Frames .low .low s (runItems is s).2 := by
  obtain ⟨evs, h⟩ := runItems_ran is hs
  exact ⟨evs, h.trace, h.framing⟩

theorem startWrite_frames (s : State) : Frames s.csLevel .low s (startWrite s) := by
  refine ⟨_, startWrite_trace s, ?_⟩
  unfold State.csLevel
  split
  · exact fun es => by simp [framed]
  · exact fun _ => rfl

theorem endWrite_frames (s : State) : Frames .low (endWrite s).csLevel s (endWrite s) := by
  refine ⟨_, endWrite_trace s, ?_⟩
  rw [State.csLevel, endWrite_depth]
  split
  · exact fun es => by simp [framed]
  · exact fun _ => rfl

theorem bracketed_frames (is : List WireItem) {s : State} (hs : s.session = .opened) :
    Frames s.csLevel s.csLevel s (bracketed (runItems is) s).2 := by
  have h := ((startWrite_frames s).trans (runItems_frames is ((startWrite_session s).trans hs))).trans (endWrite_frames _)
  rw [← bracketed_snd] at h
  rwa [show (bracketed (runItems is) s).2.csLevel = s.csLevel by simp only [State.csLevel, bracketed_depth]] at h

/-- What `t` has on its trace more than `s` keeps to the framing. -/
def WellFramed (s t : State) : Prop := ∃ b, Frames s.csLevel b s t

theorem WellFramed.of_eq {s t : State} (h : t.trace = s.trace) : WellFramed s t := ⟨_, .of_eq h⟩

theorem WellFramed.complete {s t : State} (h : WellFramed s t) (st : Status) (v : Half) : WellFramed s (t.complete st v) := h

theorem Reaches.wellFramed {s u : State} (h : Reaches s u) (hs : s.lifecycle = .ready → s.session = .opened) :
    WellFramed s u := by
  cases h with
  | stay => exact .of_eq rfl
  | walk is hr hd => exact ⟨.low, by rw [csLevel_inside hd]; exact runItems_frames is (hs hr)⟩
  | bracket is hr => exact ⟨_, bracketed_frames is (hs hr)⟩
  | start => exact ⟨_, startWrite_frames s⟩
  | finish _ hd => exact ⟨_, by rw [csLevel_inside hd]; exact endWrite_frames s⟩

/-- Opening and closing the session leave `CS` as it is. -/
theorem emit_session_frames (a : Level) (s : State) {e : Event} (he : e = .sessionClose ∨ ∃ conf, e = .sessionOpen conf) :
    Frames a a s (s.emit e) := by
  refine ⟨[e], rfl, fun es => ?_⟩
  rcases he with rfl | ⟨conf, rfl⟩ <;> simp [framed]

theorem closeSession_frames (a : Level) (s : State) : Frames a a s (closeSession s).2 := by
  rcases closeSession_cases s with ⟨_, h⟩ | ⟨_, h⟩ <;> rw [h]
  · exact emit_session_frames a (s.setSession .released) (.inl rfl)
  · exact .of_eq rfl

theorem execEnd_wellFramed {s t : State} (h : execEnd s = .next t) : WellFramed s t := by
  rcases execEnd_cases h with ⟨e, rfl⟩ | ⟨_, _, ⟨_, rfl⟩ | ⟨_, rfl⟩⟩
  · exact .of_eq rfl
  · exact ⟨_, emit_session_frames _ (s.setSession .released) (.inl rfl)⟩
  · exact .of_eq rfl

theorem execSetRot_wellFramed {r : Byte} {s t : State} (hs : s.lifecycle = .ready → s.session = .opened)
    (h : execSetRot r s = .next t) : WellFramed s t := by
  rcases execSetRot_cases h with ⟨e, rfl⟩ | ⟨hr, st, v, rfl⟩
  · exact .of_eq rfl
  · exact ⟨_, bracketed_frames (s := s.setSurface (rotationOf r)) _ (hs hr)⟩

/-- The reset pulse drives `CS` high and no line low but `RESET` (41_lifecycle.md R130). -/
theorem resetPulse_frames (a : Level) (s : State) : Frames a .high s (resetPulse s) := by
  refine ⟨(beginPulse s.cfg).tail, ?_, fun es => by simp [beginPulse, framed]⟩
  simp [resetPulse, State.wait, beginPulse, Config.tSettleMs, Config.tResetMs, Config.tBootMs]

theorem beginOpened_frames (a : Level) {s : State} (hs : s.session = .opened) (hd : s.depth = 0) :
    Frames a .high s (beginOpened s) := by
  obtain ⟨t, ht, h⟩ := beginOpened_cases s
  have hl : ((resetPulse s).setWmode false).csLevel = .high := if_pos (by simpa using hd)
  have hb := bracketed_frames (beginItems s.cfg) (s := (resetPulse s).setWmode false) (by simpa using hs)
  rw [hl, ← ht] at hb
  have hp : Frames a .high s t := (resetPulse_frames a s).trans hb
  rcases h with h | ⟨e, h⟩ <;> rw [h]
  · exact hp
  · exact hp.trans (closeSession_frames .high t)

@[simp] theorem drawOpen_trace (s : State) : (drawOpen s).2.trace = s.trace := by
  obtain ⟨l, n, h⟩ := drawOpen_snd s
  rw [h]

@[simp] theorem drawOpen_lifecycle (s : State) : (drawOpen s).2.lifecycle = s.lifecycle := by
  obtain ⟨l, n, h⟩ := drawOpen_snd s
  rw [h]

theorem execBegin_wellFramed {s t : State} (h : Inv s) (he : execBegin s = .next t) : WellFramed s t := by
  rcases execBegin_cases he with ⟨e, rfl⟩ | ⟨hl, ⟨_, rfl⟩ | rfl | rfl⟩
  · exact .of_eq rfl
  · exact .of_eq rfl
  · exact .of_eq (drawOpen_trace s)
  · have hd : (drawOpen s).2.depth = 0 := h.drawOpen.bracket.2 (by simp [hl])
    have ho := (Frames.of_eq (a := s.csLevel) (t := (drawOpen s).2.setSession .opened) (drawOpen_trace s)).trans
      (emit_session_frames _ _ (.inr ⟨(drawOpen s).2.cfg.sessionConf, rfl⟩))
    exact ⟨.high, ho.trans (beginOpened_frames _ rfl hd)⟩

theorem exec_wellFramed {i : Instr} {s t : State} (hp : i.opcode.port = .host) (h : Inv s) (he : exec i s = .next t) :
    WellFramed s t := by
  have hs : s.lifecycle = .ready → s.session = .opened := h.session.1.mpr
  by_cases hb : i = .beginOp
  · subst hb; exact execBegin_wellFramed h he
  by_cases hn : i = .endOp
  · subst hn; exact execEnd_wellFramed he
  by_cases hr : ∃ r, i = .setRot r
  · obtain ⟨r, rfl⟩ := hr; exact execSetRot_wellFramed hs he
  · obtain ⟨u, st, v, hu, rfl⟩ := exec_leaves hp he hb hn fun r hi => hr ⟨r, hi⟩
    exact (hu.wellFramed hs).complete st v

/-- Settles O50: walks keep `CS` low and frame each command byte with `DC`, brackets drive `CS` around them, and what `BEGIN`
and `END` add outside brackets exchanges no byte. -/
theorem everyOperationKeepsTheFraming : Obligations.EveryOperationKeepsTheFraming := by
  intro i s t evs hp h he ht
  obtain ⟨b, evs', ht', hf⟩ := exec_wellFramed hp h he
  obtain rfl := List.append_cancel_left (ht.symm.trans ht')
  exact hf.framed

end Sys2Proof.Machine

/-! PROOFS. The transport family (spec 40_transport.md): the session opened and closed, and the exchange of bytes. -/

namespace Sys2Proof.Machine

/-! How an operation of the transport is written, and how it ends. -/

/-- Every well-formed operation is written as its own fields and payload, on its opcode's port. -/
theorem encodedAs_fields {i : Instr} (h : i.wf = true) : EncodedAs i i.opcode.port i.fields i.payload :=
  ⟨rfl, decodeInvertsEncode i h⟩

/-- A status that is no precondition violation leaves the mark alone. -/
theorem complete_of_not_misuse {st : Status} (h : st.isMisuse = false) (s : State) (v : Half) :
    s.complete st v = { s with result := some ⟨st, v⟩ } := by
  simp [State.complete, h]

theorem keeps_complete {s t : State} {st : Status} (h : OnWire s t) (hd : t.dcLine = s.dcLine) (hst : st.isMisuse = false)
    (v : Half) : Keeps s (t.complete st v) := by
  rw [complete_of_not_misuse hst]
  exact ⟨h.lifecycle, h.width, h.height, h.rotation, h.depth, h.resetLine, hd, h.csLine, h.session, h.cfg, h.src, h.opens,
    h.requests, h.faultMark⟩

theorem refuses_of_raise {i : Instr} {s : State} {e : Status} (h : exec i s = .next (s.raise e)) (he : e.isMisuse = true) :
    Refuses i s e :=
  refuses_of (h.trans (congrArg _ (refused_eq s e he)))

/-- A procedure that sent everything and left `DC` as it was ends its operation well. -/
theorem Sends.endsOk {s t : State} {n : Nat} {evs : List Event} {w : Bool} (g : Sends s t n evs w s.dcLine) (v : Half) :
    EndsOk s (t.complete .ok v) v evs n w :=
  ⟨rfl, g.sent, g.xfers, g.wmode, keeps_complete g.frame g.dcLine rfl v⟩

/-! Opening and closing (R111, R115). -/

theorem drawOpen_script {s : State} {a : Bool} {os : List Bool} (h : s.opens = a :: os) :
    drawOpen s = (a, s.setOpens os) := by
  simp only [drawOpen, h]

theorem openSession_opened {s : State} (hs : s.session = .opened) : openSession s = (some .notReady, s) := by
  simp only [openSession, hs, if_true]

theorem openSession_denied {s : State} {os : List Bool} (hs : s.session ≠ .opened) (h : s.opens = false :: os) :
    openSession s = (some .deviceUnavailable, s.setOpens os) := by
  simp only [openSession, if_neg hs, drawOpen_script h]

theorem openSession_granted {s : State} {os : List Bool} (hs : s.session ≠ .opened) (h : s.opens = true :: os) :
    openSession s = (none, ((s.setOpens os).setSession .opened).emit (.sessionOpen s.cfg.sessionConf)) := by
  simp only [openSession, if_neg hs, drawOpen_script h, State.setOpens_cfg]

theorem closeSession_opened {s : State} (hs : s.session = .opened) :
    closeSession s = (none, (s.setSession .released).emit .sessionClose) := if_pos hs

theorem closeSession_not_opened {s : State} (hs : s.session ≠ .opened) : closeSession s = (some .notReady, s) := if_neg hs

theorem execTOpen_of {s t : State} {r : Option Status} (h : openSession s = (r, t)) :
    exec .tOpen s = .next (conclude (r, t) 0) := by rw [← h]; rfl

theorem execTClose_of {s t : State} {r : Option Status} (h : closeSession s = (r, t)) :
    exec .tClose s = .next (conclude (r, t) 0) := by rw [← h]; rfl

/-- Settles O37: `T_OPEN` and `T_CLOSE` end as `openSession` and `closeSession` do, and the panel takes no notice of either
event. -/
theorem openAndCloseFollowTheirRules : Obligations.OpenAndCloseFollowTheirRules := by
  refine ⟨encodedAs_fields (i := .tOpen) rfl, encodedAs_fields (i := .tClose) rfl, fun s => ⟨?refused, ?denied, ?granted,
    ?notOpen, ?closed⟩⟩
  case refused => exact fun hs => refuses_of_raise (execTOpen_of (openSession_opened hs)) rfl
  case denied =>
    intro os hs ho
    rw [execTOpen_of (openSession_denied hs ho)]
    exact congrArg _ (complete_of_not_misuse rfl _ 0)
  case granted =>
    intro os hs ho
    rw [execTOpen_of (openSession_granted hs ho)]
    exact ⟨s.draws + 1, congrArg _ (complete_of_not_misuse rfl _ 0)⟩
  case notOpen => exact fun hs => refuses_of_raise (execTClose_of (closeSession_not_opened hs)) rfl
  case closed =>
    intro hs
    rw [execTClose_of (closeSession_opened hs)]
    exact ⟨s.draws + 1, congrArg _ (complete_of_not_misuse rfl _ 0)⟩

/-! One exchange, and a block of them (R112, R114). -/

theorem xferByte_not_opened {s : State} (hs : s.session ≠ .opened) (b : Byte) : xferByte b s = (.error .notReady, s) :=
  if_neg hs

theorem execTXfer_of_ok {s t : State} {b r : Byte} (h : xferByte b s = (.ok r, t)) :
    exec (.tXfer b) s = .next (t.complete .ok (ofByte r)) := by
  simp only [exec, execTXfer, h]

theorem execTXfer_of_error {s t : State} {b : Byte} {e : Status} (h : xferByte b s = (.error e, t)) :
    exec (.tXfer b) s = .next (t.raise e) := by
  simp only [exec, execTXfer, h]

theorem execTBlock_opened {s : State} (hs : s.session = .opened) (bs : List Byte) :
    exec (.tBlock bs) s = .next (conclude (runItems (bs.map .data) s) 0) := by
  rw [exec, execTBlock, guarded_pass (decide_eq_true hs), guarded_nil]

theorem execTBlock_not_opened {s : State} (hs : s.session ≠ .opened) (bs : List Byte) : Refuses (.tBlock bs) s .notReady :=
  refuses_of (by rw [exec, execTBlock, guarded_fail (decide_eq_false hs) rfl])

theorem xfer_script_sends {s : State} {r : Byte} {rest : List (Option Byte)} (hx : s.xfers = some r :: rest) (b : Byte) :
    Sends s ((s.setXfers rest).emit (.xfer b r)) 1 [.xfer b 0] s.wmode s.dcLine where
  sent := by simp [State.sent, Event.sent]
  xfers := by simp [hx]
  wmode := rfl
  dcLine := rfl
  frame := by constructor <;> rfl

theorem runBytes_sends (bs : List Byte) {s : State} (hs : s.session = .opened) (h : Answers s bs.length) :
    ∃ t, runItems (bs.map .data) s = (none, t) ∧ Sends s t bs.length (byteEvents bs) s.wmode s.dcLine := by
  simpa using runItems_sends (bs.map .data) hs (by simpa using h)

/-- One exchange that fails ends `T_XFER` as it ends a `T_BLOCK` of the one byte. -/
theorem execTXfer_fails_as_block {s : State} (hs : s.session = .opened) (h : FailsAt s 0) (b : Byte) :
    exec (.tXfer b) s = exec (.tBlock [b]) s := by
  obtain ⟨rest, hx⟩ := failsAt_zero h
  have hf := xferByte_script_fails hs hx b
  rw [execTXfer_of_error hf, execTBlock_opened hs]
  simp only [List.map, runItems, runItem, Proc.andThen, data8, hf, conclude]

theorem execTBlock_ends_ok (bs : List Byte) {s : State} (hs : s.session = .opened) (h : Answers s bs.length) :
    ∃ t, exec (.tBlock bs) s = .next t ∧ EndsOk s t 0 (byteEvents bs) bs.length s.wmode := by
  obtain ⟨t, ht, g⟩ := runBytes_sends bs hs h
  exact ⟨t.complete .ok 0, by rw [execTBlock_opened hs, ht]; rfl, g.endsOk 0⟩

theorem execTBlock_ends_failed (bs : List Byte) {s : State} (hs : s.session = .opened) {k : Nat} (hk : k < bs.length)
    (h : FailsAt s k) :
    ∃ t, exec (.tBlock bs) s = .next t ∧
      EndsFailed s t (byteEvents (bs.take k) ++ (bs[k]?.toList.map fun b => .xferFail b)) k := by
  obtain ⟨t, ht, hsent, hxfers, hwmode, hdc, hpanel, hframe⟩ := runBytes_breaks bs hs k hk h
  exact ⟨t.raise .transferFailure, by rw [execTBlock_opened hs, ht]; rfl, rfl, hsent, hxfers, hwmode, hpanel,
    keeps_complete hframe hdc rfl 0⟩

/-- Settles O38: a block is the walk of its bytes, which touches no line, and an exchange is its one step with the byte clocked
in as the value. -/
theorem exchangesFollowTheirRules : Obligations.ExchangesFollowTheirRules := by
  refine ⟨fun b => encodedAs_fields (i := .tXfer b) rfl, fun bs h => encodedAs_fields (i := .tBlock bs) (decide_eq_true h),
    fun s => ⟨?xferRefused, fun hs bs => execTBlock_not_opened hs bs, ?xferOk, ?xferFails,
      fun hs bs h => execTBlock_ends_ok bs hs h, fun hs bs k hk h => execTBlock_ends_failed bs hs hk h⟩⟩
  case xferRefused => exact fun hs b => refuses_of_raise (execTXfer_of_error (xferByte_not_opened hs b)) rfl
  case xferOk =>
    intro hs b r rest hx
    exact ⟨_, execTXfer_of_ok (xferByte_script hs hx b), rfl, (xfer_script_sends hx b).endsOk (ofByte r)⟩
  case xferFails =>
    intro hs b h
    rw [execTXfer_fails_as_block hs h]
    exact execTBlock_ends_failed [b] hs Nat.zero_lt_one h

end Sys2Proof.Machine

/-! PROOFS. The lifecycle family (spec 41_lifecycle.md): what `BEGIN` and `END` do on each of their paths, and that nothing else
moves the lifecycle. -/

namespace Sys2Proof.Machine

/-! `END` (R131). -/

theorem execEnd_not_ready {s : State} (hl : s.lifecycle ≠ .ready) : Refuses .endOp s .notReady :=
  refuses_of (by rw [exec, execEnd, readyCheck, guarded_fail (decide_eq_false hl) rfl])

theorem execEnd_bracketOpen {s : State} (hl : s.lifecycle = .ready) (hd : s.depth ≠ 0) : Refuses .endOp s .bracketOpen :=
  refuses_of (by
    rw [exec, execEnd, readyCheck, guarded_pass (decide_eq_true hl), noBracketCheck, guarded_fail (decide_eq_false hd) rfl])

theorem execEnd_serving {s : State} (hs : Serving s) (hd : s.depth = 0) :
    exec .endOp s = .next ((((s.setSession .released).emit .sessionClose).setLifecycle .closed).complete .ok 0) := by
  rw [exec, execEnd, readyCheck, guarded_pass (decide_eq_true hs.1), noBracketCheck, guarded_pass (decide_eq_true hd),
    guarded_nil, closeSession_opened hs.2]

/-- Settles O11: past its two checks `END` closes an open session, which adds one event that the panel takes no notice of. -/
theorem endFollowsItsRule : Obligations.EndFollowsItsRule := by
  refine ⟨encodedAs_fields (i := .endOp) rfl, fun s => ⟨execEnd_not_ready, execEnd_bracketOpen, fun hs hd => ?_⟩⟩
  rw [execEnd_serving hs hd]
  exact ⟨s.draws + 1, congrArg _ (complete_of_not_misuse rfl _ 0)⟩

/-! What moves the lifecycle (R132). -/

theorem execSetRot_lifecycle {r : Byte} {s t : State} (h : execSetRot r s = .next t) : t.lifecycle = s.lifecycle := by
  rcases execSetRot_cases h with ⟨e, rfl⟩ | ⟨_, st, v, rfl⟩
  · rfl
  · exact (bracketed_sameSurface _ (s.setSurface (rotationOf r))).lifecycle

theorem exec_lifecycle {i : Instr} {s t : State} (h : exec i s = .next t) (hb : i ≠ .beginOp) (he : i ≠ .endOp) :
    t.lifecycle = s.lifecycle := by
  rcases hp : i.opcode.port with _ | _
  · by_cases hr : ∃ r, i = .setRot r
    · obtain ⟨r, rfl⟩ := hr
      exact execSetRot_lifecycle h
    · exact (exec_leaves hp h hb he fun r hi => hr ⟨r, hi⟩).sameSurface.lifecycle
  · exact (transport_sameSurface hp h).lifecycle

theorem execEnd_lifecycle {s t : State} (h : execEnd s = .next t) :
    t.lifecycle = s.lifecycle ∨
    (s.lifecycle = .ready ∧ t.lifecycle = .closed ∧ t.result = some ⟨.ok, 0⟩) := by
  rcases execEnd_cases h with ⟨e, rfl⟩ | ⟨hl, _, ⟨_, rfl⟩ | ⟨_, rfl⟩⟩
  · exact .inl rfl
  · exact .inr ⟨hl, rfl, rfl⟩
  · exact .inl rfl

theorem beginOpened_lifecycle (s : State) :
    (beginOpened s).lifecycle = s.lifecycle ∨
    ((beginOpened s).lifecycle = .ready ∧ (beginOpened s).result = some ⟨.ok, 1⟩) := by
  obtain ⟨t, rfl, h | ⟨e, h⟩⟩ := beginOpened_cases s <;> rw [h]
  · exact .inr ⟨rfl, rfl⟩
  · refine .inl ?_
    rw [State.raise_lifecycle, (closeSession_sameSurface _).lifecycle, (bracketed_sameSurface _ _).lifecycle,
      State.setWmode_lifecycle, resetPulse_lifecycle]

theorem execBegin_lifecycle {s t : State} (h : execBegin s = .next t) :
    t.lifecycle = s.lifecycle ∨
    (s.lifecycle = .uninitialized ∧ t.lifecycle = .ready ∧ t.result = some ⟨.ok, 1⟩) := by
  rcases execBegin_cases h with ⟨e, rfl⟩ | ⟨hl, ⟨_, rfl⟩ | rfl | rfl⟩
  · exact .inl rfl
  · exact .inl rfl
  · exact .inl (drawOpen_lifecycle s)
  · rcases beginOpened_lifecycle (((drawOpen s).2.setSession .opened).emit
      (.sessionOpen (drawOpen s).2.cfg.sessionConf)) with hk | ⟨hk, hr⟩
    · exact .inl (hk.trans (drawOpen_lifecycle s))
    · exact .inr ⟨hl, hk, hr⟩

/-- Settles O13: every operation but `BEGIN` and `END` keeps the lifecycle, and of the ways these two can end only the one that
returns `OK` does not. -/
theorem lifecycleMovesOnlyByBeginAndEnd : Obligations.LifecycleMovesOnlyByBeginAndEnd := by
  intro i s t h hm
  by_cases hb : i = .beginOp
  · subst hb
    obtain ⟨hl, hk, hr⟩ := (execBegin_lifecycle h).resolve_left hm
    exact ⟨by rw [hr]; rfl, .inl ⟨rfl, hl, hk⟩⟩
  by_cases he : i = .endOp
  · subst he
    obtain ⟨hl, hk, hr⟩ := (execEnd_lifecycle h).resolve_left hm
    exact ⟨by rw [hr]; rfl, .inr ⟨rfl, hl, hk⟩⟩
  · exact absurd (exec_lifecycle h hb he) hm

/-! An outermost bracket in a block that need not be ready: the one `BEGIN` opens (R130, R133). -/

/-- What a bracket leaves when it is closed again, whichever way the walk inside it ended: its events, the answers it took, and
everything else on the wire at rest. -/
structure BracketLeaves (s t : State) (n : Nat) (evs : List Event) : Prop where
  sent : t.sent = s.sent ++ [.line .cs .low] ++ evs ++ [.line .cs .high]
  xfers : t.xfers = s.xfers.drop n
  wmode : t.wmode = false
  dcLine : t.dcLine = .driven .high
  frame : OnWire s t

/-- The wire before an outermost bracket: the session open, `DC` and `CS` high. -/
structure Outside (s : State) : Prop where
  depth : s.depth = 0
  session : s.session = .opened
  dc : s.dcLine = .driven .high
  cs : s.csLine = .driven .high

section
variable {s : State} (h : Outside s)
include h

theorem Outside.startWrite_sent : (startWrite s).sent = s.sent ++ [.line .cs .low] := by
  simp [State.sent, h.depth, Event.sent]

/-- Opening the bracket and closing it undo each other but for the wire. -/
theorem Outside.endWrite_onWire {t : State} (g : OnWire (startWrite s) t) : OnWire s (endWrite t) := by
  have hd : t.depth = 1 := by rw [g.depth, startWrite_depth, h.depth]
  constructor
  case depth => rw [endWrite_depth, hd, h.depth]
  case csLine => rw [endWrite_csLine, hd, h.cs]; rfl
  all_goals simp [g.lifecycle, g.width, g.height, g.rotation, g.resetLine, g.session, g.result, g.cfg, g.src, g.opens,
    g.requests, g.faultMark]

theorem Outside.bracketLeaves {t : State} {n : Nat} {evs : List Event} (hs : t.sent = (startWrite s).sent ++ evs)
    (hx : t.xfers = (startWrite s).xfers.drop n) (hdc : t.dcLine = .driven .high) (g : OnWire (startWrite s) t) :
    BracketLeaves s (endWrite t) n evs := by
  have hd : t.depth - 1 = 0 := by rw [g.depth, startWrite_depth, h.depth]
  refine ⟨?_, ?_, ?_, ?_, h.endWrite_onWire g⟩
  · rw [h.startWrite_sent, State.sent] at hs
    rw [State.sent, endWrite_trace, if_pos hd, List.map_append, hs]
    rfl
  · rw [endWrite_xfers, hx, startWrite_xfers]
  · rw [endWrite_wmode, if_pos hd]
  · rw [endWrite_dcLine, hdc]

theorem Outside.bracketed_sends (is : List WireItem) (ha : Answers s (walkExchanges is)) :
    ∃ t, bracketed (runItems is) s = (none, t) ∧ BracketLeaves s t (walkExchanges is) (walkEvents is) := by
  obtain ⟨t, ht, g⟩ := runItems_sends is (s := startWrite s) (by simpa using h.session) (by simpa [Answers] using ha)
  refine ⟨endWrite t, by rw [bracketed, ht], h.bracketLeaves g.sent g.xfers ?_ g.frame⟩
  rw [g.dcLine, startWrite_dcLine, h.dc, walkDc_high]

theorem Outside.bracketed_breaks (is : List WireItem) {k : Nat} (hk : k < walkExchanges is) (hf : FailsAt s k) :
    ∃ t, bracketed (runItems is) s = (some .transferFailure, t) ∧
      BracketLeaves s t (k + 1) (failAt k (walkEvents is)) := by
  obtain ⟨t, ht, g⟩ := runItems_breaks is (s := startWrite s) (by simpa using h.session) (by simpa using h.dc) k hk
    (by simpa [FailsAt, Answers] using hf)
  exact ⟨endWrite t, by rw [bracketed, ht], h.bracketLeaves g.sent g.xfers g.dcLine g.frame⟩

end

/-! `BEGIN` (R130, R249). -/

theorem execBegin_not_fresh {s : State} (hl : s.lifecycle ≠ .uninitialized) : Refuses .beginOp s .notReady :=
  refuses_of (by rw [exec, execBegin, freshCheck, guarded_fail (decide_eq_false hl) rfl])

theorem execBegin_denied {s : State} {os : List Bool} (hl : s.lifecycle = .uninitialized) (hs : s.session ≠ .opened)
    (ho : s.opens = false :: os) : exec .beginOp s = .next ((s.setOpens os).raise .deviceUnavailable) := by
  rw [exec, execBegin, freshCheck, guarded_pass (decide_eq_true hl), guarded_nil, openSession_denied hs ho]

/-- The state in which `BEGIN` goes on once its open has been answered with yes. -/
def State.granted (s : State) (os : List Bool) : State :=
  ((s.setOpens os).setSession .opened).emit (.sessionOpen s.cfg.sessionConf)

theorem execBegin_granted {s : State} {os : List Bool} (hl : s.lifecycle = .uninitialized) (hs : s.session ≠ .opened)
    (ho : s.opens = true :: os) : exec .beginOp s = .next (beginOpened (s.granted os)) := by
  rw [exec, execBegin, freshCheck, guarded_pass (decide_eq_true hl), guarded_nil, openSession_granted hs ho]
  rfl

@[simp] theorem granted_cfg (s : State) (os : List Bool) : (s.granted os).cfg = s.cfg := rfl

/-- The open and the pulse are what `BEGIN` sends before its bracket. -/
theorem granted_sent_pulse (s : State) (os : List Bool) :
    (s.granted os).sent ++ (beginPulse s.cfg).tail = s.sent ++ beginPulse s.cfg := by
  rw [State.granted, sent_emit, List.append_assoc]
  rfl

section
variable (s : State)

@[simp] theorem resetPulse_width : (resetPulse s).width = s.width := by simp [resetPulse, State.wait]
@[simp] theorem resetPulse_height : (resetPulse s).height = s.height := by simp [resetPulse, State.wait]
@[simp] theorem resetPulse_rotation : (resetPulse s).rotation = s.rotation := by simp [resetPulse, State.wait]
@[simp] theorem resetPulse_opens : (resetPulse s).opens = s.opens := by simp [resetPulse, State.wait]
@[simp] theorem resetPulse_xfers : (resetPulse s).xfers = s.xfers := by simp [resetPulse, State.wait]
@[simp] theorem resetPulse_faultMark : (resetPulse s).faultMark = s.faultMark := by simp [resetPulse, State.wait]

/-- The pulse is what `BEGIN` sends between its open and its bracket. -/
@[simp] theorem resetPulse_sent : (resetPulse s).sent = s.sent ++ (beginPulse s.cfg).tail := by
  simp [State.sent, resetPulse, State.wait, beginPulse, Event.sent, Config.tSettleMs, Config.tResetMs, Config.tBootMs]

@[simp] theorem State.setWmode_sent (w : Bool) : (s.setWmode w).sent = s.sent := rfl

end

theorem resetPulse_outside {s : State} (hs : s.session = .opened) (hd : s.depth = 0) :
    Outside ((resetPulse s).setWmode false) where
  depth := by simpa using hd
  session := by simpa using hs
  dc := by simp
  cs := by simp

/-- The reset pulse and the bracket of `BEGIN`, whichever way the walk inside it ended: what they sent, the answers they took, the
lines high, and all else as it was. -/
structure PulseAndBracket (s t : State) (n : Nat) (evs : List Event) : Prop where
  sent : t.sent = s.sent ++ (beginPulse s.cfg).tail ++ [.line .cs .low] ++ evs ++ [.line .cs .high]
  xfers : t.xfers = s.xfers.drop n
  wmode : t.wmode = false
  resetLine : t.resetLine = .driven .high
  dcLine : t.dcLine = .driven .high
  csLine : t.csLine = .driven .high
  lifecycle : t.lifecycle = s.lifecycle
  width : t.width = s.width
  height : t.height = s.height
  rotation : t.rotation = s.rotation
  depth : t.depth = s.depth
  session : t.session = s.session
  cfg : t.cfg = s.cfg
  src : t.src = s.src
  opens : t.opens = s.opens
  requests : t.requests = s.requests
  faultMark : t.faultMark = s.faultMark

theorem BracketLeaves.afterPulse {s t : State} {n : Nat} {evs : List Event}
    (g : BracketLeaves ((resetPulse s).setWmode false) t n evs) : PulseAndBracket s t n evs where
  sent := by simpa using g.sent
  xfers := by simpa using g.xfers
  wmode := g.wmode
  resetLine := by simpa using g.frame.resetLine
  dcLine := g.dcLine
  csLine := by simpa using g.frame.csLine
  lifecycle := by simpa using g.frame.lifecycle
  width := by simpa using g.frame.width
  height := by simpa using g.frame.height
  rotation := by simpa using g.frame.rotation
  depth := by simpa using g.frame.depth
  session := by simpa using g.frame.session
  cfg := by simpa using g.frame.cfg
  src := by simpa using g.frame.src
  opens := by simpa using g.frame.opens
  requests := by simpa using g.frame.requests
  faultMark := by simpa using g.frame.faultMark

/-- `BEGIN` after its open, every exchange answered with success. -/
theorem beginOpened_returns {s : State} (hs : s.session = .opened) (hd : s.depth = 0) (ha : Answers s (beginExchanges s.cfg)) :
    ∃ t, beginOpened s = t.recordReady.complete .ok 1 ∧
      PulseAndBracket s t (beginExchanges s.cfg) (beginFrames s.cfg) := by
  rw [← walkExchanges_begin] at ha ⊢
  obtain ⟨t, ht, g⟩ := (resetPulse_outside hs hd).bracketed_sends (beginItems s.cfg) (by simpa [Answers] using ha)
  rw [walkEvents_begin] at g
  exact ⟨t, by rw [beginOpened, ht], g.afterPulse⟩

/-- `BEGIN` after its open, ended by its exchange numbered `k`: it closes the session again. -/
theorem beginOpened_fails {s : State} (hs : s.session = .opened) (hd : s.depth = 0) {k : Nat} (hk : k < beginExchanges s.cfg)
    (hf : FailsAt s k) :
    ∃ t, beginOpened s = ((t.setSession .released).emit .sessionClose).raise .transferFailure ∧
      PulseAndBracket s t (k + 1) (failAt k (beginFrames s.cfg)) := by
  rw [← walkExchanges_begin] at hk
  obtain ⟨t, ht, g⟩ := (resetPulse_outside hs hd).bracketed_breaks (beginItems s.cfg) hk (by simpa [FailsAt, Answers] using hf)
  rw [walkEvents_begin] at g
  have hc := closeSession_opened (g.afterPulse.session.trans hs)
  exact ⟨t, by simp only [beginOpened, ht, hc], g.afterPulse⟩

/-- Settles O9: past its check and its open `BEGIN` is the reset pulse and an outermost bracket around its walk, and then it
records `Ready` or closes the session again. -/
theorem beginFollowsItsRule : Obligations.BeginFollowsItsRule := by
  refine ⟨encodedAs_fields (i := .beginOp) rfl, fun s => ⟨execBegin_not_fresh, ?denied, ?returns, ?fails⟩⟩
  case denied =>
    intro os hl hs ho
    rw [execBegin_denied hl hs ho]
    exact congrArg _ (complete_of_not_misuse rfl _ 0)
  case returns =>
    intro os hl hs hd ho ha
    obtain ⟨t, ht, g⟩ := beginOpened_returns (s := s.granted os) rfl hd ha
    have hsent : t.sent = s.sent ++ beginPulse s.cfg ++ [.line .cs .low] ++ beginFrames s.cfg ++ [.line .cs .high] := by
      rw [g.sent, granted_cfg, granted_sent_pulse]
    exact ⟨_, (execBegin_granted hl hs ho).trans (congrArg _ ht), rfl, hsent, rfl, congrArg Cfg.w0 g.cfg, congrArg Cfg.h0 g.cfg,
      rfl, g.depth.trans hd, g.session, g.wmode, g.resetLine, g.dcLine, g.csLine, g.xfers, g.opens, g.cfg, g.src, g.requests,
      (Bool.or_false _).trans g.faultMark⟩
  case fails =>
    intro os hl hs hd ho k hk hf
    obtain ⟨t, ht, g⟩ := beginOpened_fails (s := s.granted os) rfl hd hk hf
    have hsent : (((t.setSession .released).emit .sessionClose).raise .transferFailure).sent =
        s.sent ++ beginPulse s.cfg ++ [.line .cs .low] ++ failAt k (beginFrames s.cfg) ++ [.line .cs .high, .sessionClose] := by
      have hclose : (((t.setSession .released).emit .sessionClose).raise .transferFailure).sent = t.sent ++ [.sessionClose] :=
        sent_emit (t.setSession .released) .sessionClose
      rw [hclose, g.sent, granted_cfg, granted_sent_pulse, List.append_assoc _ [Event.line .cs .high]]
      rfl
    exact ⟨_, (execBegin_granted hl hs ho).trans (congrArg _ ht), rfl, hsent, g.lifecycle.trans hl, g.width, g.height, g.rotation,
      g.depth.trans hd, rfl, g.wmode, g.resetLine, g.dcLine, g.csLine, g.xfers, g.opens, g.cfg, g.src, g.requests,
      (Bool.or_false _).trans g.faultMark⟩

end Sys2Proof.Machine

/-! PROOFS. The protocol family (spec 42_protocol.md): the transaction bracket, the data procedures, and the primitives a host
sends inside a bracket. -/

namespace Sys2Proof.Machine

/-! The data procedures as walks over their bytes (R151). -/

theorem andThen_skip (p : Proc) : p.andThen Proc.skip = p := by
  funext s
  unfold Proc.andThen
  rcases p s with ⟨_ | e, t⟩ <;> rfl

theorem data8_eq_walk (b : Byte) : data8 b = runItems ([b].map .data) := (andThen_skip (data8 b)).symm

theorem data16_eq_walk (v : Half) : data16 v = runItems ((halfBytes v).map .data) :=
  congrArg (data8 (hi8 v)).andThen (data8_eq_walk (lo8 v))

theorem data32_eq_walk (v : Word32) : data32 v = runItems ((halfBytes (hi16 v) ++ halfBytes (lo16 v)).map .data) := by
  rw [List.map_append, runItems_append, ← data16_eq_walk, ← data16_eq_walk, data32]

/-- A byte of a half is a byte of the whole value. -/
theorem extractLsb'_of_half (v : Word32) {a b : Nat} (h : a + 8 ≤ 16) :
    (v.extractLsb' b 16).extractLsb' a 8 = v.extractLsb' (b + a) 8 := by
  ext i hi
  simp [show a + i < 16 by omega, Nat.add_assoc]

theorem halves_bytes (v : Word32) : halfBytes (hi16 v) ++ halfBytes (lo16 v) =
    [v.extractLsb' 24 8, v.extractLsb' 16 8, v.extractLsb' 8 8, v.extractLsb' 0 8] := by
  simp [halfBytes, hi8, lo8, hi16, lo16, extractLsb'_of_half]

theorem OnWire.keeps {s t : State} (h : OnWire s t) (hd : t.dcLine = s.dcLine) : Keeps s t :=
  ⟨h.lifecycle, h.width, h.height, h.rotation, h.depth, h.resetLine, hd, h.csLine, h.session, h.cfg, h.src, h.opens,
    h.requests, h.faultMark⟩

/-- The walk of any bytes sends them, whatever level `DC` has. -/
theorem runBytes_sendsBytes (bs : List Byte) : SendsBytes (runItems (bs.map .data)) bs := by
  intro s hs
  refine ⟨fun ha => ?_, fun k hk hf => ?_⟩
  · obtain ⟨t, ht, g⟩ := runBytes_sends bs hs ha
    exact ⟨t, ht, g.sent, g.xfers, g.wmode, g.frame.keeps g.dcLine⟩
  · obtain ⟨t, ht, hsent, hxfers, hwmode, hdc, -, hframe⟩ := runBytes_breaks bs hs k hk hf
    exact ⟨t, ht, by rw [hsent, List.append_assoc], hxfers, hwmode, hframe.keeps hdc⟩

/-- Settles O21: each of the three procedures is the walk of its bytes. -/
theorem dataProceduresSendHighBytesFirst : Obligations.DataProceduresSendHighBytesFirst := by
  refine ⟨fun b => ?_, fun v => ?_, fun v => ?_⟩
  · rw [data8_eq_walk]
    exact runBytes_sendsBytes [b]
  · rw [data16_eq_walk]
    exact runBytes_sendsBytes (halfBytes v)
  · rw [data32_eq_walk, halves_bytes]
    exact runBytes_sendsBytes _

/-! The bracket (R153 to R156). -/

theorem startWrite_inside {s : State} (hd : 1 ≤ s.depth) : startWrite s = s.setDepth (s.depth + 1) := by
  rw [startWrite, if_neg (by omega)]

theorem startWrite_outside {s : State} (hd : s.depth = 0) : startWrite s = (s.drive .cs .low).setDepth 1 := by
  rw [startWrite, if_pos hd, hd]

theorem endWrite_inside {s : State} (hd : 2 ≤ s.depth) : endWrite s = s.setDepth (s.depth - 1) := by
  rw [endWrite, if_neg (by omega)]

theorem endWrite_outermost {s : State} (hd : s.depth = 1) :
    endWrite s = ((s.setDepth 0).drive .cs .high).setWmode false := by
  rw [endWrite, hd, if_pos rfl]

/-- Settles O14: past its one check the operation is `startWrite`, and the panel takes no notice of `CS` going low. -/
theorem startWriteFollowsItsRule : Obligations.StartWriteFollowsItsRule := by
  refine ⟨encodedAs_fields (i := .startWrite) rfl, fun s => ⟨fun hl => ?_, fun hl hd => ?_, fun hl hd => ?_⟩⟩
  · exact refuses_of (by rw [exec, execStartWrite, readyCheck, guarded_fail (decide_eq_false hl) rfl])
  · rw [exec, execStartWrite_ready hl, startWrite_inside hd, complete_of_not_misuse rfl]
    rfl
  · refine ⟨s.draws + 1, ?_⟩
    rw [exec, execStartWrite_ready hl, startWrite_outside hd, complete_of_not_misuse rfl]
    rfl

/-- Settles O15: past its two checks the operation is `endWrite`, and the panel takes `CS` going high as the end of its frame. -/
theorem endWriteFollowsItsRule : Obligations.EndWriteFollowsItsRule := by
  refine ⟨encodedAs_fields (i := .endWrite) rfl, fun s => ⟨fun hl => ?_, fun hl hd => ?_, fun hl hd => ?_, fun hl hd => ?_⟩⟩
  · exact refuses_of (by rw [exec, execEndWrite, readyCheck, guarded_fail (decide_eq_false hl) rfl])
  · exact refuses_of (by
      rw [exec, execEndWrite, readyCheck, guarded_pass (decide_eq_true hl), bracketCheck, guarded_fail (by simp [hd]) rfl])
  · rw [exec, execEndWrite_inside hl (by omega), endWrite_inside hd, complete_of_not_misuse rfl]
    rfl
  · refine ⟨s.draws + 1, s.panel.onDeselect s.draws, ?_, onDeselect_deaf, fun hm hc => onDeselect_listens ⟨hm, hc⟩⟩
    rw [exec, execEndWrite_inside hl (by omega), endWrite_outermost hd, complete_of_not_misuse rfl]
    rfl

/-! The primitives inside a bracket: each is its checks and its walk (R157 to R163). -/

/-- Settles O16: the walk is one command byte. -/
theorem wrcmdFollowsItsRule : Obligations.WrcmdFollowsItsRule := by
  intro cmd
  refine ⟨encodedAs_fields (i := .wrCmd cmd) rfl, ?_⟩
  exact unbracketed_rule (fun _ => []) (fun _ => [.command cmd]) (fun _ => rfl) (fun _ => False.elim)
    fun _ _ _ => ⟨rfl, rfl, rfl, rfl⟩

theorem firstFailing_windowCheck (x y w h : Nat) : firstFailing [windowCheck x y w h] =
    if 1 ≤ w ∧ 1 ≤ h ∧ x + w - 1 ≤ 65535 ∧ y + h - 1 ≤ 65535 then none else some .badOperand := by
  simp [firstFailing, windowCheck, and_assoc]

/-- Settles O17: the walk is that of the window, whose last column and row do not overflow once the check has passed. -/
theorem setwinFollowsItsRule : Obligations.SetwinFollowsItsRule := by
  intro x y w h
  refine ⟨encodedAs_fields (i := .setWin x y w h) rfl, ?_⟩
  refine unbracketed_rule (fun _ => [windowCheck x.toNat y.toNat w.toNat h.toNat])
    (fun s => windowItems s.cfg x.toNat y.toNat w.toNat h.toNat) (fun _ => rfl) (fun s hbad => ?_) (fun s _ hgood => ?_)
  · rw [firstFailing_windowCheck, if_neg hbad]
  · obtain ⟨hw, hh, -, -⟩ := Classical.not_not.mp hgood
    refine ⟨by rw [firstFailing_windowCheck, if_pos (Classical.not_not.mp hgood)], ?_, walkExchanges_window .., walkWmode_window ..⟩
    rw [walkEvents_window, ofNat_last hw, ofNat_last hh, BitVec.ofNat_toNat, BitVec.ofNat_toNat, BitVec.setWidth_eq,
      BitVec.setWidth_eq]

/-- An operation whose walk is nothing but pixels sends two bytes a pixel and leaves `WMODE` alone (R163). -/
theorem pixels_rule {i : Instr} {bad : State → Prop} {n : Nat} (checks : State → List (Bool × Status))
    (items : State → List WireItem) (colours : State → List Colour)
    (he : ∀ s, exec i s =
      guarded (readyCheck s :: bracketCheck s :: checks s) (fun s => conclude (runItems (items s) s) 0) s)
    (hb : ∀ s, bad s → firstFailing (checks s) = some .badOperand)
    (hg : ∀ s, ¬ bad s → firstFailing (checks s) = none ∧ items s = (colours s).map .pixel)
    (hn : ∀ s, (colours s).length = n) :
    UnbracketedRule i bad (fun s => pixelEvents (colours s)) (fun _ => 2 * n) (fun s => s.wmode) := by
  refine unbracketed_rule checks items he hb fun s _ hgood => ?_
  obtain ⟨hc, hi⟩ := hg s hgood
  refine ⟨hc, ?_, ?_, ?_⟩ <;> rw [hi]
  · exact walkEvents_pixels _
  · rw [walkExchanges_pixels, hn]
  · exact walkWmode_pixels ..

/-- Settles O18: the walks are one pixel and `n` pixels of the colour. -/
theorem wrpixAndWrcolorFollowTheirRules : Obligations.WrpixAndWrcolorFollowTheirRules := by
  refine ⟨fun color => ⟨encodedAs_fields (i := .wrPix color) rfl, ?_⟩,
    fun color n => ⟨encodedAs_fields (i := .wrColor color n) rfl, ?_⟩⟩
  · exact pixels_rule (n := 1) (fun _ => []) (fun _ => [.pixel color]) (fun _ => [color]) (fun _ => rfl) (fun _ => False.elim)
      (fun _ _ => ⟨rfl, rfl⟩) (fun _ => rfl)
  · exact pixels_rule (fun _ => []) (fun _ => List.replicate n.toNat (.pixel color)) (fun _ => List.replicate n.toNat color)
      (fun _ => rfl) (fun _ => False.elim) (fun _ _ => ⟨rfl, replicate_pixels ..⟩) (fun _ => List.length_replicate)

/-! The stream from the source buffer (R158). -/

/-- One of the colours of a stream is outside the 32-bit range or not defined (R158, 20_memory.md R57). -/
abbrev StreamUndefined (s : State) (p n : Nat) : Prop := ∃ k < n, 2 ^ 32 ≤ p + k ∨ s.src.read (p + k) = none

/-- The colours of a stream from the source buffer, in index order. -/
def streamColours (s : State) (p n : Nat) : List Colour := (List.range n).map fun k => (s.src.read (p + k)).getD 0

section
variable {s : State} {p n : Nat}

theorem streamItems_defined (h : ¬ StreamUndefined s p n) : streamItems s p n = some ((streamColours s p n).map .pixel) := by
  refine streamItems_eq (by simp [streamColours]) fun k hk => ?_
  have hr : p + k < 2 ^ 32 := Nat.lt_of_not_le fun hle => h ⟨k, hk, .inl hle⟩
  obtain ⟨c, hc⟩ := Option.ne_none_iff_exists'.mp fun hnone => h ⟨k, hk, .inr hnone⟩
  exact ⟨hr, by simp [streamColours, hk, hc]⟩

theorem streamItems_undefined (h : StreamUndefined s p n) : streamItems s p n = none := by
  obtain ⟨k, hk, hbad⟩ := h
  have hg : s.src.gather ((List.range n).map fun k => p + k) = none := by
    rw [← Option.not_isSome_iff_eq_none, gather_isSome]
    intro hall
    obtain ⟨hr, hdef⟩ := hall (p + k) (List.mem_map.mpr ⟨k, List.mem_range.mpr hk, rfl⟩)
    exact hbad.elim (Nat.not_le_of_lt hr) hdef
  rw [streamItems, hg]

theorem streamCheck_defined (h : ¬ StreamUndefined s p n) : streamCheck s p n = (true, .badOperand) := by
  rw [streamCheck, streamItems_defined h, Option.isSome_some]

theorem streamCheck_undefined (h : StreamUndefined s p n) : streamCheck s p n = (false, .badOperand) := by
  rw [streamCheck, streamItems_undefined h, Option.isSome_none]

end

/-- Settles O19: the check is whether the buffer defines every colour, and then the walk is the pixels of the colours. -/
theorem wrpixsFollowsItsRule : Obligations.WrpixsFollowsItsRule := by
  intro p n
  refine ⟨encodedAs_fields (i := .wrPixs p n) rfl, ?_⟩
  exact pixels_rule (fun s => [streamCheck s p.toNat n.toNat]) (fun s => (streamItems s p.toNat n.toNat).getD [])
    (fun s => streamColours s p.toNat n.toNat) (fun _ => rfl)
    (fun _ hbad => by rw [streamCheck_undefined hbad]; rfl)
    (fun _ hgood => ⟨by rw [streamCheck_defined hgood]; rfl, by rw [streamItems_defined hgood]; rfl⟩)
    (fun _ => by simp [streamColours])

/-! Streams of one colour (R96, R163). -/

/-- Where the buffer holds one colour at every index read, the stream's walk is that of a repeated colour. -/
theorem streamItems_replicate {s : State} {p n : Nat} {c : Colour}
    (h : ∀ k < n, p + k < 2 ^ 32 ∧ s.src.read (p + k) = some c) : streamItems s p n = some (List.replicate n (.pixel c)) := by
  rw [replicate_pixels]
  exact streamItems_eq List.length_replicate fun k hk => ⟨(h k hk).1, by rw [(h k hk).2, List.getElem?_replicate_of_lt hk]⟩

/-- Settles O20: one pixel is a colour repeated once, and the check that `WRPIXS` has after those of `WRCOLOR` passes. -/
theorem streamsOfOneColourAgree : Obligations.StreamsOfOneColourAgree := by
  refine ⟨fun _ _ => rfl, fun c p n s h => ?_⟩
  have hi := streamItems_replicate h
  have hcheck : streamCheck s p.toNat n.toNat = (true, .badOperand) := by rw [streamCheck, hi, Option.isSome_some]
  simp only [exec, execWrColor, execWrPixs, guarded, hi, hcheck, Option.getD_some,
    ← firstFailing_snoc_pass [readyCheck s, bracketCheck s] .badOperand, List.cons_append, List.nil_append]

end Sys2Proof.Machine

/-! PROOFS. The drawing family (spec 43_drawing.md): the clipper's laws, the drawing operations without and with a bracket of
their own, and where their pixels land. -/

namespace Sys2Proof.Machine

/-! The clipper (R182), one axis at a time. -/

section
variable {a n bound : Int}

/-- Law 3 on one axis: the visible part is no longer than the span or the surface, and lies on the surface. -/
theorem span_inside (hv : spanLo a ≤ spanHi a n bound) :
    1 ≤ spanHi a n bound - spanLo a + 1 ∧ spanHi a n bound - spanLo a + 1 ≤ min n bound ∧ 0 ≤ spanLo a ∧
      spanLo a + (spanHi a n bound - spanLo a + 1) - 1 ≤ bound - 1 := by
  unfold spanLo spanHi at *
  omega

/-- Law 5 on one axis: clipped on both sides, the whole surface is left. -/
theorem span_whole (ha : a < 0) (hn : bound ≤ a + n - 1) :
    spanLo a = 0 ∧ spanHi a n bound - spanLo a + 1 = bound := by
  unfold spanLo spanHi
  omega

theorem spanLo_idem (a : Int) : spanLo (spanLo a) = spanLo a := by
  unfold spanLo
  omega

theorem spanHi_of_visible (a n bound : Int) :
    spanHi (spanLo a) (spanHi a n bound - spanLo a + 1) bound = spanHi a n bound := by
  unfold spanHi
  omega

/-- The values of one axis on the way, for operands of signed 16 bits. -/
theorem span_values_in_range (h1 : 1 ≤ bound) (hb : bound ≤ 65535) (hlo : -32768 ≤ a) (hhi : a ≤ 32767) (hn : 1 ≤ n)
    (hn' : n ≤ 32767) :
    ∀ v ∈ [a + n - 1, spanLo a - a, n - (spanLo a - a), bound - spanLo a], -65537 ≤ v ∧ v ≤ 65535 := by
  unfold spanLo
  simp only [List.forall_mem_cons]
  refine ⟨?_, ?_, ?_, ?_, fun _ h => absurd h List.not_mem_nil⟩ <;> omega

end

section
variable {W H x y w h : Int} (hW : 1 ≤ W) (hH : 1 ≤ H) (hw : 1 ≤ w) (hh : 1 ≤ h)
include hW hH hw hh

/-- Law 1. -/
theorem clip_dropped_iff : clip W H x y w h = .dropped ↔ spanHi x w W < spanLo x ∨ spanHi y h H < spanLo y := by
  rw [clip_eq hW hH x y hw hh]
  split <;> simp only [reduceCtorEq, false_iff, true_iff] <;> omega

/-- Laws 1 and 2 together: a window is answered for a visible rectangle, and is the intersection. -/
theorem clip_window_iff {x' y' w' h' dx dy : Int} : clip W H x y w h = .window x' y' w' h' dx dy ↔
    (spanLo x ≤ spanHi x w W ∧ spanLo y ≤ spanHi y h H) ∧ spanLo x = x' ∧ spanLo y = y' ∧
      spanHi x w W - spanLo x + 1 = w' ∧ spanHi y h H - spanLo y + 1 = h' ∧ spanLo x - x = dx ∧ spanLo y - y = dy := by
  rw [clip_eq hW hH x y hw hh]
  split
  case isTrue hv => rw [ClipResult.window.injEq, and_iff_right hv]
  case isFalse hv => simp only [reduceCtorEq, hv, false_and]

/-- Law 6. -/
theorem clip_idem {x' y' w' h' dx dy : Int} (hc : clip W H x y w h = .window x' y' w' h' dx dy) :
    clip W H x' y' w' h' = .window x' y' w' h' 0 0 := by
  obtain ⟨⟨hx, hy⟩, rfl, rfl, rfl, rfl, -, -⟩ := (clip_window_iff hW hH hw hh).mp hc
  obtain ⟨hx1, -⟩ := span_inside hx
  obtain ⟨hy1, -⟩ := span_inside hy
  rw [clip_window_iff hW hH hx1 hy1]
  simp only [spanLo_idem, spanHi_of_visible, Int.sub_self, and_self, hx, hy]

end

/-- Law 4: the pixel count of a window inside the largest surface. -/
theorem pixel_count_fits {w h : Int} (hw : w ≤ 65535) (hh1 : 1 ≤ h) (hh : h ≤ 65535) :
    w * h ≤ 65535 * 65535 ∧ w * h < 2 ^ 32 := by
  have := Int.mul_le_mul hw hh (by omega) (by omega)
  omega

/-- Settles O22: the clipper is the intersection (`clip_window_iff`), whose laws hold axis by axis. -/
theorem clipMeetsItsSixLaws : Obligations.ClipMeetsItsSixLaws := by
  intro W H x y w h hW hW' hH hH' hw hh
  refine ⟨clip_dropped_iff hW hH hw hh, fun hvisible => ?_, fun x' y' w' h' dx dy hc => ?_, ?_⟩
  · rw [Ne, clip_dropped_iff hW hH hw hh] at hvisible
    exact (clip_window_iff hW hH hw hh).mpr ⟨by omega, rfl, rfl, rfl, rfl, rfl, rfl⟩
  · have hagain := clip_idem hW hH hw hh hc
    obtain ⟨⟨hx, hy⟩, rfl, rfl, rfl, rfl, -, -⟩ := (clip_window_iff hW hH hw hh).mp hc
    have hcols := span_inside hx
    have hrows := span_inside hy
    exact ⟨by omega, pixel_count_fits (by omega) (by omega) (by omega), span_whole, span_whole, hagain⟩
  · intro hx hx' hw' hy hy' hh'
    have hcols := span_values_in_range hW hW' hx hx' hw hw'
    have hrows := span_values_in_range hH hH' hy hy' hh hh'
    simp only [List.forall_mem_cons] at hcols hrows ⊢
    obtain ⟨hx2, hdx, hw1, hroom, hnil⟩ := hcols
    obtain ⟨hy2, hdy, hh1, hroom', -⟩ := hrows
    exact ⟨hx2, hy2, hdx, hdy, hw1, hh1, hroom, hroom', hnil⟩

/-! The walk of a drawing request (R183, R184, R187). -/

/-- The window of the visible part of a rectangle and pixels of the colours given; nothing where no pixel is visible. -/
def drawItems (s : State) (x y w h : Int) (cs : List Colour) : List WireItem :=
  if Visible s x y w h then visibleWindow s x y w h ++ cs.map .pixel else []

theorem drawItems_visible {s : State} {x y w h : Int} (hv : Visible s x y w h) (cs : List Colour) :
    drawItems s x y w h cs = visibleWindow s x y w h ++ cs.map .pixel := if_pos hv

theorem drawItems_invisible {s : State} {x y w h : Int} (hv : ¬ Visible s x y w h) (cs : List Colour) :
    drawItems s x y w h cs = [] := if_neg hv

/-- The colours given are one for each visible pixel. -/
abbrev FillsVisible (s : State) (x y w h : Int) (cs : List Colour) : Prop :=
  Visible s x y w h → cs.length = visibleCount s x y w h

theorem drawItems_exchanges {s : State} {x y w h : Int} {cs : List Colour} (hc : FillsVisible s x y w h cs) :
    walkExchanges (drawItems s x y w h cs) = drawExchanges s x y w h := by
  by_cases hv : Visible s x y w h
  · exact visible_exchanges cs (hc hv)
  · rw [drawItems_invisible hv, drawExchanges, if_neg hv, walkExchanges_nil]

/-- The operand checks and the walk of a drawing operation on the rectangle: the checks refuse exactly the operands its rule
refuses, and past them the walk is that of `colours`, one for each visible pixel. -/
structure Draws (x y w h : Int) (bad : State → Prop) (checks : State → List (Bool × Status))
    (items : State → List WireItem) (colours : State → List Colour) : Prop where
  refused : ∀ s, bad s → firstFailing (checks s) = some .badOperand
  admitted : ∀ s, Between s → ¬ bad s → firstFailing (checks s) = none
  walk : ∀ s, Between s → ¬ bad s → items s = drawItems s x y w h (colours s)
  count : ∀ s, FillsVisible s x y w h (colours s)

section
variable {i : Instr} {x y w h : Int} {bad : State → Prop} {checks : State → List (Bool × Status)}
variable {items : State → List WireItem} {colours : State → List Colour} (hd : Draws x y w h bad checks items colours)
include hd

theorem Draws.sends {s : State} (hb : Between s) (hgood : ¬ bad s) :
    firstFailing (checks s) = none ∧ walkEvents (items s) = drawEvents s x y w h (colours s) ∧
      walkExchanges (items s) = drawExchanges s x y w h ∧ walkWmode s.cfg (items s) s.wmode = drawWmode s x y w h := by
  rw [hd.walk s hb hgood]
  exact ⟨hd.admitted s hb hgood, visible_events _, drawItems_exchanges (hd.count s), visible_wmode _⟩

theorem Draws.followsUnbracketed (he : ∀ s, exec i s =
      guarded (readyCheck s :: bracketCheck s :: checks s) (fun s => conclude (runItems (items s) s) 0) s) :
    UnbracketedRule i bad (fun s => drawEvents s x y w h (colours s)) (fun s => drawExchanges s x y w h)
      (fun s => drawWmode s x y w h) :=
  unbracketed_rule checks items he hd.refused fun _ hb hgood => hd.sends hb hgood

theorem Draws.followsBracketed (he : ∀ s, exec i s =
      guarded (readyCheck s :: checks s) (fun s => conclude (bracketed (runItems (items s)) s) 0) s) :
    BracketedRule i bad id (fun _ => 0) (fun s => drawEvents s x y w h (colours s)) (fun s => drawExchanges s x y w h)
      (fun s => drawWmode s x y w h) :=
  bracketed_rule checks items he hd.refused (fun _ => ⟨rfl, rfl, rfl, rfl⟩)
    fun _ hb hgood => ⟨hb.onBus, hd.sends hb hgood⟩

end

/-! Fills (R184, R195). -/

theorem firstFailing_extent_refused {w h : Int} (hbad : w < 1 ∨ h < 1) (cs : List (Bool × Status)) :
    firstFailing (extentCheck w h :: cs) = some .badOperand :=
  firstFailing_fail (by simp only [Bool.and_eq_false_iff, decide_eq_false_iff_not]; omega)

theorem firstFailing_extent_passed {w h : Int} (hw : 1 ≤ w) (hh : 1 ≤ h) (cs : List (Bool × Status)) :
    firstFailing (extentCheck w h :: cs) = firstFailing cs :=
  firstFailing_pass (by simp [hw, hh])

/-- The colours of a fill. -/
def fillColours (s : State) (x y w h : Int) (c : Colour) : List Colour := List.replicate (visibleCount s x y w h) c

/-- A fill of a rectangle whose extents are bad exactly as `bad` says. -/
theorem fill_draws (x y w h : Int) (c : Colour) {bad : Prop} (hbad : bad ↔ w < 1 ∨ h < 1) :
    Draws x y w h (fun _ => bad) (fun _ => [extentCheck w h]) (fun s => rectItems s x y w h c)
      (fun s => fillColours s x y w h c) where
  refused _ hb := firstFailing_extent_refused (hbad.mp hb) []
  admitted _ _ hgood :=
    have hext := mt hbad.mpr hgood
    firstFailing_extent_passed (by omega) (by omega) []
  walk _ hb hgood := by
    obtain ⟨-, -, hW, hH⟩ := hb
    have hext := mt hbad.mpr hgood
    exact rectItems_eq hW hH x y (by omega) (by omega) c
  count _ _ := List.length_replicate

/-- The one colour of a pixel that is visible is the colour of a fill of one pixel. -/
theorem drawEvents_pixel (s : State) (x y : Int) (c : Colour) :
    drawEvents s x y 1 1 (fillColours s x y 1 1 c) = drawEvents s x y 1 1 [c] := by
  have hspan : ∀ {a bound : Int}, spanLo a ≤ spanHi a 1 bound → spanLen a 1 bound = 1 := by
    intro a bound hv
    unfold spanLen spanLo spanHi at *
    omega
  by_cases hv : Visible s x y 1 1
  · rw [fillColours, visibleCount, if_pos hv, hspan hv.1, hspan hv.2, List.replicate_one]
  · rw [drawEvents, if_neg hv, drawEvents, if_neg hv]

theorem pixel_bad_iff : False ↔ (1 : Int) < 1 ∨ (1 : Int) < 1 := ⟨False.elim, by omega⟩

/-- A line's length is its only bad extent. -/
theorem line_bad_iff {len : Int} : (len < 1 ↔ len < 1 ∨ (1 : Int) < 1) ∧ (len < 1 ↔ (1 : Int) < 1 ∨ len < 1) := by
  omega

/-- Settles O23: the pixel is the fill of one pixel, without its extent check, which passes. -/
theorem wpixelFollowsItsRule : Obligations.WpixelFollowsItsRule := by
  intro x y color
  refine ⟨encodedAs_fields (i := .wPixel x y color) rfl, ?_⟩
  simp only [← drawEvents_pixel]
  exact (fill_draws x.toInt y.toInt 1 1 color pixel_bad_iff).followsUnbracketed (execWPixel_eq x y color)

/-- Settles O24: the three fill their rectangle. -/
theorem unbracketedFillsFollowTheirRules : Obligations.UnbracketedFillsFollowTheirRules := by
  refine ⟨fun x y w h color => ⟨encodedAs_fields (i := .wFillRect x y w h color) rfl, ?_⟩,
    fun x y len color => ⟨encodedAs_fields (i := .wHLine x y len color) rfl, ?_⟩,
    fun x y len color => ⟨encodedAs_fields (i := .wVLine x y len color) rfl, ?_⟩⟩
  · exact (fill_draws x.toInt y.toInt w.toInt h.toInt color Iff.rfl).followsUnbracketed fun _ => rfl
  · exact (fill_draws x.toInt y.toInt len.toInt 1 color line_bad_iff.1).followsUnbracketed fun _ => rfl
  · exact (fill_draws x.toInt y.toInt 1 len.toInt color line_bad_iff.2).followsUnbracketed fun _ => rfl

/-- Settles O27: the pixel is the fill of one pixel, in a bracket of its own. -/
theorem drawpixelFollowsItsRule : Obligations.DrawpixelFollowsItsRule := by
  intro x y color
  refine ⟨encodedAs_fields (i := .drawPixel x y color) rfl, ?_⟩
  simp only [← drawEvents_pixel]
  exact (fill_draws x.toInt y.toInt 1 1 color pixel_bad_iff).followsBracketed (execDrawPixel_eq x y color)

/-- Settles O28: the three fill their rectangle in a bracket of their own. -/
theorem bracketedFillsFollowTheirRules : Obligations.BracketedFillsFollowTheirRules := by
  refine ⟨fun x y w h color => ⟨encodedAs_fields (i := .fillRect x y w h color) rfl, ?_⟩,
    fun x y len color => ⟨encodedAs_fields (i := .drawHLine x y len color) rfl, ?_⟩,
    fun x y len color => ⟨encodedAs_fields (i := .drawVLine x y len color) rfl, ?_⟩⟩
  · exact (fill_draws x.toInt y.toInt w.toInt h.toInt color Iff.rfl).followsBracketed fun _ => rfl
  · exact (fill_draws x.toInt y.toInt len.toInt 1 color line_bad_iff.1).followsBracketed fun _ => rfl
  · exact (fill_draws x.toInt y.toInt 1 len.toInt color line_bad_iff.2).followsBracketed fun _ => rfl

/-! The blit (R187, R195). -/

/-- A visible rectangle needs a surface. -/
theorem Visible.surface {s : State} {x y w h : Int} (hv : Visible s x y w h) :
    1 ≤ s.width.toNat ∧ 1 ≤ s.height.toNat := by
  obtain ⟨hx, hy⟩ := hv
  unfold spanLo spanHi at *
  omega

section
variable {s : State} {x y w h : Int} {p : Nat}

theorem bitmapCheck_undefined (hw : 1 ≤ w) (hh : 1 ≤ h) (hu : BlitUndefined s x y p w h) :
    bitmapCheck s x y p w h = (false, .badOperand) := by
  obtain ⟨hW, hH⟩ := Visible.surface hu.1
  rw [bitmapCheck, bitmapItems_eq hW hH x y p hw hh, if_pos hu, Option.isSome_none]

variable (hb : Between s) (hw : 1 ≤ w) (hh : 1 ≤ h) (hu : ¬ BlitUndefined s x y p w h)
include hb hw hh hu

theorem bitmapItems_defined : bitmapItems s x y p w h = some (drawItems s x y w h (blitColours s x y p w h)) := by
  obtain ⟨-, -, hW, hH⟩ := hb
  rw [bitmapItems_eq hW hH x y p hw hh, if_neg hu, drawItems]

theorem bitmapCheck_defined : bitmapCheck s x y p w h = (true, .badOperand) := by
  rw [bitmapCheck, bitmapItems_defined hb hw hh hu, Option.isSome_some]

end

theorem blit_draws (x y : Int) (p : Nat) (w h : Int) :
    Draws x y w h (fun s => w < 1 ∨ h < 1 ∨ BlitUndefined s x y p w h)
      (fun s => [extentCheck w h, bitmapCheck s x y p w h]) (fun s => (bitmapItems s x y p w h).getD [])
      (fun s => blitColours s x y p w h) where
  refused s hbad := by
    by_cases hext : w < 1 ∨ h < 1
    · exact firstFailing_extent_refused hext _
    · have hu : BlitUndefined s x y p w h := (or_assoc.mpr hbad).resolve_left hext
      rw [firstFailing_extent_passed (by omega) (by omega), bitmapCheck_undefined (by omega) (by omega) hu]
      rfl
  admitted s hb hgood := by
    obtain ⟨hw, hh, hu⟩ := by simpa only [not_or, Int.not_lt] using hgood
    rw [firstFailing_extent_passed hw hh, bitmapCheck_defined hb hw hh hu]
    rfl
  walk s hb hgood := by
    obtain ⟨hw, hh, hu⟩ := by simpa only [not_or, Int.not_lt] using hgood
    rw [bitmapItems_defined hb hw hh hu, Option.getD_some]
  count _ := blitColours_length

/-- Settles O26: past its checks the operation is the walk of the colours of `blit_draws`. -/
theorem wbitmapFollowsItsRule : Obligations.WbitmapFollowsItsRule := fun x y p w h =>
  ⟨encodedAs_fields (i := .wBitmap x y p w h) rfl,
    (blit_draws x.toInt y.toInt p.toNat w.toInt h.toInt).followsUnbracketed fun _ => rfl⟩

/-- Settles O29: the same walk in a bracket of its own. -/
theorem drawbitmapFollowsItsRule : Obligations.DrawbitmapFollowsItsRule := fun x y p w h =>
  ⟨encodedAs_fields (i := .drawBitmap x y p w h) rfl,
    (blit_draws x.toInt y.toInt p.toNat w.toInt h.toInt).followsBracketed fun _ => rfl⟩

/-! Inside a bracket of the host's (R189, R196). -/

/-- With a bracket open the bracket check passes, and a bracket around the walk sends nothing of its own. -/
theorem guarded_nested {s : State} (hd : 1 ≤ s.depth) (cs : List (Bool × Status)) (items : State → List WireItem) :
    guarded (readyCheck s :: cs) (fun s => conclude (bracketed (runItems (items s)) s) 0) s =
      guarded (readyCheck s :: bracketCheck s :: cs) (fun s => conclude (runItems (items s) s) 0) s := by
  have hcheck : bracketCheck s = (true, .noBracket) := by rw [bracketCheck, decide_eq_true hd]
  simp only [guarded, firstFailing, hcheck, if_true, bracketed_inner _ hd]

/-- Settles O30: in each pair the two differ in the bracket check and the bracket alone. -/
theorem nestedDrawingEqualsUnbracketed : Obligations.NestedDrawingEqualsUnbracketed := fun s hd =>
  ⟨fun x y c => guarded_nested hd [] fun s => pixelItems s x.toInt y.toInt c,
    fun x y w h c => guarded_nested hd [extentCheck w.toInt h.toInt] fun s => rectItems s x.toInt y.toInt w.toInt h.toInt c,
    fun x y len c => guarded_nested hd [extentCheck len.toInt 1] fun s => rectItems s x.toInt y.toInt len.toInt 1 c,
    fun x y len c => guarded_nested hd [extentCheck 1 len.toInt] fun s => rectItems s x.toInt y.toInt 1 len.toInt c,
    fun x y p w h => guarded_nested hd
      [extentCheck w.toInt h.toInt, bitmapCheck s x.toInt y.toInt p.toNat w.toInt h.toInt]
      fun s => (bitmapItems s x.toInt y.toInt p.toNat w.toInt h.toInt).getD []⟩

/-! Where the pixels of a drawing request land (20_memory.md R65). -/

theorem offset_lt {w h i j : Nat} (hi : i < w) (hj : j < h) : j * w + i < w * h :=
  calc j * w + i < (j + 1) * w := by rw [Nat.succ_mul]; omega
    _ ≤ h * w := Nat.mul_le_mul_right w hj
    _ = w * h := Nat.mul_comm h w

/-- The pixel `i` columns and `j` rows into a window. -/
theorem cellAt_offset (x y : Nat) {w h i j : Nat} (hi : i < w) (hj : j < h) :
    cellAt x y w h (j * w + i) = fbIndex (BitVec.ofNat 16 (x + i)) (BitVec.ofNat 16 (y + j)) := by
  have hmod : (j * w + i) % w = i := Nat.mul_add_mod_of_lt hi
  have hdiv : (j * w + i) / w = j := by
    rw [Nat.mul_comm, Nat.mul_add_div (Nat.zero_lt_of_lt hi), Nat.div_eq_of_lt hi, Nat.add_zero]
  rw [cellAt, hmod, hdiv, Nat.mod_eq_of_lt hj]

/-- A stream that fills its window once: each cell of the window holds the pixel of its offset, every other cell is as
before. -/
theorem paint_once {x y w h : Nat} (hw : 1 ≤ w) (hh : 1 ≤ h) (hx : x + w ≤ 65536) (hy : y + h ≤ 65536) {cs : List Colour}
    (hlen : cs.length = w * h) {m : Memory} (hm : m.wf = true) (col row : Half) :
    (paint x y w h 0 cs m).read (fbIndex col row) =
      if x ≤ col.toNat ∧ col.toNat < x + w ∧ y ≤ row.toNat ∧ row.toNat < y + h then
        cs[(row.toNat - y) * w + (col.toNat - x)]?
      else m.read (fbIndex col row) := by
  split
  case isTrue hin =>
    obtain ⟨hx1, hx2, hy1, hy2⟩ := hin
    have hi : col.toNat - x < w := by omega
    have hj : row.toNat - y < h := by omega
    have hhit := paint_hit (k := 0) hw hh hx hy hm (hlen ▸ offset_lt hi hj) (by rw [hlen]; exact Nat.le_add_left ..)
    rw [Nat.zero_add, cellAt_offset x y hi hj, Nat.add_sub_cancel' hx1, Nat.add_sub_cancel' hy1, BitVec.ofNat_toNat,
      BitVec.ofNat_toNat, BitVec.setWidth_eq, BitVec.setWidth_eq] at hhit
    exact hhit
  case isFalse hout =>
    refine paint_other hm fun k _ e => hout ?_
    have hcol := Nat.mod_lt (0 + k) hw
    have hrow := Nat.mod_lt ((0 + k) / w) hh
    obtain ⟨rfl, rfl⟩ := fbIndex_inj e
    simp only [BitVec.toNat_ofNat]
    omega

/-- The offset of a cell in the window of the visible part of a rectangle at `(x, y)` that is `w` wide. -/
def visibleOffset (s : State) (x y w : Int) (col row : Half) : Nat :=
  (row.toNat - (spanLo y).toNat) * spanLen x w s.width.toNat + (col.toNat - (spanLo x).toNat)

section
variable {s : State} {x y w h : Int}

theorem InRect.visible {col row : Half} (hin : InRect s x y w h col row) : Visible s x y w h := by
  unfold Visible spanLo spanHi
  omega

/-- On one axis: the cells from the first visible one on, as many as are visible, are those of the span and the surface. -/
theorem span_cells {a n : Int} {bound : Nat} (hv : spanLo a ≤ spanHi a n bound) (c : Nat) :
    (spanLo a).toNat ≤ c ∧ c < (spanLo a).toNat + spanLen a n bound ↔ a ≤ c ∧ (c : Int) < a + n ∧ c < bound := by
  unfold spanLen spanLo spanHi at *
  omega

theorem inRect_iff (hv : Visible s x y w h) {col row : Half} : InRect s x y w h col row ↔
    (spanLo x).toNat ≤ col.toNat ∧ col.toNat < (spanLo x).toNat + spanLen x w s.width.toNat ∧
      (spanLo y).toNat ≤ row.toNat ∧ row.toNat < (spanLo y).toNat + spanLen y h s.height.toNat := by
  rw [← and_assoc, span_cells hv.1, span_cells hv.2]
  simp only [and_assoc]

/-- The offset of a cell of the rectangle, taken apart. -/
theorem visibleOffset_lt {col row : Half} (hin : InRect s x y w h col row) :
    row.toNat - (spanLo y).toNat < spanLen y h s.height.toNat ∧ col.toNat - (spanLo x).toNat < spanLen x w s.width.toNat := by
  obtain ⟨h1, h2, h3, h4⟩ := (inRect_iff hin.visible).mp hin
  omega

/-- The visible part of a span, in the unsigned terms of an addressing window. -/
theorem span_window {a n : Int} {bound : Nat} (hv : spanLo a ≤ spanHi a n bound) :
    1 ≤ spanLen a n bound ∧ (spanLo a).toNat + spanLen a n bound ≤ bound := by
  unfold spanLen spanLo spanHi at *
  omega

theorem drawItems_pixelsOk (cs : List Colour) (b : Bool) : pixelsOk s.cfg (drawItems s x y w h cs) b := by
  by_cases hv : Visible s x y w h
  · rw [drawItems_visible hv]
    exact pixelsOk_window ..
  · rw [drawItems_invisible hv]
    trivial

/-- A drawing request at a panel that listens: the panel listens on, each cell of the intersection holds the colour of its
offset, and every other cell is as before. -/
theorem drawItems_panel {cs : List Colour} {p q : Panel} (hcfg : s.cfg.wf = true) (hl : p.Listens) (hfb : p.fb.wf = true)
    (hcount : FillsVisible s x y w h cs) (g : PWalk s.cfg s.width s.height (drawItems s x y w h cs) p q) :
    q.Listens ∧ ∀ col row : Half, q.fb.read (fbIndex col row) =
      if InRect s x y w h col row then cs[visibleOffset s x y w col row]? else p.fb.read (fbIndex col row) := by
  by_cases hv : Visible s x y w h
  case neg =>
    rw [drawItems_invisible hv, pwalk_nil_iff] at g
    subst g
    exact ⟨hl, fun col row => by rw [if_neg (mt InRect.visible hv)]⟩
  case pos =>
    rw [drawItems_visible hv] at g
    obtain ⟨r, gwindow, gstream⟩ := g.append
    have hlen := hcount hv
    rw [visibleCount, if_pos hv] at hlen
    have hWlt := s.width.isLt
    have hHlt := s.height.isLt
    obtain ⟨hx, hy⟩ := hv
    obtain ⟨hw1, hw2⟩ := span_window hx
    obtain ⟨hh1, hh2⟩ := span_window hy
    have hwindow := window_panel hcfg hl.1 hl.2 gwindow
    rw [if_pos (by
      simp only [windowInside_iff, BitVec.toNat_ofNat]
      omega)] at hwindow
    obtain ⟨hwin, hmode, hcur, hhalf, hfb'⟩ := hwindow
    obtain ⟨hpaint, hmode', hhalf', -, -⟩ := stream_panel (k := 0) hw1 hh1 (by omega) (by omega) cs hwin hmode
      (by rw [hcur, curAt, Nat.zero_mod, Nat.zero_div, Nat.zero_mod, Nat.add_zero, Nat.add_zero]) hhalf gstream
    refine ⟨⟨by rw [hmode']; nofun, by simp [Panel.cutShort, hmode', hhalf']⟩, fun col row => ?_⟩
    rw [hpaint, hfb', paint_once hw1 hh1 (by omega) (by omega) hlen hfb]
    exact ite_congr (propext (inRect_iff ⟨hx, hy⟩).symm) (fun _ => rfl) fun _ => rfl

end

/-- A drawing operation with a bracket of its own, at a panel that listens and with its exchanges answered (R189). -/
theorem Draws.lands {x y w h : Int} {bad : State → Prop} {checks : State → List (Bool × Status)}
    {items : State → List WireItem} {colours : State → List Colour} (hd : Draws x y w h bad checks items colours)
    {s t : State} (hb : Between s) (hgood : ¬ bad s) (hcfg : s.cfg.wf = true) (hl : PanelListens s)
    (hfb : s.panel.fb.wf = true) (ha : Answers s (drawExchanges s x y w h))
    (he : guarded (readyCheck s :: checks s) (fun s => conclude (bracketed (runItems (items s)) s) 0) s = .next t)
    (col row : Half) :
    t.panel.fb.read (fbIndex col row) =
      if InRect s x y w h col row then (colours s)[visibleOffset s x y w col row]?
      else s.panel.fb.read (fbIndex col row) := by
  rw [readyCheck, guarded_pass (decide_eq_true hb.1.1), guarded, hd.admitted s hb hgood, hd.walk s hb hgood] at he
  obtain rfl := Host.Outcome.next.inj he
  obtain ⟨q, n, hwalk, hpanel⟩ := bracketed_panel hb.onBus (by rwa [drawItems_exchanges (hd.count s)])
    (drawItems_pixelsOk (colours s) s.wmode)
  obtain ⟨hlistens, hcells⟩ := drawItems_panel hcfg hl hfb (hd.count s) hwalk
  have hkept : (if s.depth = 0 then q.onDeselect n else q).fb = q.fb := by
    split
    · rw [onDeselect_listens hlistens]
    · rfl
  rw [conclude_panel, hpanel, hkept]
  exact hcells col row

/-- Settles O57: every visible pixel of a fill has its colour. -/
theorem fillPaintsExactlyTheIntersection : Obligations.FillPaintsExactlyTheIntersection := by
  intro s t x y w h c hb hcfg hl hfb hw hh ha he col row
  rw [(fill_draws x.toInt y.toInt w.toInt h.toInt c Iff.rfl).lands hb (by omega) hcfg hl hfb ha he]
  refine ite_congr rfl (fun hin => ?_) fun _ => rfl
  obtain ⟨hj, hi⟩ := visibleOffset_lt hin
  rw [fillColours, visibleCount, if_pos hin.visible]
  exact List.getElem?_replicate_of_lt (offset_lt hi hj)

/-! The source of a blit (R188). -/

/-- Entry `i` of row `j` of a table written row by row. -/
theorem getElem?_rows {α : Type} (f : Nat → Nat → α) {w h i j : Nat} (hi : i < w) (hj : j < h) :
    ((List.range h).flatMap fun j => (List.range w).map fun i => f i j)[j * w + i]? = some (f i j) := by
  induction h with
  | zero => exact absurd hj (Nat.not_lt_zero j)
  | succ h ih =>
    have hlen := length_flatMap_range h w f
    rw [List.range_succ, List.flatMap_append]
    rcases Nat.lt_succ_iff_lt_or_eq.mp hj with hlt | rfl
    · rw [List.getElem?_append_left (hlen ▸ offset_lt hi hlt), ih hlt]
    · rw [List.getElem?_append_right (by rw [hlen, Nat.mul_comm]; exact Nat.le_add_right ..), hlen, Nat.mul_comm,
        Nat.add_sub_cancel_left]
      simp [hi]

theorem getElem?_blitIndexes {p S dx dy w h i j : Nat} (hi : i < w) (hj : j < h) :
    (blitIndexes p S dx dy w h)[j * w + i]? = some (p + (dy + j) * S + dx + i) :=
  getElem?_rows (fun i j => p + (dy + j) * S + dx + i) hi hj

/-- The first index of a row. -/
theorem getElem?_blitIndexes_row {p S dx dy w h j : Nat} (hw : 0 < w) (hj : j < h) :
    (blitIndexes p S dx dy w h)[j * w]? = some (p + (dy + j) * S + dx) := getElem?_blitIndexes hw hj

section
variable {s : State} {x y w h : Int} {p : Nat} {col row : Half}

/-- The source index of a cell is the one the unclipped blit reads for it. -/
theorem blitIndex_unclipped (hin : InRect s x y w h col row) :
    blitIndex p x y w (col.toNat - (spanLo x).toNat) (row.toNat - (spanLo y).toNat) =
      p + (((row.toNat : Int) - y) * w + ((col.toNat : Int) - x)).toNat := by
  obtain ⟨hx1, hx2, -, hy1, -, -⟩ := hin
  obtain ⟨i, hi⟩ := Int.eq_ofNat_of_zero_le (show 0 ≤ (col.toNat : Int) - x by omega)
  obtain ⟨j, hj⟩ := Int.eq_ofNat_of_zero_le (show 0 ≤ (row.toNat : Int) - y by omega)
  obtain ⟨S, rfl⟩ := Int.eq_ofNat_of_zero_le (show 0 ≤ w by omega)
  have hi' : (spanLo x - x).toNat + (col.toNat - (spanLo x).toNat) = i := by unfold spanLo; omega
  have hj' : (spanLo y - y).toNat + (row.toNat - (spanLo y).toNat) = j := by unfold spanLo; omega
  rw [blitIndex, hj', Nat.add_assoc, hi', hi, hj, Int.toNat_natCast, Nat.add_assoc]
  rfl

/-- The colour a blit sends for a cell is the source's at the index of the unclipped blit. -/
theorem getElem?_blitColours (hu : ¬ BlitUndefined s x y p w h) (hin : InRect s x y w h col row) :
    (blitColours s x y p w h)[visibleOffset s x y w col row]? =
      s.src.read (p + (((row.toNat : Int) - y) * w + ((col.toNat : Int) - x)).toNat) := by
  obtain ⟨hj, hi⟩ := visibleOffset_lt hin
  rw [← blitIndex_unclipped hin, visibleOffset, blitColours, getElem?_rows _ hi hj]
  obtain ⟨c, hc⟩ := Option.ne_none_iff_exists'.mp fun hnone => hu ⟨hin.visible, _, hj, _, hi, .inr hnone⟩
  rw [hc, Option.getD_some]

end

/-- Settles O58: the indexes of a blit are a table of rows, and the cell of a visible pixel has the offset of its index. -/
theorem blitLandsWhereTheUnclippedBlitWould : Obligations.BlitLandsWhereTheUnclippedBlitWould := by
  refine ⟨fun p S dx dy w h => ⟨fun i hi j hj => getElem?_blitIndexes hi hj, length_flatMap_range .., fun hw hh => ?_,
    fun j a b hw hj ha hb => ?_⟩, ?_⟩
  · have hfirst := getElem?_blitIndexes_row (p := p) (S := S) (dx := dx) (dy := dy) hw hh
    rwa [Nat.zero_mul, Nat.add_zero, Nat.add_assoc] at hfirst
  · rw [getElem?_blitIndexes_row hw (Nat.lt_of_succ_lt hj), Option.some.injEq] at ha
    rw [getElem?_blitIndexes_row hw hj, ← Nat.add_assoc dy, Nat.succ_mul, Option.some.injEq] at hb
    omega
  · intro s t x y p w h hb hcfg hl hfb hw hh hu ha he col row
    have hgood : ¬ (w.toInt < 1 ∨ h.toInt < 1 ∨ BlitUndefined s x.toInt y.toInt p.toNat w.toInt h.toInt) := by
      simpa only [not_or, Int.not_lt] using ⟨hw, hh, hu⟩
    rw [(blit_draws x.toInt y.toInt p.toNat w.toInt h.toInt).lands hb hgood hcfg hl hfb ha he]
    exact ite_congr rfl (fun hin => getElem?_blitColours hu hin) fun _ => rfl

end Sys2Proof.Machine

/-! PROOFS. The ancillary family (spec 44_ancillary.md): the operations that are one frame in a bracket of their own, the read of
a register, and the packing of a colour. -/

namespace Sys2Proof.Machine

/-! One frame in a bracket (R226): `SETROT`, `INVERT`, `SCROLLTO`. -/

/-- An operation whose walk is one command byte and its parameter bytes, with no check on its operands. `before` writes to
neither the wire nor the configuration. -/
theorem frame_rule {i : Instr} {before : State → State} (c : State → Byte) (bs : State → List Byte) {n : Nat}
    (he : ∀ s, exec i s = guarded [readyCheck s]
      (fun s => conclude (bracketed (runItems (.command (c s) :: (bs s).map .data)) (before s)) 0) s)
    (hk : ∀ s, (before s).depth = s.depth ∧ (before s).cfg = s.cfg ∧ (before s).wmode = s.wmode ∧ (before s).xfers = s.xfers)
    (hb : ∀ s, OnBus s → OnBus (before s)) (hn : ∀ s, (bs s).length + 1 = n) :
    BracketedRule i (fun _ => False) before (fun _ => 0) (fun s => frameEvents (c s) (bs s)) (fun _ => n)
      (fun s => decide (c s = s.cfg.cmdRamwr)) := by
  refine bracketed_rule (fun _ => []) (fun s => .command (c s) :: (bs s).map .data) he (fun _ => False.elim) hk
    fun s hs _ => ⟨hb s hs.onBus, rfl, ?_, ?_, walkWmode_bytes ..⟩
  · rw [walkEvents_cons, walkEvents_bytes]
    rfl
  · rw [walkExchanges_cons, walkExchanges_bytes, ← hn s]
    exact Nat.add_comm ..

theorem rotationOf_toNat (r : Byte) : (rotationOf r).toNat = r.toNat % 4 := by
  rw [rotationOf, BitVec.toNat_ofNat]
  omega

theorem rotationOf_mod_two (r : Byte) : (rotationOf r).toNat % 2 = r.toNat % 2 := by
  rw [rotationOf_toNat]
  exact Nat.mod_mod_of_dvd _ (by decide)

/-- The surface registers of a `SETROT` in terms of its operand (R220, R225). -/
theorem setSurface_rotationOf (s : State) (r : Byte) : s.setSurface (rotationOf r) = { s with
    rotation := BitVec.ofNat 8 (r.toNat % 4)
    width := if r.toNat % 2 = 0 then s.cfg.w0 else s.cfg.h0
    height := if r.toNat % 2 = 0 then s.cfg.h0 else s.cfg.w0 } := by
  rw [State.setSurface, widthOf, heightOf, rotationOf_mod_two]
  rfl

/-- The memory-access-control byte of a `SETROT` in terms of its operand (R225). -/
theorem madctlByte_rotationOf (c : Cfg) (r : Byte) : c.madctlByte (rotationOf r) =
    if r.toNat % 4 = 0 then c.madctl0 else if r.toNat % 4 = 1 then c.madctl1
    else if r.toNat % 4 = 2 then c.madctl2 else c.madctl3 := by
  rw [Cfg.madctlByte, rotationOf_toNat]
  have hm : r.toNat % 4 = 0 ∨ r.toNat % 4 = 1 ∨ r.toNat % 4 = 2 ∨ r.toNat % 4 = 3 := by omega
  rcases hm with h | h | h | h <;> rw [h] <;> rfl

/-- Settles O32: past its check the operation is one frame, after the surface registers, which the wire does not look at. -/
theorem setrotFollowsItsRule : Obligations.SetrotFollowsItsRule := by
  intro r
  refine ⟨encodedAs_fields (i := .setRot r) rfl, ?_⟩
  simp only [← madctlByte_rotationOf, ← setSurface_rotationOf]
  exact frame_rule (fun s => s.cfg.cmdMadctl) (fun s => [s.cfg.madctlByte (rotationOf r)]) (fun _ => rfl)
    (fun _ => ⟨rfl, rfl, rfl, rfl⟩) (fun _ => id) fun _ => rfl

theorem rotationOf_add_four (r : Byte) : rotationOf (r + 4) = rotationOf r := by
  apply BitVec.eq_of_toNat_eq
  rw [rotationOf_toNat, rotationOf_toNat, BitVec.toNat_add, show (4 : Byte).toNat = 4 from rfl]
  omega

/-- Settles O33: the operation looks at its operand through `rotationOf` alone. -/
theorem setrotIsModuloFour : Obligations.SetrotIsModuloFour := by
  intro r s
  simp only [exec, execSetRot, rotationOf_add_four]

/-- Settles O34: each operation is one frame, of no parameter byte and of two. -/
theorem invertAndScrollFollowTheirRules : Obligations.InvertAndScrollFollowTheirRules := by
  refine ⟨fun b => ⟨encodedAs_fields (i := .invert b) rfl, ?_⟩, fun y => ⟨encodedAs_fields (i := .scrollTo y) rfl, ?_⟩⟩
  · exact frame_rule (fun s => if b then s.cfg.cmdInvon else s.cfg.cmdInvoff) (fun _ => []) (fun _ => rfl)
      (fun _ => ⟨rfl, rfl, rfl, rfl⟩) (fun _ => id) fun _ => rfl
  · exact frame_rule (fun s => s.cfg.cmdVscrsadd) (fun _ => halfBytes y) (fun _ => rfl)
      (fun _ => ⟨rfl, rfl, rfl, rfl⟩) (fun _ => id) fun _ => rfl

/-! The read of a register (R223). -/

theorem execReadReg_of_ok {cmd index r : Byte} {s t : State} (hl : s.lifecycle = .ready)
    (h : readRegister cmd index (startWrite s) = (.ok r, t)) :
    exec (.readReg cmd index) s = .next ((endWrite t).complete .ok (ofByte r)) := by
  rw [exec, execReadReg, readyCheck, guarded_pass (decide_eq_true hl), guarded_nil, h]

theorem execReadReg_of_error {cmd index : Byte} {e : Status} {s t : State} (hl : s.lifecycle = .ready)
    (h : readRegister cmd index (startWrite s) = (.error e, t)) :
    exec (.readReg cmd index) s = .next ((endWrite t).raise e) := by
  rw [exec, execReadReg, readyCheck, guarded_pass (decide_eq_true hl), guarded_nil, h]

theorem execReadReg_not_ready {cmd index : Byte} {s : State} (hl : s.lifecycle ≠ .ready) :
    Refuses (.readReg cmd index) s .notReady :=
  refuses_of (by rw [exec, execReadReg, readyCheck, guarded_fail (decide_eq_false hl) rfl])

theorem regreadBase_add (index : Byte) : Config.regreadBase + index = BitVec.ofNat 8 ((0x10 + index.toNat) % 256) := by
  apply BitVec.eq_of_toNat_eq
  rw [BitVec.toNat_add, BitVec.toNat_ofNat, Nat.mod_mod]
  rfl

/-- The two frames of a register read, the second with the dummy byte (R223). -/
theorem walkEvents_readItems (cmd index : Byte) : walkEvents (readItems cmd index) =
    frameEvents 0xD9 [BitVec.ofNat 8 ((0x10 + index.toNat) % 256)] ++ frameEvents cmd [0x00] := by
  rw [← regreadBase_add]
  rfl

/-- A register read whose four exchanges succeed returns the byte the fourth one clocked in. -/
theorem readRegister_sends {s : State} (hs : s.session = .opened) (ha : Answers s (3 + 1)) (cmd index : Byte) :
    ∃ r t, s.xfers[3]? = some (some r) ∧ readRegister cmd index s = (.ok r, t) ∧
      Sends s t 4 (walkEvents (readItems cmd index)) (wmodeAfter s.cfg cmd) (.driven .high) := by
  obtain ⟨t, ht, g⟩ := runItems_sends
    [.command Config.cmdRegreadEnable, .data (Config.regreadBase + index), .command cmd] hs
    (answers_add ha (t := s.setXfers (s.xfers.drop 3)) rfl).1
  obtain ⟨r, rest, hx⟩ := answers_one (answers_add ha g.xfers).2
  have hr : s.xfers[3]? = some (some r) := by
    have hdrop : s.xfers.drop 3 = some r :: rest := g.xfers.symm.trans hx
    rw [← Nat.add_zero 3, ← List.getElem?_drop, hdrop]
    rfl
  have last := xfer_script_sends hx 0x00
  rw [g.wmode, g.dcLine] at last
  exact ⟨r, _, hr, by simp only [readRegister, ht, xferByte_script (g.frame.session.trans hs) hx], g.trans last⟩

/-- A register read raises what its walk raises. -/
theorem readRegister_raises {cmd index : Byte} {e : Status} {s t : State}
    (h : runItems (readItems cmd index) s = (some e, t)) : readRegister cmd index s = (.error e, t) := by
  rw [readItems, runItems_append, Proc.andThen] at h
  rcases hw : runItems [.command Config.cmdRegreadEnable, .data (Config.regreadBase + index), .command cmd] s with
    ⟨_ | _, u⟩ <;> simp only [hw] at h
  · rw [← List.map_singleton (f := WireItem.data), ← data8_eq_walk, data8] at h
    rcases hx : xferByte 0x00 u with ⟨_ | _, v⟩ <;> rw [hx] at h <;> cases h
    simp only [readRegister, hw, hx]
  · cases h
    simp only [readRegister, hw]

/-- Settles O35: the operation is a bracket around the walk `readItems`, with the byte of the fourth exchange as the value. -/
theorem readregFollowsItsRule : Obligations.ReadregFollowsItsRule := by
  intro cmd index
  refine ⟨encodedAs_fields (i := .readReg cmd index) rfl, fun s =>
    ⟨execReadReg_not_ready, fun _ => False.elim, fun hb _ ha => ?_, fun hb _ k hk hf => ?_⟩⟩ <;>
    rw [← walkEvents_readItems]
  · obtain ⟨r, t, hr, ht, g⟩ := readRegister_sends (s := startWrite s) (by simpa using hb.1.2)
      (by simpa [Answers] using ha) cmd index
    rw [startWrite_xfers] at hr
    rw [startWrite_cfg] at g
    simp only [hr]
    exact ⟨_, execReadReg_of_ok hb.1.1 ht, bracket_ok hb.onBus g rfl (ofByte r)⟩
  · obtain ⟨t, ht, g⟩ := runItems_breaks (readItems cmd index) (s := startWrite s) (by simpa using hb.1.2)
      (by simp [hb.onBus.dcHigh]) k hk (by simpa [FailsAt, Answers] using hf)
    exact ⟨_, execReadReg_of_error hb.1.1 (readRegister_raises ht), bracket_failed hb.onBus g⟩

/-! The packing of a colour (R224, 30_encoding.md R83). -/

/-- A mask that drops the `k` low bits of a sample. -/
theorem getLsbD_and_highMask (x : Byte) (k i : Nat) :
    (x &&& (BitVec.allOnes 8 <<< k)).getLsbD i = (decide (k ≤ i) && x.getLsbD i) := by
  rw [BitVec.getLsbD_and, BitVec.getLsbD_shiftLeft, BitVec.getLsbD_allOnes]
  by_cases hi : i < 8
  · by_cases hk : k ≤ i
    · simp only [hi, hk, show ¬ i < k by omega, show i - k < 8 by omega, decide_true, decide_false, Bool.not_false,
        Bool.and_true, Bool.true_and]
    · simp only [hk, show i < k by omega, decide_true, decide_false, Bool.not_true, Bool.and_false, Bool.false_and]
  · rw [BitVec.getLsbD_of_ge x i (by omega), Bool.false_and, Bool.and_false]

section
variable (r g b : Byte)

/-- The bits of a packed colour: blue from bit 0 on, green from bit 5 on, red from bit 11 on. -/
theorem getLsbD_packColour {i : Nat} (hi : i < 16) : (packColour r g b).getLsbD i =
    if i < 5 then b.getLsbD (3 + i) else if i < 11 then g.getLsbD (i - 3) else r.getLsbD (i - 8) := by
  have hmask : (0xF8 : Byte) = BitVec.allOnes 8 <<< 3 ∧ (0xFC : Byte) = BitVec.allOnes 8 <<< 2 := by decide
  simp only [packColour, hmask, BitVec.getLsbD_or, BitVec.getLsbD_shiftLeft, BitVec.getLsbD_ushiftRight,
    BitVec.getLsbD_setWidth, getLsbD_and_highMask]
  by_cases h5 : i < 5
  · simp only [h5, hi, show i < 8 by omega, show ¬ 2 ≤ i - 3 by omega, show 3 ≤ 3 + i by omega, show 3 + i < 16 by omega,
      decide_true, decide_false, if_true, Bool.not_true, Bool.and_false, Bool.false_and, Bool.true_and, Bool.or_false,
      Bool.false_or]
  · rw [BitVec.getLsbD_of_ge b (3 + i) (by omega)]
    by_cases h11 : i < 11
    · simp only [h5, h11, hi, show ¬ 3 ≤ i - 8 by omega, show ¬ i < 3 by omega, show 2 ≤ i - 3 by omega,
        show i - 3 < 16 by omega, decide_true, decide_false, if_true, if_false, Bool.not_false, Bool.and_false,
        Bool.false_and, Bool.true_and, Bool.or_false, Bool.false_or]
    · rw [BitVec.getLsbD_of_ge g (i - 3) (by omega)]
      simp only [h5, h11, hi, show ¬ i < 8 by omega, show 3 ≤ i - 8 by omega, show i - 8 < 16 by omega, decide_true,
        decide_false, if_false, Bool.not_false, Bool.and_false, Bool.true_and, Bool.or_false]

theorem packColour_red : (packColour r g b).extractLsb' 11 5 = r.extractLsb' 3 5 := by
  apply BitVec.eq_of_getLsbD_eq
  intro i hi
  rw [BitVec.getLsbD_extractLsb', BitVec.getLsbD_extractLsb', getLsbD_packColour _ _ _ (by omega), if_neg (by omega),
    if_neg (by omega), show 11 + i - 8 = 3 + i by omega]

theorem packColour_green : (packColour r g b).extractLsb' 5 6 = g.extractLsb' 2 6 := by
  apply BitVec.eq_of_getLsbD_eq
  intro i hi
  rw [BitVec.getLsbD_extractLsb', BitVec.getLsbD_extractLsb', getLsbD_packColour _ _ _ (by omega), if_neg (by omega),
    if_pos (by omega), show 5 + i - 3 = 2 + i by omega]

theorem packColour_blue : (packColour r g b).extractLsb' 0 5 = b.extractLsb' 3 5 := by
  apply BitVec.eq_of_getLsbD_eq
  intro i hi
  rw [BitVec.getLsbD_extractLsb', BitVec.getLsbD_extractLsb', getLsbD_packColour _ _ _ (by omega), if_pos (by omega),
    Nat.zero_add]

/-- The packing drops the low bits of its samples. -/
theorem packColour_masked : packColour (r &&& 0xF8) (g &&& 0xFC) (b &&& 0xF8) = packColour r g b := by
  simp only [packColour, BitVec.and_assoc, BitVec.and_self]

theorem exec_color565 (s : State) :
    exec (.color565 r g b) s = .next { s with result := some ⟨.ok, packColour r g b⟩ } :=
  congrArg _ (complete_of_not_misuse rfl s _)

end

/-- Each field of a colour in the high bits of a byte is a sample of it, whatever bits stand below the field. -/
theorem packColour_unpacked (c : Colour) : packColour (hi8 c) (c.extractLsb' 3 8) (c.extractLsb' 0 8 <<< 3) = c := by
  apply BitVec.eq_of_getLsbD_eq
  intro i hi
  rw [getLsbD_packColour _ _ _ hi]
  by_cases h5 : i < 5
  · rw [if_pos h5, BitVec.getLsbD_shiftLeft, BitVec.getLsbD_extractLsb', Nat.add_sub_cancel_left, Nat.zero_add]
    simp only [show 3 + i < 8 by omega, show ¬ 3 + i < 3 by omega, show i < 8 by omega, decide_true, decide_false,
      Bool.not_false, Bool.true_and]
  by_cases h11 : i < 11
  · rw [if_neg h5, if_pos h11, BitVec.getLsbD_extractLsb', show 3 + (i - 3) = i by omega]
    simp only [show i - 3 < 8 by omega, decide_true, Bool.true_and]
  · rw [if_neg h5, if_neg h11, hi8, BitVec.getLsbD_extractLsb', show 8 + (i - 8) = i by omega]
    simp only [show i - 8 < 8 by omega, decide_true, Bool.true_and]

/-- Settles O36: the result is `packColour` of the samples, in every state. -/
theorem color565PacksThreeSamples : Obligations.Color565PacksThreeSamples := by
  refine ⟨fun r g b => encodedAs_fields (i := .color565 r g b) rfl, fun r g b s => ?fields, fun c s => ?onto,
    fun r g b s => ?masked⟩
  case fields =>
    exact ⟨_, exec_color565 r g b s, packColour_red r g b, packColour_green r g b, packColour_blue r g b⟩
  case onto =>
    refine ⟨hi8 c, c.extractLsb' 3 8, c.extractLsb' 0 8 <<< 3, ?_⟩
    rw [exec_color565, packColour_unpacked]
  case masked => rw [exec_color565, exec_color565, packColour_masked]

end Sys2Proof.Machine

/-! PROOFS. The exceptions family (spec 60_exceptions.md): the ways an operation can end, said once for all of them, and what each
way leaves of the state, of the table of R262 and of the mark of R250. -/

namespace Sys2Proof.Machine

/-! A descriptor that does not decode (R246). -/

theorem step_undecodable {s : State} {r : Request} {rest : List Request} {err : DecodeError} (hq : s.requests = r :: rest)
    (hd : decode r.port r.bytes = .error err) : step s = .next ((s.setRequests rest).raise .illegalOp) := by
  simp only [step, fetchRequest, hq, hd]

/-- Settles O7: the step raises `IllegalOp` in the state without the request. -/
theorem illegalDescriptorEndsWithIllegalOp : Obligations.IllegalDescriptorEndsWithIllegalOp :=
  fun _ _ _ _ hq hd => ⟨⟨_, step_undecodable hq hd⟩, rfl⟩

/-! The ways an operation can end (R240 to R248). -/

/-- The status is a violation that the table of R262 has in the operation's row. -/
def mayRefuse (i : Instr) (e : Status) : Bool := e.isMisuse && statusAllowed i e

/-- What a failed exchange leaves of an operation of a ready block, before its result is handed back (R248). -/
structure Failed (s t : State) : Prop where
  lifecycle : t.lifecycle = .ready
  depth : t.depth = s.depth
  wmode : t.wmode = false
  panel : t.panel.mode = .unknown
  trace : ∃ (before after : List Event) (b : Byte), t.trace = s.trace ++ before ++ [.xferFail b] ++ after ∧
    NoFailure before ∧ ∀ e ∈ after, e = .line .dc .high ∨ e = .line .cs .high

/-- The value of an operation that returned in the state `u`, with the exchange it was read from (30_encoding.md R93). -/
def Returns (i : Instr) (s u : State) (v : Half) : Prop :=
  match i with
  | .beginOp => v = 1
  | .color565 r g b => v = packColour r g b
  | .tXfer out => ∃ b, u.trace = s.trace ++ [.xfer out b] ∧ v = ofByte b
  | .readReg _ _ => ∃ before b after, u.trace = s.trace ++ before ++ [.xfer 0x00 b] ++ after ∧
      (∀ e ∈ after, e = .line .cs .high) ∧ v = ofByte b
  | _ => v = 0

/-- The ways an operation can end. `unserved` is the case no run reaches, a ready block with no session open (log 14). -/
inductive Ends (i : Instr) (s : State) : State → Prop where
  | refused {e : Status} : mayRefuse i e = true → Ends i s (s.raise e)
  | unserved {u : State} : mayRefuse i .notReady = true → u.faultMark = s.faultMark → s.lifecycle = .ready →
      s.session ≠ .opened → Ends i s (u.raise .notReady)
  | unavailable {u : State} : statusAllowed i .deviceUnavailable = true → u.faultMark = s.faultMark →
      Ends i s (u.raise .deviceUnavailable)
  | failed {u : State} : statusAllowed i .transferFailure = true → u.faultMark = s.faultMark →
      (i ≠ .beginOp → i.opcode.port = .host → Failed s u) → Ends i s (u.raise .transferFailure)
  | returned {u : State} {v : Half} : u.faultMark = s.faultMark → Returns i s u v → Ends i s (u.complete .ok v)

/-! What a walk of a ready block raises, and what it leaves then. -/

/-- A procedure that a ready block runs keeps the mark; it returns, or raises `NotReady` for want of a session, or was ended by
a failed exchange. -/
structure Served (s : State) (r : Option Status × State) : Prop where
  faultMark : r.2.faultMark = s.faultMark
  status : r.1 = none ∨ (r.1 = some .notReady ∧ s.lifecycle = .ready ∧ s.session ≠ .opened) ∨
    (r.1 = some .transferFailure ∧ Failed s r.2)

theorem data8_not_opened {s : State} (hs : s.session ≠ .opened) (b : Byte) : data8 b s = (some .notReady, s) := by
  rw [data8, xferByte_not_opened hs]

theorem runItem_not_opened (i : WireItem) {s : State} (hs : s.session ≠ .opened) :
    (runItem i s).1 = none ∨ (runItem i s).1 = some .notReady := by
  cases i with
  | command c =>
    have hx := xferByte_not_opened (s := s.drive .dc .low) hs c
    exact .inr (by simp only [runItem, writeCommand, hx])
  | data b => exact .inr (by rw [runItem, data8_not_opened hs])
  | pixel c =>
    have hx := data8_not_opened (s := s.streamHazard) (by simpa using hs) (hi8 c)
    exact .inr (by simp only [runItem, writePixel, data16, Proc.andThen, hx])
  | delay ms => exact .inl rfl

/-- Without a session nothing but `NotReady` can be raised (R243). -/
theorem runItems_not_opened (is : List WireItem) {s : State} (hs : s.session ≠ .opened) :
    (runItems is s).1 = none ∨ (runItems is s).1 = some .notReady := by
  induction is generalizing s with
  | nil => exact .inl rfl
  | cons i is ih =>
    have hi := runItem_not_opened i hs
    have hf := runItem_onWire i s
    simp only [runItems, Proc.andThen]
    rcases hx : runItem i s with ⟨_ | e, t⟩ <;> rw [hx] at hi hf
    · exact ih (by rw [hf.session]; exact hs)
    · exact hi

theorem Ran.failed {s : State} {r : Option Status × State} {evs : List Event} (g : Ran s r evs) (hr : s.lifecycle = .ready)
    (hf : r.1 = some .transferFailure) : Failed s r.2 := by
  rcases g.status with ⟨hn, _⟩ | ⟨_, ⟨before, after, b, rfl, hb, ha⟩, hw, hp⟩
  · rw [hn] at hf; cases hf
  · exact ⟨g.frame.lifecycle.trans hr, g.frame.depth, hw, hp, before, after, b, by rw [g.trace]; simp, hb,
      fun e he => .inl (ha e he)⟩

theorem runItems_served (is : List WireItem) {s : State} (hr : s.lifecycle = .ready) : Served s (runItems is s) where
  faultMark := (runItems_onWire is s).faultMark
  status := by
    by_cases hs : s.session = .opened
    · obtain ⟨evs, g⟩ := runItems_ran is hs
      rcases g.status with ⟨hn, _⟩ | ⟨hf, _⟩
      · exact .inl hn
      · exact .inr (.inr ⟨hf, g.failed hr hf⟩)
    · rcases runItems_not_opened is hs with hn | he
      · exact .inl hn
      · exact .inr (.inl ⟨he, hr, hs⟩)

/-- Opening a bracket adds no failed exchange to the trace. -/
theorem startWrite_adds (s : State) : ∃ evs, (startWrite s).trace = s.trace ++ evs ∧ NoFailure evs :=
  ⟨_, startWrite_trace s, by split <;> simp [NoFailure]⟩

/-- Closing a bracket adds at most that `CS` goes high. -/
theorem endWrite_adds (s : State) : ∃ evs, (endWrite s).trace = s.trace ++ evs ∧ ∀ e ∈ evs, e = .line .cs .high :=
  ⟨_, endWrite_trace s, by split <;> simp⟩

theorem bracketed_faultMark (is : List WireItem) (s : State) : (bracketed (runItems is) s).2.faultMark = s.faultMark := by
  rw [bracketed_snd, endWrite_faultMark, (runItems_onWire is _).faultMark, startWrite_faultMark]

/-- The bracket is closed after a failed exchange too (41_lifecycle.md R133). -/
theorem Failed.bracket {s t : State} (h : Failed (startWrite s) t) : Failed s (endWrite t) where
  lifecycle := by rw [endWrite_lifecycle, h.lifecycle]
  depth := by rw [endWrite_depth, h.depth, startWrite_depth, Nat.add_sub_cancel]
  wmode := by rw [endWrite_wmode, h.wmode, ite_self]
  panel := endWrite_unknown h.panel
  trace := by
    obtain ⟨before, after, b, ht, hb, ha⟩ := h.trace
    obtain ⟨opening, ho, hno⟩ := startWrite_adds s
    obtain ⟨closing, hc, hcs⟩ := endWrite_adds t
    refine ⟨opening ++ before, after ++ closing, b, ?_, hno.append hb, fun e he => ?_⟩
    · rw [hc, ht, ho, ← List.append_assoc, List.append_assoc s.trace]
    · rcases List.mem_append.mp he with he | he
      · exact ha e he
      · exact .inr (hcs e he)

theorem bracketed_served (is : List WireItem) {s : State} (hr : s.lifecycle = .ready) :
    Served s (bracketed (runItems is) s) := by
  have h := runItems_served is (s := startWrite s) (by rwa [startWrite_lifecycle])
  refine ⟨bracketed_faultMark is s, ?_⟩
  rcases h.status with hn | ⟨he, _, hs⟩ | ⟨hf, g⟩
  · exact .inl hn
  · exact .inr (.inl ⟨he, hr, by rwa [startWrite_session] at hs⟩)
  · exact .inr (.inr ⟨hf, g.bracket⟩)

/-- What a procedure leaves is not measured against the surface registers. -/
theorem Served.of_setSurface {s : State} {m : Byte} {r : Option Status × State} (h : Served (s.setSurface m) r) : Served s r :=
  ⟨h.faultMark, h.status.imp_right (.imp_right fun ⟨hf, g⟩ => ⟨hf, g.lifecycle, g.depth, g.wmode, g.panel, g.trace⟩)⟩

/-! The operations one by one: each ends in one of the ways. -/

section
variable {i : Instr} {s t : State} {cs : List (Bool × Status)}

theorem firstFailing_mem {e : Status} (h : firstFailing cs = some e) : e ∈ cs.map Prod.snd := by
  induction cs with
  | nil => cases h
  | cons c cs ih =>
    rcases c with ⟨_ | _, e'⟩
    · exact Option.some.inj h ▸ List.mem_cons_self
    · exact List.mem_cons_of_mem _ (ih h)

/-- A guarded operation is refused by one of its checks, or ends as its body does (R253). -/
theorem guarded_ends {es : List Status} {body : State → State} (h : guarded cs body s = .next t) (hs : cs.map Prod.snd = es)
    (he : es.all (mayRefuse i) = true) (hb : firstFailing cs = none → Ends i s (body s)) : Ends i s t := by
  injection h with h
  subst h
  rcases hf : firstFailing cs with _ | e
  · exact hb hf
  · exact .refused (List.all_eq_true.mp he e (hs ▸ firstFailing_mem hf))

/-- An operation whose procedure was served ends as the procedure did. -/
theorem Served.ends {r : Option Status × State} {v : Half} (h : Served s r) (hn : mayRefuse i .notReady = true)
    (hf : statusAllowed i .transferFailure = true) (hv : r.1 = none → Returns i s r.2 v) : Ends i s (conclude r v) := by
  obtain ⟨hm, hs⟩ := h
  rcases r with ⟨e, u⟩
  rcases hs with rfl | ⟨rfl, hr, hs⟩ | ⟨rfl, g⟩
  · exact .returned hm (hv rfl)
  · exact .unserved hn hm hr hs
  · exact .failed hf hm fun _ _ => g

/-- An operation with the value 0 that is its checks, the lifecycle first, and a procedure. -/
theorem guarded_served {p : Proc} (es : List Status)
    (h : guarded (readyCheck s :: cs) (fun s => conclude (p s) 0) s = .next t) (hs : cs.map Prod.snd = es)
    (he : (.notReady :: es).all (mayRefuse i) = true) (hf : statusAllowed i .transferFailure = true)
    (hv : ∀ u, Returns i s u 0) (hp : s.lifecycle = .ready → Served s (p s)) : Ends i s t :=
  guarded_ends (es := .notReady :: es) h (by rw [List.map_cons, hs]; rfl) he fun hc =>
    (hp (readyCheck_pass hc).1).ends (List.all_eq_true.mp he _ List.mem_cons_self) hf fun _ => hv _

theorem fillUnbracketed_ends {x y w h : Int} {c : Colour} (g : fillUnbracketed x y w h c s = .next t)
    (he : [.notReady, .noBracket, .badOperand].all (mayRefuse i) = true) (hf : statusAllowed i .transferFailure = true)
    (hv : ∀ u, Returns i s u 0) : Ends i s t :=
  guarded_served [.noBracket, .badOperand] g rfl he hf hv fun hr => runItems_served _ hr

theorem fillBracketed_ends {x y w h : Int} {c : Colour} (g : fillBracketed x y w h c s = .next t)
    (he : [.notReady, .badOperand].all (mayRefuse i) = true) (hf : statusAllowed i .transferFailure = true)
    (hv : ∀ u, Returns i s u 0) : Ends i s t :=
  guarded_served [.badOperand] g rfl he hf hv fun hr => bracketed_served _ hr

end

section
variable {s t : State}

/-- A register read that returned ends with the exchange it takes its value from. -/
theorem readRegister_returns {cmd index : Byte} (h : runItems (readItems cmd index) s = (none, t)) :
    ∃ before b, readRegister cmd index s = (.ok b, t) ∧ t.trace = s.trace ++ before ++ [.xfer 0x00 b] := by
  have hw := runItems_tame [.command Config.cmdRegreadEnable, .data (Config.regreadBase + index), .command cmd] s
  obtain ⟨before, hb⟩ := hw.trace
  rw [readItems, runItems_append, Proc.andThen] at h
  rcases hx : runItems [.command Config.cmdRegreadEnable, .data (Config.regreadBase + index), .command cmd] s with
    ⟨_ | _, u⟩ <;> simp only [hx] at h hb
  · rw [← List.map_singleton (f := WireItem.data), ← data8_eq_walk, data8] at h
    rcases xferByte_cases 0x00 u with ⟨_, hl⟩ | ⟨_, b, _, hl⟩ | ⟨_, _, hl⟩ <;> rw [hl] at h <;> cases h
    exact ⟨before, b, by simp only [readRegister, hx, hl], by rw [State.emit_trace, drawXfer_trace, hb]⟩
  · cases h

theorem readReg_ends {cmd index : Byte} (h : execReadReg cmd index s = .next t) : Ends (.readReg cmd index) s t := by
  refine guarded_ends h rfl rfl fun hc => ?_
  have hr := (readyCheck_pass hc).1
  have hs := bracketed_served (readItems cmd index) hr
  rcases hx : runItems (readItems cmd index) (startWrite s) with ⟨_ | e, u⟩ <;> simp only [bracketed, hx] at hs
  · obtain ⟨before, b, hb, ht⟩ := readRegister_returns hx
    simp only [hb]
    obtain ⟨opening, ho, _⟩ := startWrite_adds s
    obtain ⟨closing, hc, hcs⟩ := endWrite_adds u
    refine hs.ends (v := ofByte b) rfl rfl fun _ => ⟨opening ++ before, b, closing, ?_, hcs, rfl⟩
    rw [hc, ht, ho, List.append_assoc s.trace]
  · simp only [readRegister_raises hx]
    exact hs.ends (v := 0) rfl rfl nofun

theorem startWrite_ends (h : execStartWrite s = .next t) : Ends .startWrite s t :=
  guarded_ends h rfl rfl fun _ => .returned (i := .startWrite) (startWrite_faultMark s) (Eq.refl 0)

theorem endWrite_ends (h : execEndWrite s = .next t) : Ends .endWrite s t :=
  guarded_ends h rfl rfl fun _ => .returned (i := .endWrite) (endWrite_faultMark s) (Eq.refl 0)

theorem endOp_ends (h : execEnd s = .next t) : Ends .endOp s t := by
  refine guarded_ends h rfl rfl fun _ => ?_
  rcases closeSession_cases s with ⟨_, hc⟩ | ⟨_, hc⟩ <;> rw [hc]
  · exact .returned rfl rfl
  · exact .refused rfl

theorem drawOpen_faultMark (s : State) : (drawOpen s).2.faultMark = s.faultMark := by
  obtain ⟨l, n, hd⟩ := drawOpen_snd s
  rw [hd]

theorem closeSession_faultMark (s : State) : (closeSession s).2.faultMark = s.faultMark := by
  rcases closeSession_cases s with ⟨_, h⟩ | ⟨_, h⟩ <;> rw [h]
  rfl

theorem beginOpened_ends (hs : t.session = .opened) (hm : t.faultMark = s.faultMark) : Ends .beginOp s (beginOpened t) := by
  have hr := @bracketed_raised (beginItems t.cfg) ((resetPulse t).setWmode false) (by simpa using hs)
  have hmark := bracketed_faultMark (beginItems t.cfg) ((resetPulse t).setWmode false)
  rw [State.setWmode_faultMark, resetPulse_faultMark, hm] at hmark
  unfold beginOpened
  rcases hb : bracketed (runItems (beginItems t.cfg)) ((resetPulse t).setWmode false) with ⟨_ | e, u⟩ <;> rw [hb] at hmark
  · exact .returned hmark rfl
  · obtain ⟨rfl, _⟩ := hr (by rw [hb])
    exact .failed rfl ((closeSession_faultMark u).trans hmark) fun hn => absurd rfl hn

theorem beginOp_ends (h : execBegin s = .next t) : Ends .beginOp s t := by
  refine guarded_ends h rfl rfl fun _ => ?_
  rcases openSession_cases s with ⟨_, ho⟩ | ⟨_, _, ho⟩ | ⟨_, _, ho⟩ <;> rw [ho]
  · exact .refused rfl
  · exact .unavailable rfl (drawOpen_faultMark s)
  · exact beginOpened_ends rfl (drawOpen_faultMark s)

theorem tOpen_ends (h : execTOpen s = .next t) : Ends .tOpen s t := by
  injection h with h
  subst h
  rcases openSession_cases s with ⟨_, ho⟩ | ⟨_, _, ho⟩ | ⟨_, _, ho⟩ <;> rw [ho]
  · exact .refused rfl
  · exact .unavailable rfl (drawOpen_faultMark s)
  · exact .returned (drawOpen_faultMark s) rfl

theorem tClose_ends (h : execTClose s = .next t) : Ends .tClose s t := by
  injection h with h
  subst h
  rcases closeSession_cases s with ⟨_, hc⟩ | ⟨_, hc⟩ <;> rw [hc]
  · exact .returned rfl rfl
  · exact .refused rfl

theorem tXfer_ends {out : Byte} (h : execTXfer out s = .next t) : Ends (.tXfer out) s t := by
  injection h with h
  subst h
  have hm := (drawXfer_onWire s).faultMark
  rcases xferByte_cases out s with ⟨_, hx⟩ | ⟨_, b, _, hx⟩ | ⟨_, _, hx⟩ <;> rw [hx]
  · exact .refused rfl
  · exact .returned hm ⟨b, by rw [State.emit_trace, drawXfer_trace], rfl⟩
  · exact .failed rfl hm nofun

theorem tBlock_ends {out : List Byte} (h : execTBlock out s = .next t) : Ends (.tBlock out) s t := by
  refine guarded_ends h rfl rfl fun hc => ?_
  obtain ⟨evs, g⟩ := runItems_ran (out.map .data) (of_decide_eq_true (firstFailing_cons_none.mp hc).1)
  rcases hx : runItems (out.map .data) s with ⟨e, u⟩
  rw [hx] at g
  rcases g.status with ⟨rfl, _⟩ | ⟨rfl, _⟩
  · exact .returned g.frame.faultMark rfl
  · exact .failed rfl g.frame.faultMark nofun

end

/-- How any operation ends, from any state. -/
theorem exec_ends {i : Instr} {s t : State} (h : exec i s = .next t) : Ends i s t := by
  unfold exec at h
  cases i with
  | beginOp => exact beginOp_ends h
  | endOp => exact endOp_ends h
  | startWrite => exact startWrite_ends h
  | endWrite => exact endWrite_ends h
  | readReg => exact readReg_ends h
  | color565 => injection h with h; exact h ▸ .returned rfl rfl
  | wrCmd | wrPix | wrColor | wPixel =>
    exact guarded_served [.noBracket] h rfl rfl rfl (fun _ => rfl) fun hr => runItems_served _ hr
  | setWin | wrPixs =>
    exact guarded_served [.noBracket, .badOperand] h rfl rfl rfl (fun _ => rfl) fun hr => runItems_served _ hr
  | wBitmap =>
    exact guarded_served [.noBracket, .badOperand, .badOperand] h rfl rfl rfl (fun _ => rfl) fun hr => runItems_served _ hr
  | wFillRect | wHLine | wVLine => exact fillUnbracketed_ends h rfl rfl fun _ => rfl
  | drawPixel | invert | scrollTo =>
    exact guarded_served [] h rfl rfl rfl (fun _ => rfl) fun hr => bracketed_served _ hr
  | drawBitmap =>
    exact guarded_served [.badOperand, .badOperand] h rfl rfl rfl (fun _ => rfl) fun hr => bracketed_served _ hr
  | fillRect | drawHLine | drawVLine => exact fillBracketed_ends h rfl rfl fun _ => rfl
  | setRot r =>
    exact guarded_served [] h rfl rfl rfl (fun _ => rfl)
      fun hr => (bracketed_served (s := s.setSurface (rotationOf r)) _ hr).of_setSurface
  | tOpen => exact tOpen_ends h
  | tXfer => exact tXfer_ends h
  | tBlock => exact tBlock_ends h
  | tClose => exact tClose_ends h

/-! What the ways have in common. -/

theorem exec_goes_on (i : Instr) (s : State) : ∃ t, exec i s = .next t := by
  cases i <;> exact ⟨_, rfl⟩

section
variable {i : Instr} {s t : State}

/-- Whichever way an operation ends, its result is handed back and nothing else has touched the mark. -/
theorem Ends.completes (h : Ends i s t) :
    ∃ (u : State) (st : Status) (v : Half), t = u.complete st v ∧ u.faultMark = s.faultMark := by
  cases h with
  | refused => exact ⟨_, _, _, rfl, rfl⟩
  | unserved _ hm | unavailable _ hm | failed _ hm | returned hm => exact ⟨_, _, _, rfl, hm⟩

theorem statusAllowed_ok (i : Instr) : statusAllowed i .ok = true := by cases i <;> rfl

theorem mayRefuse_iff {e : Status} : mayRefuse i e = true ↔ e.isMisuse = true ∧ statusAllowed i e = true :=
  Bool.and_eq_true_iff

theorem Ends.allowed (h : Ends i s t) {r : Result} (hr : t.result = some r) : statusAllowed i r.status = true := by
  cases h <;> obtain rfl := Option.some.inj hr
  case refused hi => exact (mayRefuse_iff.mp hi).2
  case unserved hi _ _ _ => exact (mayRefuse_iff.mp hi).2
  case unavailable hi _ => exact hi
  case failed hi _ _ => exact hi
  case returned => exact statusAllowed_ok i

/-- An operation raises a status with the value 0, or returns with the value of R93. -/
theorem Ends.value (h : Ends i s t) {r : Result} (hr : t.result = some r) :
    (r.status ≠ .ok ∧ r.value = 0) ∨ (r.status = .ok ∧ Returns i s t r.value) := by
  cases h <;> obtain rfl := Option.some.inj hr
  case refused hi =>
    refine .inl ⟨?_, rfl⟩
    rintro rfl
    cases hi
  case unserved => exact .inl ⟨nofun, rfl⟩
  case unavailable => exact .inl ⟨nofun, rfl⟩
  case failed => exact .inl ⟨nofun, rfl⟩
  case returned hv => exact .inr ⟨rfl, hv⟩

theorem Returns.zero {v : Half} (h : Returns i s t v) (hi : i.opcode ∉ [.beginOp, .readReg, .color565, .tXfer]) : v = 0 := by
  unfold Returns at h
  split at h
  case h_5 => exact h
  all_goals exact absurd hi (by simp [Instr.opcode])

end

/-- Settles O8: an operation has a next state, and in whichever way it ended a result is handed back in it. -/
theorem everyOperationEndsWithAResult : Obligations.EveryOperationEndsWithAResult := by
  intro i s
  obtain ⟨t, h⟩ := exec_goes_on i s
  obtain ⟨u, st, v, rfl, _⟩ := (exec_ends h).completes
  exact ⟨_, h, rfl⟩

/-- Settles O40: with the session open exactly in a ready block, only a refusal ends with a violation. -/
theorem anOperationIsRefusedWholeOrStarts : Obligations.AnOperationIsRefusedWholeOrStarts := by
  intro i s t r _ hses h hr hmis
  cases exec_ends h <;> obtain rfl := Option.some.inj hr
  case refused => exact ⟨_, rfl⟩
  case unserved hready hclosed => exact absurd (hses.1.mpr hready) hclosed
  case unavailable => cases hmis
  case failed => cases hmis
  case returned => cases hmis

/-- A packed colour is its three fields side by side (44_ancillary.md R224). -/
theorem packColour_eq_append (r g b : Byte) :
    packColour r g b = r.extractLsb' 3 5 ++ g.extractLsb' 2 6 ++ b.extractLsb' 3 5 := by
  rw [← packColour_red r g b, ← packColour_green r g b, ← packColour_blue r g b,
    BitVec.extractLsb'_append_extractLsb'_eq_extractLsb' (start₁ := 5) (len₁ := 6) rfl]
  exact (BitVec.extractLsb'_append_extractLsb' (w := 11) (len := 5)).symm

/-- Settles O41: each way of ending has its status in the operation's row, and the value is that of `Returns` or 0. -/
theorem everyStatusIsInTheTable : Obligations.EveryStatusIsInTheTable := by
  intro i s t r h hr
  have he := exec_ends h
  refine ⟨he.allowed hr, fun hz => ?zero, fun hok => ?_⟩
  case zero =>
    rcases he.value hr with ⟨_, hv⟩ | ⟨hok, hv⟩
    · exact hv
    · exact hv.zero (hz.resolve_left fun hn => hn hok)
  have hv : Returns i s t r.value := by
    rcases he.value hr with ⟨hn, _⟩ | ⟨_, hv⟩
    · exact absurd hok hn
    · exact hv
  refine ⟨?_, ?_, ?_, ?_⟩
  · rintro rfl; exact hv
  · rintro red green blue rfl; exact hv.trans (packColour_eq_append red green blue)
  · rintro out rfl; exact hv
  · rintro cmd index rfl; exact hv

/-- Settles O42: the operation was ended by a failed exchange, which leaves the block ready (`Failed`), and then the invariant
says what the session and the lines are. -/
theorem transferFailureRestoresTheLines : Obligations.TransferFailureRestoresTheLines := by
  intro i s t v hb hp hinv h hr
  have hinv' := exec_inv hp hinv h
  cases exec_ends h <;> injection hr with hr <;> injection hr with he hv
  case refused hi => subst he; cases hi
  case failed hf =>
    have g := hf hb hp
    exact ⟨hv.symm, g.lifecycle, hinv'.session.1.mpr g.lifecycle, g.depth, g.wmode, hinv'.lines, g.panel, g.trace⟩
  all_goals cases he

/-! The mark of a violation (R250). -/

theorem isMisuse_iff {e : Status} :
    e.isMisuse = true ↔ e ∈ [.notReady, .noBracket, .bracketOpen, .badOperand, .illegalOp] := by
  cases e <;> decide

theorem not_isMisuse_iff {e : Status} :
    e.isMisuse = false ↔ e = .ok ∨ e = .deviceUnavailable ∨ e = .transferFailure := by
  cases e <;> decide

/-- An operation adds to the mark whether its status is a violation. -/
theorem exec_faultMark {i : Instr} {s t : State} (h : exec i s = .next t) :
    ∃ r, t.result = some r ∧ t.faultMark = (s.faultMark || r.status.isMisuse) := by
  obtain ⟨u, st, v, rfl, hm⟩ := (exec_ends h).completes
  exact ⟨_, rfl, by rw [State.complete_faultMark, hm]⟩

/-- A step leaves the mark alone, or adds to it whether its status is a violation. -/
theorem step_faultMark {s t : State} (h : step s = .next t) :
    t = s ∨ ∃ r, t.result = some r ∧ t.faultMark = (s.faultMark || r.status.isMisuse) := by
  rcases step_cases h with ⟨_, rfl⟩ | ⟨_, _, _, _, _, he⟩ | ⟨_, _, _, _, _, rfl⟩
  · exact .inl rfl
  · have hm := exec_faultMark he
    exact .inr hm
  · exact .inr ⟨_, rfl, rfl⟩

/-- Settles O43: an operation and a step write the mark where they hand back a result, and nowhere else. -/
theorem faultMarkIsSticky : Obligations.FaultMarkIsSticky := by
  refine ⟨fun i s t r h hr => ?_, fun s t h => ?_, fun s r rest err hq hd => ?_⟩
  · obtain ⟨r', hr', hm⟩ := exec_faultMark h
    obtain rfl := Option.some.inj (hr'.symm.trans hr)
    refine ⟨hm, fun hn => ?_⟩
    obtain ⟨hs, hst⟩ := Bool.or_eq_false_iff.mp (hm.symm.trans hn)
    exact ⟨hs, not_isMisuse_iff.mp hst⟩
  · rcases step_faultMark h with rfl | ⟨r, hr, hm⟩
    · exact ⟨id, .inl⟩
    · rw [hm, Bool.or_eq_true_iff]
      exact ⟨.inl, .imp_right fun hst => ⟨r, hr, isMisuse_iff.mp hst⟩⟩
  · exact ⟨_, step_undecodable hq hd, rfl, Bool.or_true _⟩

end Sys2Proof.Machine

/-! PROOFS. The reset and hazards family (spec 70_reset_and_hazards.md): how a run that ends well leaves the block, and what pixel
data sent with no memory-write command in force does to the panel. -/

namespace Sys2Proof.Machine

/-! The operations issued to the block, taken one by one (R290, 10_state.md R25). -/

/-- A step takes the oldest request, and the operation it stands for writes none. -/
theorem step_requests {s t : State} (h : step s = .next t) : t.requests = s.requests.tail := by
  rcases step_cases h with ⟨hq, rfl⟩ | ⟨r, rest, i, hq, _, he⟩ | ⟨r, rest, e, hq, _, rfl⟩
  · rw [hq, List.tail_nil]
  · obtain ⟨_, _, _, hreq, _⟩ := traceGrowsAndParametersStay i _ t he
    rw [hreq, hq, State.setRequests_requests, List.tail_cons]
  · rw [hq, State.raise_requests, State.setRequests_requests, List.tail_cons]

theorem steps_requests {n : Nat} {s t : State} (h : steps n s = .next t) : t.requests = s.requests.drop n := by
  induction n generalizing s with
  | zero =>
    rw [steps_zero] at h
    injection h with h
    rw [h, List.drop_zero]
  | succ n ih =>
    obtain ⟨u, h1, h2⟩ := steps_succ h
    rw [ih h2, step_requests h1, List.drop_tail]

/-- An operation the host has issued is the one its bytes decode to. -/
theorem step_hostRequest {s : State} {i : Instr} {rest : List Request} (hw : i.wf = true) (hp : i.opcode.port = .host)
    (hq : s.requests = hostRequest i :: rest) : step s = exec i (s.setRequests rest) :=
  stepRunsTheDecodedOperation.1 s _ rest i hq ((congrArg (decode · (encode i)) hp.symm).trans (decodeInvertsEncode i hw))

/-! A fresh block (10_state.md R36). -/

section
variable {s : State} (h : Fresh s)
include h

theorem Fresh.lifecycle : s.lifecycle = .uninitialized := congrArg State.lifecycle h.1
theorem Fresh.session : s.session = .none := congrArg State.session h.1
theorem Fresh.depth : s.depth = 0 := congrArg State.depth h.1
theorem Fresh.wmode : s.wmode = false := congrArg State.wmode h.1
theorem Fresh.resetLine : s.resetLine = .undriven := congrArg State.resetLine h.1
theorem Fresh.dcLine : s.dcLine = .undriven := congrArg State.dcLine h.1
theorem Fresh.csLine : s.csLine = .undriven := congrArg State.csLine h.1
theorem Fresh.panel : s.panel = State.reset.panel := (congrArg State.panel h.1).trans rfl

/-- Whatever a fresh block is given, it meets the invariant, as the state after reset does. -/
theorem Fresh.inv (hh : HostOnly s) : Inv s where
  cfg := h.2.1
  surface := by simp [SurfaceOk, h.lifecycle]
  session := by simp [SessionOk, h.session, h.lifecycle]
  lines := by simp [LinesOk, h.session, h.resetLine, h.dcLine, h.csLine]
  bracket := by simp [BracketOk, h.wmode, h.depth]
  memories := ⟨by rw [h.panel]; exact resetMeetsTheInvariant.memories.1, h.2.2⟩
  panel := by simp [PanelOk, h.panel, h.wmode, State.reset]
  requests := hh

end

/-! The `END` of a run (R290, 41_lifecycle.md R131). -/

/-- From a ready state of the invariant with no bracket open, `END` returns and leaves the block at rest. -/
theorem execEnd_rests {s : State} (h : Inv s) (hl : s.lifecycle = .ready) (hd : s.depth = 0) :
    ∃ t, exec .endOp s = .next t ∧ AtRest t ∧ t.result = some ⟨.ok, 0⟩ := by
  obtain ⟨hreset, hdc, hcs⟩ := (h.linked hl).levels
  rw [hd, if_pos rfl] at hcs
  exact ⟨_, execEnd_serving ⟨hl, h.session.1.mpr hl⟩ hd, ⟨rfl, hd, rfl, hcs, hdc, hreset⟩, rfl⟩

theorem Refuses.result {i : Instr} {s t : State} {e : Status} (h : Refuses i s e) (he : exec i s = .next t) :
    t.result = some ⟨e, 0⟩ := by
  obtain ⟨m, hm⟩ := h
  rw [hm] at he
  injection he with he
  exact he ▸ rfl

/-- An `END` that returned `OK` was not refused, so it found the block ready with no bracket open. -/
theorem atRest_of_execEnd_ok {s t : State} (h : Inv s) (he : exec .endOp s = .next t) (hr : t.result = some ⟨.ok, 0⟩) :
    AtRest t := by
  by_cases hl : s.lifecycle = .ready
  · by_cases hd : s.depth = 0
    · obtain ⟨u, hu, hrest, _⟩ := execEnd_rests h hl hd
      rw [he] at hu
      injection hu with hu
      exact hu ▸ hrest
    · have hopen := (execEnd_bracketOpen hl hd).result he
      rw [hr] at hopen
      cases hopen
  · have hnot := (execEnd_not_ready hl).result he
    rw [hr] at hnot
    cases hnot

/-- The last step of a run that has ended well is its `END`, taken in a state of the invariant, which reset meets and every step
keeps. -/
theorem EndedWell.atRest {s t : State} (h : EndedWell s t) : AtRest t := by
  obtain ⟨⟨hfresh, hhost, hsteps, _⟩, hlast, hok⟩ := h
  obtain ⟨before, hq⟩ := List.getLast?_eq_some_iff.mp hlast
  rw [hq, List.length_append, List.length_singleton] at hsteps
  obtain ⟨u, hu, hstep⟩ := steps_last hsteps
  have hleft : u.requests = [hostRequest .endOp] := by rw [steps_requests hu, hq, List.drop_left]
  have hinv : Inv u := steps_keep everyStepKeepsTheInvariant (hfresh.inv hhost) hu
  rw [step_hostRequest rfl rfl hleft] at hstep
  exact atRest_of_execEnd_ok (hinv.setRequests (List.forall_mem_nil _)) hstep hok

/-- `BEGIN` whose open and exchanges succeed leaves a ready block with no bracket open. -/
theorem execBegin_ready {s : State} {os : List Bool} (hl : s.lifecycle = .uninitialized) (hs : s.session ≠ .opened)
    (hd : s.depth = 0) (ho : s.opens = true :: os) (ha : Answers s (beginExchanges s.cfg)) :
    ∃ t, exec .beginOp s = .next t ∧ t.lifecycle = .ready ∧ t.depth = 0 := by
  obtain ⟨t, ht, g⟩ := beginOpened_returns (s := s.granted os) rfl hd ha
  exact ⟨_, (execBegin_granted hl hs ho).trans (congrArg _ ht), rfl, g.depth.trans hd⟩

/-- A run of two operations: `BEGIN` leaves a state from which the invariant lets `END` return. -/
theorem Fresh.begin_end_ends_well {s : State} {os : List Bool} (h : Fresh s)
    (hq : s.requests = [.beginOp, .endOp].map hostRequest) (ho : s.opens = true :: os)
    (ha : Answers s (beginExchanges s.cfg)) : ∃ t, EndedWell s t := by
  have hhost : HostOnly s := by simp [HostOnly, hq, hostRequest]
  obtain ⟨u, hu, hl, hd⟩ := execBegin_ready (s := s.setRequests [hostRequest .endOp]) h.lifecycle (by simp [h.session])
    h.depth ho ha
  have hbegin : step s = .next u := (step_hostRequest rfl rfl hq).trans hu
  have hleft : u.requests = [hostRequest .endOp] := by rw [step_requests hbegin, hq]; rfl
  have hinv : Inv u := everyStepKeepsTheInvariant s u (h.inv hhost) hbegin
  obtain ⟨t, ht, _, hok⟩ := execEnd_rests (s := u.setRequests []) (hinv.setRequests (List.forall_mem_nil _)) hl hd
  have hend : step u = .next t := (step_hostRequest rfl rfl hleft).trans ht
  have hsteps : steps s.requests.length s = .next t := by
    rw [hq]
    exact (steps_cons hbegin).trans (steps_cons hend)
  exact ⟨t, ⟨h, hhost, hsteps, by rw [steps_requests hsteps, List.drop_length]⟩, by rw [hq]; rfl, hok⟩

/-- Settles O12: reset meets the invariant, every step keeps it, and in a state that meets it an `END` either is refused or
leaves the block at rest. -/
theorem endFromTheInvariantEndsWell : Obligations.EndFromTheInvariantEndsWell :=
  ⟨fun _ _ => EndedWell.atRest, fun _ => execEnd_rests, fun _ _ => Fresh.begin_end_ends_well⟩

/-! A panel that is unknown with no cell defined stays so through a walk (R280, 20_memory.md R62, R66). -/

/-- The whole panel is unspecified: its mode is unknown, and no cell of the frame memory has a value (20_memory.md R62). -/
abbrev Panel.Unspecified (p : Panel) : Prop := p.mode = .unknown ∧ p.fb = []

theorem lost_unspecified (n : Nat) : (Panel.lost n).Unspecified := ⟨rfl, rfl⟩

theorem onXfer_unspecified {p : Panel} (h : p.Unspecified) (cfg : Cfg) (W H : Half) (cs dc : Latch) (n : Nat) (b : Byte) :
    (p.onXfer cfg W H cs dc n b).Unspecified := by
  unfold Panel.onXfer
  split
  · rwa [Panel.onCommand, if_pos h.1]
  · rwa [onData_unknown h.1]
  all_goals exact lost_unspecified n

/-- No event makes an unspecified panel anything else: it is ignored, or it loses the panel again. -/
theorem onEvent_unspecified {p : Panel} (h : p.Unspecified) (cfg : Cfg) (W H : Half) (cs dc : Latch) (n : Nat) (e : Event) :
    (p.onEvent cfg W H cs dc n e).Unspecified := by
  unfold Panel.onEvent
  split
  · exact onXfer_unspecified h cfg W H cs dc n _
  · exact lost_unspecified n
  · rwa [onDeselect_unknown h.1]
  · exact lost_unspecified n
  all_goals exact h

theorem emit_unspecified {s : State} (h : s.panel.Unspecified) (e : Event) : (s.emit e).panel.Unspecified :=
  onEvent_unspecified h ..

theorem drive_unspecified {s : State} (h : s.panel.Unspecified) (l : Line) (v : Level) : (s.drive l v).panel.Unspecified :=
  emit_unspecified (by cases l <;> exact h) _

theorem xferByte_unspecified {s : State} (h : s.panel.Unspecified) (b : Byte) : (xferByte b s).2.panel.Unspecified := by
  have hd : (drawXfer s).2.panel.Unspecified := by rwa [drawXfer_panel]
  rcases xferByte_cases b s with ⟨_, hx⟩ | ⟨_, r, _, hx⟩ | ⟨_, _, hx⟩ <;> rw [hx]
  · exact h
  · exact emit_unspecified hd _
  · exact emit_unspecified hd _

theorem data8_unspecified {s : State} (h : s.panel.Unspecified) (b : Byte) : (data8 b s).2.panel.Unspecified :=
  data8_snd b s ▸ xferByte_unspecified h b

theorem andThen_unspecified {p q : Proc} {s : State} (hp : (p s).2.panel.Unspecified)
    (hq : ∀ {t : State}, t.panel.Unspecified → (q t).2.panel.Unspecified) : (p.andThen q s).2.panel.Unspecified := by
  unfold Proc.andThen
  rcases hps : p s with ⟨_ | e, t⟩ <;> rw [hps] at hp
  · exact hq hp
  · exact hp

theorem writeCommand_unspecified {s : State} (h : s.panel.Unspecified) (c : Byte) :
    (writeCommand c s).2.panel.Unspecified := by
  have hx := xferByte_unspecified (drive_unspecified h .dc .low) c
  unfold writeCommand
  rcases hxs : xferByte c (s.drive .dc .low) with ⟨_ | r, t⟩ <;> rw [hxs] at hx <;>
    exact drive_unspecified hx .dc .high

/-- A pixel leaves the panel unspecified once its hazard has. -/
theorem writePixel_unspecified {s : State} (h : s.streamHazard.panel.Unspecified) (c : Colour) :
    (writePixel c s).2.panel.Unspecified :=
  andThen_unspecified (data8_unspecified h _) fun ht => data8_unspecified ht _

theorem streamHazard_unspecified {s : State} (h : s.wmode = false ∨ s.panel.Unspecified) :
    s.streamHazard.panel.Unspecified := by
  rw [State.streamHazard_panel]
  rcases h with hw | hp
  · rw [hw, if_neg Bool.false_ne_true]
    exact lost_unspecified s.draws
  · split
    · exact hp
    · exact lost_unspecified s.draws

theorem runItem_unspecified (i : WireItem) {s : State} (h : s.panel.Unspecified) : (runItem i s).2.panel.Unspecified := by
  cases i with
  | command c => exact writeCommand_unspecified h c
  | data b => exact data8_unspecified h b
  | pixel c => exact writePixel_unspecified (streamHazard_unspecified (.inr h)) c
  | delay ms => exact emit_unspecified h _

theorem runItems_unspecified (is : List WireItem) {s : State} (h : s.panel.Unspecified) :
    (runItems is s).2.panel.Unspecified := by
  induction is generalizing s with
  | nil => exact h
  | cons i is ih => exact andThen_unspecified (runItem_unspecified i h) ih

/-! Pixels with no memory-write command in force (R280). -/

/-- A walk that begins with a pixel loses the panel at that pixel, and what follows does not bring it back. -/
theorem pixels_without_window_lose_panel {s : State} (hl : s.lifecycle = .ready) (hd : 1 ≤ s.depth) (hw : s.wmode = false)
    {c : Colour} {is : List WireItem} {checks : List (Bool × Status)} {items : State → List WireItem}
    (hc : firstFailing checks = none) (hi : items s = .pixel c :: is) :
    ∃ t, guarded (readyCheck s :: bracketCheck s :: checks) (fun s => conclude (runItems (items s) s) 0) s = .next t ∧
      t.panel.mode = .unknown ∧ ∀ a, t.panel.fb.read a = none := by
  have hp : (runItems (items s) s).2.panel.Unspecified := by
    rw [hi]
    exact andThen_unspecified (writePixel_unspecified (streamHazard_unspecified (.inl hw)) c) (runItems_unspecified is)
  obtain ⟨st, v, hend⟩ := conclude_eq (runItems (items s) s) 0
  rw [readyCheck, guarded_pass (decide_eq_true hl), bracketCheck, guarded_pass (decide_eq_true hd)]
  simp only [guarded, hc, hend]
  exact ⟨_, rfl, hp.1, fun a => by rw [State.complete_panel, hp.2]; rfl⟩

/-- Settles O51: each of the three operations is a walk of pixels, and the first of them loses the panel. -/
theorem streamWithoutAWindowLosesThePanel : Obligations.StreamWithoutAWindowLosesThePanel := by
  refine fun s hl hd hw => ⟨fun c => ?_, fun c n hn => ?_, fun p n hn hdef => ?_⟩
  · exact pixels_without_window_lose_panel hl hd hw (checks := []) (items := fun _ => [.pixel c]) rfl rfl
  · obtain ⟨m, hm⟩ := Nat.exists_eq_add_of_le' hn
    exact pixels_without_window_lose_panel hl hd hw (checks := []) (items := fun _ => List.replicate n.toNat (.pixel c))
      rfl (by rw [hm, List.replicate_succ])
  · obtain ⟨cs, hlen, hcs⟩ := source_colours hdef
    have hi := streamItems_eq hlen hcs
    obtain ⟨c, cs', rfl⟩ := List.exists_cons_of_length_pos (hlen ▸ hn)
    exact pixels_without_window_lose_panel hl hd hw (checks := [streamCheck s p.toNat n.toNat])
      (items := fun s => (streamItems s p.toNat n.toNat).getD []) (by rw [streamCheck, hi]; rfl) (by rw [hi]; rfl)

end Sys2Proof.Machine
